-- ==== Sys2Proof/Word.lean ====
section
/-! DEFINITION. The widths of the block: bytes, the 16-bit and 32-bit fields, the 64-bit operation word. -/

namespace Sys2Proof

/-- A byte, "8 bits, an unsigned integer 0 to 255" (R10). -/
abbrev Byte := BitVec 8

/-- A 16-bit field: `IMM` of an operation word (R85), `len` of a descriptor (R90). -/
abbrev Half := BitVec 16

/-- A 32-bit field: a packed descriptor (R90), a CSR (R53), a context token (R7). -/
abbrev Quad := BitVec 32

/-- A 64-bit operation word (R85) or response (R92). -/
abbrev OpWord := BitVec 64

end Sys2Proof
end

