-- ==== Sys2Proof/Config.lean ====
section
/-! DEFINITION. The configuration record `Cfg` of R7, the reference configuration REFCFG, and the free values: what the
spec leaves open and no proof may know (93_implementation_defined.md U1, U3, U4, U5). -/

namespace Sys2Proof

/-- One bin of the pool: `bin_size[b]` and `bin_count[b]` (R7, R23). -/
structure BinCfg where
  size : Nat
  count : Nat
  deriving DecidableEq, Repr

/-- One sub-queue: `q_prio[q]` and `q_depth[q]` (R7, R140). -/
structure QueueCfg where
  prio : Nat
  depth : Nat
  deriving DecidableEq, Repr

/-- One rate group: `grp_div[g]` and the tokens `grp_ctx[g][i]` in registration order, `grp_n[g]` of them (R7, R215). -/
structure GroupCfg where
  div : Nat
  ctx : List Quad
  deriving DecidableEq, Repr

/-- `BYTE_ORDER`: which byte of the length and checksum fields goes first on the wire (R7, R64). -/
inductive ByteOrder where
  | big
  | little
  deriving DecidableEq, Repr

/-- `CHK_ALG` (R7, R106): `SUM` (R107), or a function supplied with the configuration. A configuration is plain data, so a
supplied function is named by a number and stands in `Config.suppliedChecksum`. -/
inductive ChkAlg where
  | sum
  | supplied (id : Nat)
  deriving DecidableEq, Repr

/-- The configuration `Cfg`: "a record of constants chosen before reset and immutable afterwards" (R7). `NBINS`, `NQ`,
`N`, `NG` and `grp_n[g]` are the lengths of the lists. -/
structure Cfg where
  bins : List BinCfg
  queues : List QueueCfg
  sync : List Byte
  lenW : Nat
  chkW : Nat
  order : ByteOrder
  chkAlg : ChkAlg
  maxPayload : Nat
  syncRetest : Bool
  groups : List GroupCfg
  nport : Nat
  deriving DecidableEq, Repr

/-- The reference configuration REFCFG, the last column of R7's table. -/
def Cfg.reference : Cfg where
  bins := [⟨16, 2⟩, ⟨64, 2⟩]
  queues := [⟨0, 2⟩, ⟨1, 2⟩]
  sync := [0xAA#8, 0x55#8]
  lenW := 1
  chkW := 1
  order := .big
  chkAlg := .sum
  maxPayload := 60
  syncRetest := false
  groups := [⟨1, [0x10#32]⟩, ⟨2, [0x20#32]⟩]
  nport := 3

/-- FREE VALUE (log 3). The arbiter's choice number `draw` among pending enabled operations: "Which pending operation goes
next is not specified" (R72, U3). -/
opaque Config.arbiter : (draw : Nat) → Nat

/-- FREE VALUE (log 5). The driver's verdict `drv_ok` number `draw`: "one bit supplied by the transport driver,
unconstrained" (R207, U4). -/
opaque Config.driverOk : (draw : Nat) → Bool

/-- FREE VALUE (log 6). What offset `off` of a slot reads as when nothing has written it since the slot's allocation, the
allocation being draw number `draw` (R28, U1). -/
opaque Config.undefinedByte : (draw off : Nat) → Byte

/-- FREE VALUE (log 9). The checksum function number `id` that a configuration may supply: a total function from byte lists to
lists of exactly `width` bytes of which the model "assumes nothing else" (R106, U5). -/
opaque Config.suppliedChecksum : (id width : Nat) → List Byte → Vector Byte width

end Sys2Proof
end

