-- ==== Sys2Proof/Syntax.lean ====
section
/-! DEFINITION. Descriptors and the sixteen operations: one constructor of `Instr` for each row of the opcode table. -/

namespace Sys2Proof

/-- A descriptor `(b, s, len)`, the handle of a pool slot with a logical length (R12, R90). -/
structure Desc where
  bin : Byte
  slot : Byte
  len : Half
  deriving DecidableEq, Repr

/-- The operations of R88, each with the fields its format reads (R86, R89). -/
inductive Instr where
  /-- `NOP`, format Z (R231). -/
  | nop
  /-- `ALLOC size`, format I (R122). -/
  | alloc (size : Half)
  /-- `RELEASE b.s`, format D (R126). -/
  | release (d : Desc)
  /-- `BUFWR b.s:len, off, byte`, format AID (R130). -/
  | bufwr (data : Byte) (off : Half) (d : Desc)
  /-- `BUFRD b.s:len, off`, format ID (R133). -/
  | bufrd (off : Half) (d : Desc)
  /-- `ENQ prio, b.s:len`, format AD (R142). -/
  | enq (prio : Byte) (d : Desc)
  /-- `DEQ`, format Z (R146). -/
  | deq
  /-- `FRAME b.s:len`, format D (R157). -/
  | frame (d : Desc)
  /-- `RXB byte`, format A (R172). -/
  | rxb (data : Byte)
  /-- `SUBMIT b.s:len`, format D (R204). -/
  | submit (d : Desc)
  /-- `TRDY`, format Z (R202). -/
  | trdy
  /-- `START`, format Z (R217). -/
  | start
  /-- `TICK`, format Z (R219). -/
  | tick
  /-- `RDCSR csr`, format I (R233). -/
  | rdcsr (csr : Half)
  /-- `CLRSTS`, format Z (R236). -/
  | clrsts
  /-- `RST`, format Z (R238). -/
  | rst
  deriving DecidableEq, Repr

end Sys2Proof
end

