-- ==== Sys2Proof/WellFormed.lean ====
section
/-! DEFINITION. Well-formedness. An `Instr` is well formed by its types: each operand is a bit vector of the width of its
field (R85, R90), so no term of `Instr` is ill formed. What can be ill formed is a configuration; R8 says when, one check
each below, and the type `WfCfg` holds the proof, so that an ill-formed one cannot be built (U8). -/

namespace Sys2Proof

/-- `NBINS` 1 to 256; every `bin_size` 1 to 65535, every `bin_count` 1 to 256 (R7). -/
def Cfg.binRanges (c : Cfg) : Bool :=
  decide (1 ≤ c.bins.length) && decide (c.bins.length ≤ 256) &&
    c.bins.all fun b => decide (1 ≤ b.size) && decide (b.size ≤ 65535) && decide (1 ≤ b.count) && decide (b.count ≤ 256)

/-- `bin_size` "strictly ascending in `b`" (R7, R8). -/
def Cfg.binsAscending (c : Cfg) : Bool :=
  decide (c.bins.Pairwise fun a b => a.size < b.size)

/-- `NQ` 1 to 256; every `q_prio` 0 to 255, every `q_depth` 0 to 65535 (R7). -/
def Cfg.queueRanges (c : Cfg) : Bool :=
  decide (1 ≤ c.queues.length) && decide (c.queues.length ≤ 256) &&
    c.queues.all fun q => decide (q.prio ≤ 255) && decide (q.depth ≤ 65535)

/-- The priorities "pairwise distinct" (R7, R8). -/
def Cfg.priosDistinct (c : Cfg) : Bool :=
  decide (c.queues.Pairwise fun a b => a.prio ≠ b.prio)

/-- `N` 1 to 8, `LEN_W` and `CHK_W` 1 to 4 (R7). -/
def Cfg.codecWidths (c : Cfg) : Bool :=
  decide (1 ≤ c.sync.length) && decide (c.sync.length ≤ 8) && decide (1 ≤ c.lenW) && decide (c.lenW ≤ 4) &&
    decide (1 ≤ c.chkW) && decide (c.chkW ≤ 4)

/-- `MAX_PAYLOAD` "representable in `LEN_W` bytes" (R8). -/
def Cfg.maxPayloadFits (c : Cfg) : Bool :=
  decide (c.maxPayload < 2 ^ (8 * c.lenW))

/-- `N + LEN_W + MAX_PAYLOAD + CHK_W <= 65535` (R8). -/
def Cfg.frameFits (c : Cfg) : Bool :=
  decide (c.sync.length + c.lenW + c.maxPayload + c.chkW ≤ 65535)

/-- `NG` 0 to 256; every divisor 1 to `2^32 - 1`, every `grp_n` 0 to 256 (R7, R8). -/
def Cfg.groupRanges (c : Cfg) : Bool :=
  decide (c.groups.length ≤ 256) &&
    c.groups.all fun g => decide (1 ≤ g.div) && decide (g.div < 2 ^ 32) && decide (g.ctx.length ≤ 256)

/-- `NPORT` 1 or more (R7). -/
def Cfg.hasPort (c : Cfg) : Bool :=
  decide (1 ≤ c.nport)

/-- A configuration is well formed "when every range and relation of rule R7's table holds" (R8). -/
def Cfg.wf (c : Cfg) : Bool :=
  c.binRanges && c.binsAscending && c.queueRanges && c.priosDistinct && c.codecWidths && c.maxPayloadFits &&
    c.frameFits && c.groupRanges && c.hasPort

/-- A configuration with the proof that it is well formed: the only kind the model accepts (R8, U8). -/
abbrev WfCfg := { c : Cfg // c.wf = true }

/-- REFCFG (R7). -/
def WfCfg.reference : WfCfg := ⟨Cfg.reference, by decide⟩

end Sys2Proof
end

