-- ==== Sys2Proof/Decode.lean ====
section
/-! DEFINITION. The decoder of operation words (R85 to R90, R94, R95), and after it the encoder of canonical words (R96). -/

namespace Sys2Proof

/-- `OPC = w[63:56]` (R85). -/
def opcOf (w : OpWord) : Byte := w.extractLsb' 56 8

/-- `AUX = w[55:48]` (R85). -/
def auxOf (w : OpWord) : Byte := w.extractLsb' 48 8

/-- `IMM = w[47:32]` (R85). -/
def immOf (w : OpWord) : Half := w.extractLsb' 32 16

/-- `DESC = w[31:0]` (R85). -/
def descFieldOf (w : OpWord) : Quad := w.extractLsb' 0 32

/-- A descriptor from its 32 bits: bin 31:24, slot 23:16, len 15:0 (R90). -/
def Desc.unpack (q : Quad) : Desc := ⟨q.extractLsb' 24 8, q.extractLsb' 16 8, q.extractLsb' 0 16⟩

/-- `desc(b, s, len) = (b << 24) | (s << 16) | len` (R90). -/
def Desc.pack (d : Desc) : Quad := d.bin ++ d.slot ++ d.len

/-- The descriptor field of an operation word. -/
def descOf (w : OpWord) : Desc := Desc.unpack (descFieldOf w)

/-- Why a word is no operation. -/
inductive DecodeError where
  /-- The word's `OPC` is not in the table of R88: the word is illegal (R94). -/
  | illegalOpcode (opc : Byte)
  deriving DecidableEq, Repr

/-- The operation that `OPC` alone selects (R87, R88), its operands taken from the fields its format reads (R86, R89). -/
def decode (w : OpWord) : Except DecodeError Instr :=
  match (opcOf w).toNat with
  | 0x00 => .ok .nop
  | 0x01 => .ok (.alloc (immOf w))
  | 0x02 => .ok (.release (descOf w))
  | 0x03 => .ok (.bufwr (auxOf w) (immOf w) (descOf w))
  | 0x04 => .ok (.bufrd (immOf w) (descOf w))
  | 0x10 => .ok (.enq (auxOf w) (descOf w))
  | 0x11 => .ok .deq
  | 0x20 => .ok (.frame (descOf w))
  | 0x28 => .ok (.rxb (auxOf w))
  | 0x30 => .ok (.submit (descOf w))
  | 0x31 => .ok .trdy
  | 0x40 => .ok .start
  | 0x41 => .ok .tick
  | 0x50 => .ok (.rdcsr (immOf w))
  | 0x51 => .ok .clrsts
  | 0x7F => .ok .rst
  | _ => .error (.illegalOpcode (opcOf w))

/-- The operation word with the given fields (R85). -/
def wordOf (opc aux : Byte) (imm : Half) (desc : Quad) : OpWord := opc ++ aux ++ imm ++ desc

/-- The canonical word of an operation: "0 in every ignored field" (R96), the syntax table of R111. -/
def encode : Instr → OpWord
  | .nop => wordOf 0x00#8 0 0 0
  | .alloc size => wordOf 0x01#8 0 size 0
  | .release d => wordOf 0x02#8 0 0 d.pack
  | .bufwr data off d => wordOf 0x03#8 data off d.pack
  | .bufrd off d => wordOf 0x04#8 0 off d.pack
  | .enq prio d => wordOf 0x10#8 prio 0 d.pack
  | .deq => wordOf 0x11#8 0 0 0
  | .frame d => wordOf 0x20#8 0 0 d.pack
  | .rxb data => wordOf 0x28#8 data 0 0
  | .submit d => wordOf 0x30#8 0 0 d.pack
  | .trdy => wordOf 0x31#8 0 0 0
  | .start => wordOf 0x40#8 0 0 0
  | .tick => wordOf 0x41#8 0 0 0
  | .rdcsr csr => wordOf 0x50#8 0 csr 0
  | .clrsts => wordOf 0x51#8 0 0 0
  | .rst => wordOf 0x7F#8 0 0 0

/-- The operation the decoder reads from a word given as a number of `nbits` bits, bit 0 the least significant. An operation
word is one 64-bit value without byte order (R66, R85), so its bits above `nbits` are 0 and nothing is laid out in bytes. -/
def decodeTableWord (nbits w : Nat) : Option Instr :=
  match decode (BitVec.ofNat 64 (w % 2 ^ nbits)) with
  | .ok i => some i
  | .error _ => none

/-- A descriptor in the trace syntax, `b.s:len` (R12, R111). -/
def Desc.render (d : Desc) : String :=
  toString d.bin.toNat ++ "." ++ toString d.slot.toNat ++ ":" ++ toString d.len.toNat

/-- An operation in the trace syntax of R111, numbers in decimal. -/
def Instr.render : Instr → String
  | .nop => "NOP"
  | .alloc size => "ALLOC " ++ toString size.toNat
  | .release d => "RELEASE " ++ d.render
  | .bufwr data off d => "BUFWR " ++ d.render ++ ", " ++ toString off.toNat ++ ", " ++ toString data.toNat
  | .bufrd off d => "BUFRD " ++ d.render ++ ", " ++ toString off.toNat
  | .enq prio d => "ENQ " ++ toString prio.toNat ++ ", " ++ d.render
  | .deq => "DEQ"
  | .frame d => "FRAME " ++ d.render
  | .rxb data => "RXB " ++ toString data.toNat
  | .submit d => "SUBMIT " ++ d.render
  | .trdy => "TRDY"
  | .start => "START"
  | .tick => "TICK"
  | .rdcsr csr => "RDCSR " ++ toString csr.toNat
  | .clrsts => "CLRSTS"
  | .rst => "RST"

end Sys2Proof
end

