-- ==== Sys2Proof/Machine/State.lean ====
section
/-! DEFINITION. The state of the block (10_state.md R22), the agents' side of its ports, the outcomes of a step, and reset (R280). -/

namespace Sys2Proof.Machine

/-- Who owns a slot (R24). -/
inductive Owner where
  /-- `FREE`: on the bin's free list. -/
  | free
  /-- `EXT`: allocated, owned by an external agent. -/
  | ext
  /-- `QUEUE`: allocated, its descriptor held in a sub-queue. -/
  | queue
  /-- `RXD`: allocated, held by the Deframer as `rx_buf`. -/
  | rxd
  deriving DecidableEq, Repr

/-- One bin: `slot_owner[b]`, `free_list[b]`, `in_use[b]` (R24 to R26). -/
structure Bin where
  owner : List Owner
  free : List Nat
  inUse : Nat
  deriving DecidableEq, Repr

/-- The defined bytes of slot memory (R28), by key (log 7), keys strictly rising. A key that is not listed is an undefined byte. -/
abbrev Memory := List Host.Cell

/-- One sub-queue: `q_fifo[q]`, oldest first, and `q_cnt[q]` (R34, R35). -/
structure SubQueue where
  fifo : List Desc
  cnt : Nat
  deriving DecidableEq, Repr

/-- `rx_state` (R39). -/
inductive RxState where
  | seekingSync
  | readingLength
  | readingPayload
  | readingChecksum
  | dispatchReady
  deriving DecidableEq, Repr

/-- The DeframerState: `rx_state`, `rx_cnt`, `rx_scr`, `rx_len`, `rx_buf`, `rx_chk` (R39 to R44). -/
structure Deframer where
  st : RxState
  cnt : Nat
  scr : List Byte
  len : Nat
  buf : Option (Nat × Nat)
  chk : List Byte
  deriving DecidableEq, Repr

/-- The status and fault codes by name (R246). -/
inductive Status where
  | ok
  | poolExhausted
  | queueFull
  | payloadTooLarge
  | transportNotReady
  | driverFailure
  | badPriority
  | notStarted
  | badCommand
  | badCsr
  | invalidRelease
  | invalidBuffer
  deriving DecidableEq, Repr

/-- The output events (R50), the status by name (log 11). -/
inductive Event where
  /-- `RSP(port, status, aux, data)`: the response to an operation of a command port. -/
  | rsp (port : Nat) (status : Status) (aux : Byte) (data : Quad)
  /-- `DISPATCH(desc, payload)`: a checksum-valid frame's buffer handed to the dispatch sink. -/
  | dispatch (d : Desc) (payload : List Byte)
  /-- `TXDATA(bytes)`: the bytes offered to the transport driver. -/
  | txData (bytes : List Byte)
  /-- `ACT(g, i, ctx)`: consumer `i` of rate group `g` invoked with its context token. -/
  | act (group consumer : Nat) (ctx : Quad)
  /-- `HALT(code, info)`: the block has halted. -/
  | halt (code : Byte) (info : Quad)
  deriving DecidableEq, Repr

/-- The five sticky flags `F_CHK`, `F_LEN`, `F_NOBUF`, `F_TXDROP`, `F_DRVFAIL` (R52). -/
structure Sticky where
  chk : Bool
  len : Bool
  noBuf : Bool
  txDrop : Bool
  drvFail : Bool
  deriving DecidableEq, Repr

/-- The input ports (R97). -/
inductive Port where
  | cmd (k : Nat)
  | serRx
  | trdyIn
  | tickIn
  | rstIn
  deriving DecidableEq, Repr

/-- The agents' side of the ports, the model's own (R59: a held operation is state of the issuing agent). For each port the
operations its agent issues, in order; the head is the outstanding one (R75), the others come after its completion (log 2, log 4).
`active` is the port whose operation executes; `turns` and `verdicts` are choices of the arbiter and of the driver already made
(R72, R207); `draws` counts the free values drawn; `fills[b][s]` is the number of the draw that stands for the undefined bytes of
slot `s` of bin `b` since its last allocation (log 6). -/
structure Env where
  active : Port
  cmd : List (List OpWord)
  ser : List Byte
  trdy : Nat
  tick : Nat
  rst : Nat
  turns : List Nat
  verdicts : List Bool
  draws : Nat
  fills : List (List Nat)
  deriving DecidableEq, Repr

/-- The state of the block: the elements of R22's table, "exactly these fields and no other". -/
structure Block where
  /-- `slot_owner`, `free_list`, `in_use` of each bin (R24 to R26). -/
  pool : List Bin
  /-- `slot_mem` (R28). -/
  mem : Memory
  /-- `q_fifo`, `q_cnt` of each sub-queue (R34, R35). -/
  queues : List SubQueue
  /-- `rx_state`, `rx_cnt`, `rx_scr`, `rx_len`, `rx_buf`, `rx_chk` (R39 to R44). -/
  rx : Deframer
  /-- `ready` (R47). -/
  ready : Bool
  /-- `started` (R48). -/
  started : Bool
  /-- `tick_cnt` (R49). -/
  tickCnt : Quad
  /-- `out`, oldest event first (R50). -/
  out : List Event
  /-- `fatal` (R51). -/
  fatal : Bool
  /-- `fault_code` (R51). -/
  faultCode : Byte
  /-- `fault_info` (R51). -/
  faultInfo : Quad
  /-- The sticky flags (R52). -/
  flags : Sticky
  deriving DecidableEq, Repr

/-- The machine: the state of the block, and beside it what is no state of the block but has no other place in a step from State to
State: the configuration, an argument of the model written by nothing (log 1), and the agents' side of the ports (R59, log 2). -/
structure State extends Block where
  /-- `Cfg` (R7): not state, "it is a parameter of every rule" (10_state.md). -/
  cfg : WfCfg
  /-- The agents' side of the ports. -/
  env : Env
  deriving DecidableEq, Repr

/-- The conditions the spec's invariants rule out (log 10). The block's own fatal fault is not one of these: it is a next state
with `fatal = 1` (R262). Each is safe: the model stops where the spec says the block cannot be. -/
inductive Fault where
  /-- Raised by `RXB` in `DISPATCH_READY`, where "no `RXB` ever starts" (R183). Safe. -/
  | dispatchReadyBetweenOperations
  /-- Raised by `RXB` in `READING_PAYLOAD` or `READING_CHECKSUM` with `rx_buf = None`, against the invariant of R43. Safe. -/
  | deframerHoldsNoBuffer
  /-- Raised by `RXB` storing a payload byte outside the slot it holds, an address that does not exist (R62, R180). Safe. -/
  | slotAddressOutOfRange
  /-- Raised by `DEQ` when `q_cnt` is positive and `q_fifo` empty, against `q_cnt[q] = |q_fifo[q]|` (R35). Safe. -/
  | queueCountDisagrees
  deriving DecidableEq, Repr

/-- Why an operation has no meaning in the model. -/
inductive Refusal where
  /-- Raised by an arm of `exec` whose operation is not modelled; no arm raises it. Safe. -/
  | notModelled (mnemonic : String)
  deriving DecidableEq, Repr

/-- What an operation ends in. -/
abbrev Result := Host.Outcome State Fault Refusal

/-- A bin after reset: every slot `FREE`, the free list `[0, 1, ..., bin_count - 1]`, nothing in use (R280). -/
def Bin.fresh (count : Nat) : Bin where
  owner := List.replicate count .free
  free := List.range count
  inUse := 0

/-- An empty sub-queue (R280). -/
def SubQueue.fresh : SubQueue := ⟨[], 0⟩

/-- The Deframer after reset and after `rx_clear`: `SEEKING_SYNC`, everything else empty or 0 (R46, R280). -/
def Deframer.fresh : Deframer := ⟨.seekingSync, 0, [], 0, none, []⟩

/-- No sticky flag set (R280). -/
def Sticky.none : Sticky := ⟨false, false, false, false, false⟩

/-- Ports at which no agent has issued anything, `NPORT` of them command ports (R97, log 12). -/
def Env.idle (c : Cfg) : Env where
  active := .cmd 0
  cmd := List.replicate c.nport []
  ser := []
  trdy := 0
  tick := 0
  rst := 0
  turns := []
  verdicts := []
  draws := 0
  fills := c.bins.map fun b => List.replicate b.count 0

/-- The block after power-on with configuration `c`: every element at the value of R280's table, slot memory undefined. -/
def State.powerOn (c : WfCfg) : State where
  cfg := c
  pool := c.val.bins.map fun b => Bin.fresh b.count
  mem := []
  queues := c.val.queues.map fun _ => SubQueue.fresh
  rx := Deframer.fresh
  ready := false
  started := false
  tickCnt := 0
  out := []
  fatal := false
  faultCode := 0
  faultInfo := 0
  flags := Sticky.none
  env := Env.idle c.val

/-- The machine right after reset, in the reference configuration (R7, R280, log 1). -/
def State.reset : State := State.powerOn WfCfg.reference

end Sys2Proof.Machine
end

