-- ==== Sys2Proof/Machine/Operands.lean ====
section
/-! DEFINITION. What operations compute from their operands without changing anything: status codes and responses, byte order,
checksum and frame, bin selection, descriptor validity, the queue's scan order. -/

namespace Sys2Proof

/-- The handle `(b, s)` of a descriptor (R12). -/
def Desc.handle (d : Desc) : Nat × Nat := (d.bin.toNat, d.slot.toNat)

/-! ## Byte order, checksum, frame -/

/-- The `w` low bytes of `v`, the least significant first: `enc` with `BYTE_ORDER = little` (R104). -/
def littleBytes (v : Nat) : Nat → List Byte
  | 0 => []
  | w + 1 => BitVec.ofNat 8 v :: littleBytes (v / 256) w

/-- The value of a byte list whose first byte is the least significant: `dec` with `BYTE_ORDER = little` (R105). -/
def littleValue : List Byte → Nat
  | [] => 0
  | b :: l => b.toNat + 256 * littleValue l

/-- `enc(v, W)`, "the list of `W` bytes" of `v` in `BYTE_ORDER` (R104). -/
def Cfg.enc (c : Cfg) (v w : Nat) : List Byte :=
  match c.order with
  | .big => (littleBytes v w).reverse
  | .little => littleBytes v w

/-- `dec(l)`, the unsigned value of a byte list in `BYTE_ORDER` (R105). -/
def Cfg.dec (c : Cfg) (l : List Byte) : Nat :=
  match c.order with
  | .big => littleValue l.reverse
  | .little => littleValue l

/-- The arithmetic sum of the bytes of a list (R107). -/
def byteSum (l : List Byte) : Nat := (l.map BitVec.toNat).sum

/-- `CHK(l)`: for `SUM` the sum modulo `2^(8*CHK_W)` encoded in `CHK_W` bytes (R107); else the supplied function, whose result has
exactly `CHK_W` bytes by its type (R106). -/
def Cfg.chk (c : Cfg) (l : List Byte) : List Byte :=
  match c.chkAlg with
  | .sum => c.enc (byteSum l % 2 ^ (8 * c.chkW)) c.chkW
  | .supplied id => (Config.suppliedChecksum id c.chkW l).toList

/-- `T(L) = N + LEN_W + L + CHK_W` (R101). -/
def Cfg.frameSize (c : Cfg) (len : Nat) : Nat := c.sync.length + c.lenW + len + c.chkW

/-- The frame of a payload: `SYNC ++ enc(L, LEN_W) ++ P ++ CHK(enc(L, LEN_W) ++ P)` (R100). -/
def Cfg.frameOf (c : Cfg) (payload : List Byte) : List Byte :=
  c.sync ++ c.enc payload.length c.lenW ++ payload ++ c.chk (c.enc payload.length c.lenW ++ payload)

/-! ## Bins and sub-queues of a configuration -/

/-- `best_bin(n)`: the smallest index `b` with `bin_size[b] >= n`, or `None` (R120). -/
def Cfg.bestBin (c : Cfg) (n : Nat) : Option Nat :=
  c.bins.findIdx? fun b => decide (n ≤ b.size)

/-- `bin_size[b]`, 0 for a bin that does not exist. -/
def Cfg.binSize (c : Cfg) (b : Nat) : Nat :=
  match c.bins[b]? with
  | some k => k.size
  | none => 0

/-- `bin_count[b]`, 0 for a bin that does not exist. -/
def Cfg.binCount (c : Cfg) (b : Nat) : Nat :=
  match c.bins[b]? with
  | some k => k.count
  | none => 0

/-- `qidx(p)`: the sub-queue that serves priority `p`, or `None` (R37). -/
def Cfg.qidx (c : Cfg) (p : Nat) : Option Nat :=
  c.queues.findIdx? fun q => decide (q.prio = p)

/-- `q_prio[q]`, 0 for a sub-queue that does not exist. -/
def Cfg.qPrio (c : Cfg) (q : Nat) : Nat :=
  match c.queues[q]? with
  | some k => k.prio
  | none => 0

/-- `q_depth[q]`, 0 for a sub-queue that does not exist. -/
def Cfg.qDepth (c : Cfg) (q : Nat) : Nat :=
  match c.queues[q]? with
  | some k => k.depth
  | none => 0

/-- `scan_order`: the sub-queue indices sorted by ascending `q_prio` (R38). -/
def Cfg.scanOrder (c : Cfg) : List Nat :=
  (List.range c.queues.length).insertionSort fun a b => c.qPrio a ≤ c.qPrio b

end Sys2Proof

namespace Sys2Proof.Machine

/-! ## Codes, descriptors, responses -/

/-- The code of a status or fault (R246). -/
def Status.code : Status → Byte
  | .ok => 0x00
  | .poolExhausted => 0x01
  | .queueFull => 0x02
  | .payloadTooLarge => 0x03
  | .transportNotReady => 0x04
  | .driverFailure => 0x05
  | .badPriority => 0x06
  | .notStarted => 0x07
  | .badCommand => 0x08
  | .badCsr => 0x09
  | .invalidRelease => 0x80
  | .invalidBuffer => 0x81

/-- The 64-bit response word: STATUS 63:56, AUX 55:48, reserved 0, DATA 31:0 (R92). -/
def responseWord (st : Status) (aux : Byte) (data : Quad) : OpWord :=
  st.code ++ aux ++ (0#16) ++ data

/-- `desc(b, s, len)` of a handle (R90). -/
def mkDesc (b sl len : Nat) : Desc := ⟨BitVec.ofNat 8 b, BitVec.ofNat 8 sl, BitVec.ofNat 16 len⟩

/-- The numeric code of `rx_state` (R39). -/
def RxState.code : RxState → BitVec 3
  | .seekingSync => 0
  | .readingLength => 1
  | .readingPayload => 2
  | .readingChecksum => 3
  | .dispatchReady => 4

/-! ## Looking at the state -/

/-- The configuration record of a state. -/
abbrev State.conf (s : State) : Cfg := s.cfg.val

/-- `slot_owner[b][s]`, `none` outside the pool. -/
def State.owner? (s : State) (b sl : Nat) : Option Owner :=
  match s.pool[b]? with
  | some B => B.owner[sl]?
  | none => none

/-- `free_list[b]`, empty outside the pool. -/
def State.freeList (s : State) (b : Nat) : List Nat :=
  match s.pool[b]? with
  | some B => B.free
  | none => []

/-- `in_use[b]`, 0 outside the pool. -/
def State.inUse (s : State) (b : Nat) : Nat :=
  match s.pool[b]? with
  | some B => B.inUse
  | none => 0

/-- The draw that stands for the undefined bytes of a slot (log 6). -/
def State.fillOf (s : State) (b sl : Nat) : Nat :=
  match s.env.fills[b]? with
  | some l => l.getD sl 0
  | none => 0

/-- `q_fifo[q]`, empty outside the queue. -/
def State.qFifo (s : State) (q : Nat) : List Desc :=
  match s.queues[q]? with
  | some Q => Q.fifo
  | none => []

/-- `q_cnt[q]`, 0 outside the queue. -/
def State.qCnt (s : State) (q : Nat) : Nat :=
  match s.queues[q]? with
  | some Q => Q.cnt
  | none => 0

/-- `valid_handle(d)`: `b < NBINS` and `s < bin_count[b]` (R33). -/
def State.validHandle (s : State) (d : Desc) : Bool :=
  decide (d.bin.toNat < s.conf.bins.length) && decide (d.slot.toNat < s.conf.binCount d.bin.toNat)

/-- Slot `(b, s)` of a descriptor is owned by an external agent. -/
def State.ownedExt (s : State) (d : Desc) : Bool :=
  decide (s.owner? d.bin.toNat d.slot.toNat = some .ext)

/-- `valid_ext(d)`: `valid_handle(d)`, `slot_owner[b][s] = EXT` and `len <= bin_size[b]` (R33). -/
def State.validExt (s : State) (d : Desc) : Bool :=
  s.validHandle d && s.ownedExt d && decide (d.len.toNat ≤ s.conf.binSize d.bin.toNat)

/-- The first index in `scan_order` with `q_cnt[q] > 0`, `none` when every sub-queue is empty (R146). -/
def State.nextQueue (s : State) : Option Nat :=
  s.conf.scanOrder.find? fun q => decide (0 < s.qCnt q)

end Sys2Proof.Machine
end

