-- ==== Sys2Proof/Machine/Flags.lean ====
section
/-! DEFINITION. The sticky flags (R52) and the registers that show the state: STATUS and the CSR file (R53 to R55). -/

namespace Sys2Proof.Machine

/-- Set `F_CHK` (R182). -/
def State.raiseChk (s : State) : State := { s with flags := { s.flags with chk := true } }

/-- Set `F_LEN` (R177). -/
def State.raiseLen (s : State) : State := { s with flags := { s.flags with len := true } }

/-- Set `F_NOBUF` (R178). -/
def State.raiseNoBuf (s : State) : State := { s with flags := { s.flags with noBuf := true } }

/-- Set `F_TXDROP` (R205). -/
def State.raiseTxDrop (s : State) : State := { s with flags := { s.flags with txDrop := true } }

/-- Set `F_DRVFAIL` (R206). -/
def State.raiseDrvFail (s : State) : State := { s with flags := { s.flags with drvFail := true } }

/-- Clear all five sticky flags (R236). -/
def State.clearSticky (s : State) : State := { s with flags := Sticky.none }

/-- A flag as one bit. -/
def bit (b : Bool) : BitVec 1 := BitVec.ofBool b

/-- `STATUS`, CSR 0x0000 (R54). -/
def State.statusReg (s : State) : Quad :=
  (0#8) ++ s.faultCode ++ (0#3) ++ bit s.flags.drvFail ++ bit s.flags.txDrop ++ bit s.flags.noBuf ++ bit s.flags.len ++
    bit s.flags.chk ++ (0#1) ++ s.rx.st.code ++ (0#1) ++ bit s.fatal ++ bit s.started ++ bit s.ready

/-- `RXPOS`, CSR 0x0001: `rx_cnt` in 15:0, `rx_len` in 31:16 (R53). -/
def State.rxPosReg (s : State) : Quad := BitVec.ofNat 16 s.rx.len ++ BitVec.ofNat 16 s.rx.cnt

/-- `CODECCFG`, CSR 0x0004 (R55). -/
def codecCfgReg (c : Cfg) : Quad :=
  BitVec.ofNat 16 c.maxPayload ++ (0#1) ++ bit (decide (c.chkAlg ≠ .sum)) ++ bit c.syncRetest ++ bit (decide (c.order = .little)) ++
    (0#1) ++ BitVec.ofNat 3 c.chkW ++ (0#1) ++ BitVec.ofNat 3 c.lenW ++ BitVec.ofNat 4 c.sync.length

/-- `SYNC0` and `SYNC1`, CSRs 0x0005 and 0x0006: `SYNC[from + i]` in bits `8i+7:8i`, 0 beyond the pattern (R53). -/
def syncReg (c : Cfg) (start : Nat) : Quad :=
  c.sync.getD (start + 3) 0 ++ c.sync.getD (start + 2) 0 ++ c.sync.getD (start + 1) 0 ++ c.sync.getD start 0

/-- `GEOM`, CSR 0x0007 (R53). -/
def geomReg (c : Cfg) : Quad :=
  (0#7) ++ BitVec.ofNat 9 c.groups.length ++ BitVec.ofNat 8 (c.queues.length - 1) ++ BitVec.ofNat 8 (c.bins.length - 1)

/-- `BINCFG[b]`: `bin_size` in 15:0, `bin_count` in 24:16 (R53). -/
def binCfgReg (k : BinCfg) : Quad := (0#7) ++ BitVec.ofNat 9 k.count ++ BitVec.ofNat 16 k.size

/-- `BINUSE[b]`: `in_use` in 15:0, the length of the free list in 31:16 (R53). -/
def State.binUseReg (s : State) (b : Nat) : Quad :=
  BitVec.ofNat 16 (s.freeList b).length ++ BitVec.ofNat 16 (s.inUse b)

/-- `QCFG[q]`: `q_prio` in 7:0, `q_depth` in 23:8 (R53). -/
def queueCfgReg (k : QueueCfg) : Quad := (0#8) ++ BitVec.ofNat 16 k.depth ++ BitVec.ofNat 8 k.prio

/-- The CSR table (R53): the value of the register with a given number, `none` for a number not in the table (R234). -/
def State.csr? (s : State) (csr : Half) : Option Quad :=
  let i := csr.toNat % 256
  match csr.toNat / 256 with
  | 0 =>
    match i with
    | 0 => some s.statusReg
    | 1 => some s.rxPosReg
    | 2 => some s.tickCnt
    | 3 => some s.faultInfo
    | 4 => some (codecCfgReg s.conf)
    | 5 => some (syncReg s.conf 0)
    | 6 => some (syncReg s.conf 4)
    | 7 => some (geomReg s.conf)
    | _ => none
  | 1 => s.conf.bins[i]?.map binCfgReg
  | 2 => if i < s.conf.bins.length then some (s.binUseReg i) else none
  | 3 => s.conf.queues[i]?.map queueCfgReg
  | 4 => if i < s.conf.queues.length then some ((0#16) ++ BitVec.ofNat 16 (s.qCnt i)) else none
  | 5 => s.conf.groups[i]?.map fun g => BitVec.ofNat 32 g.div
  | 6 => s.conf.groups[i]?.map fun g => (0#23) ++ BitVec.ofNat 9 g.ctx.length
  | _ => none

end Sys2Proof.Machine
end

