-- ==== Sys2Proof/Machine/Ops.lean ====
section
/-! DEFINITION. The named operations over the state: slot memory, the ports, responses, the fatal fault (the block's one
exception) and reset (the one return from it), the pool, the arbiter. -/

namespace Sys2Proof.Machine

/-! ## Slot memory (20_memory.md) -/

/-- The key of byte `(b, s, o)` (log 7): one number for each triple of R60 with `s < 256` and `o < 65536`. -/
def slotKey (b sl o : Nat) : Nat := b * 2 ^ 24 + sl * 2 ^ 16 + o

/-- The byte at a key, `none` where it is undefined: the one definition of what an unlisted key reads as (R28, log 6). -/
def Memory.read? : Memory → Nat → Option Byte
  | [], _ => none
  | (k, v) :: m, a => if k = a then some v else Memory.read? m a

/-- The memory with one byte written, its keys kept strictly rising (R62). -/
def Memory.write : Memory → Nat → Byte → Memory
  | [], a, v => [(a, v)]
  | (k, w) :: m, a, v =>
    if a < k then (a, v) :: (k, w) :: m
    else if a = k then (a, v) :: m
    else (k, w) :: Memory.write m a v

/-- The memory with the `n` keys from `lo` up undefined again. -/
def Memory.erase (m : Memory) (lo n : Nat) : Memory :=
  m.filter fun c => !(decide (lo ≤ c.1) && decide (c.1 < lo + n))

/-- The canonical form: keys strictly rising. No entry can equal what an unlisted key reads as, since that is no byte. -/
def Memory.wf (m : Memory) : Bool := decide (m.Pairwise fun a b => a.1 < b.1)

/-- `slot_mem[b][s][o]`: a byte, or `none` for undefined (R28). -/
def State.slotByte? (s : State) (b sl o : Nat) : Option Byte := Memory.read? s.mem (slotKey b sl o)

/-- `MemRead((b, s, o), 1)` (R62). An undefined byte reads as the free value of its slot's last allocation (U1, log 6). -/
def State.readByte (s : State) (b sl o : Nat) : Byte :=
  match s.slotByte? b sl o with
  | some v => v
  | none => Config.undefinedByte (s.fillOf b sl) o

/-- `[ MemRead((b, s, i), 1) | i = 0 .. n-1 ]`. -/
def State.readBytes (s : State) (b sl n : Nat) : List Byte := (List.range n).map fun i => s.readByte b sl i

/-- `MemWrite((b, s, o), 1, v)` (R62). -/
def State.writeByte (s : State) (b sl o : Nat) (v : Byte) : State :=
  { s with mem := Memory.write s.mem (slotKey b sl o) v }

/-- The bytes of a list written at keys from `a` upward. -/
def Memory.writeList : Memory → Nat → List Byte → Memory
  | m, _, [] => m
  | m, a, v :: l => Memory.writeList (Memory.write m a v) (a + 1) l

/-- `MemWrite((b, s, i), 1, F[i])` for every `i`, from offset 0 upward. -/
def State.writeBytes (s : State) (b sl : Nat) (l : List Byte) : State :=
  { s with mem := Memory.writeList s.mem (slotKey b sl 0) l }

/-! ## Ports and responses (30_encoding.md) -/

/-- The queue of one command port without its outstanding operation. -/
def dropHead (k : Nat) (l : List (List OpWord)) : List (List OpWord) := l.modify k List.tail

/-- The outstanding operation of a port is gone: executed, or discarded by reset. Its agent's next one is outstanding (R75, log 4). -/
def Env.drop (e : Env) : Port → Env
  | .cmd k => { e with cmd := dropHead k e.cmd }
  | .serRx => { e with ser := e.ser.tail }
  | .trdyIn => { e with trdy := e.trdy - 1 }
  | .tickIn => { e with tick := e.tick - 1 }
  | .rstIn => { e with rst := e.rst - 1 }

/-- The operation of the active port has completed. -/
def Env.retire (e : Env) : Env := e.drop e.active

/-- The driver's verdict on one `SUBMIT` (R207): the next one given, else a free value (log 5). -/
def Env.verdict (e : Env) : Bool :=
  match e.verdicts with
  | v :: _ => v
  | [] => Config.driverOk e.draws

/-- The ports after one verdict. -/
def Env.afterVerdict (e : Env) : Env :=
  match e.verdicts with
  | _ :: r => { e with verdicts := r }
  | [] => { e with draws := e.draws + 1 }

/-- `emit` (R50): events appended to the output history. -/
def State.emit (s : State) (evs : List Event) : State := { s with out := s.out ++ evs }

/-- The `RSP` event of an operation on port `p`: one on a command port, none on an event port (R92, R97). -/
def responseEvents (p : Port) (st : Status) (aux : Byte) (data : Quad) : List Event :=
  match p with
  | .cmd k => [.rsp k st aux data]
  | _ => []

/-- The state after `return (status, aux, data)`: the response given, the operation no longer outstanding (R92). -/
def State.complete (s : State) (st : Status) (aux : Byte) (data : Quad) : State :=
  { s with out := s.out ++ responseEvents s.env.active st aux data, env := s.env.retire }

/-- `return (status, aux, data)` (R11). -/
def State.respond (s : State) (st : Status) (aux : Byte) (data : Quad) : Result := .next (s.complete st aux data)

/-- An operation that is held has no step: no response, no event, no change; it stays outstanding (R149, R263, log 8). -/
def State.hold (s : State) : Result := .next s

/-! ## The fatal fault and the way out of it (60_exceptions.md) -/

/-- The state in which `Fatal(code, info)` leaves the block, before the response (R262): everything but `fatal`, `fault_code`,
`fault_info` and `out` as before the operation. -/
def State.halt (s : State) (st : Status) (d : Desc) : State :=
  { s with fatal := true, faultCode := st.code, faultInfo := d.pack, out := s.out ++ [.halt st.code d.pack] }

/-- TAKING THE EXCEPTION, `raise Fatal(code, info)` (R262): halt in place, then the response with the fault code. -/
def State.raiseFatal (s : State) (st : Status) (d : Desc) : Result := (s.halt st d).respond st 0 0

/-- "While `fatal = 1`: the only operations that execute are `RDCSR` and `RST`"; every other is held (R263). -/
def State.unlessHalted (s : State) (r : Result) : Result := if s.fatal then s.hold else r

/-! ## The pool (40_pool.md) -/

/-- The bins with bin `b` changed by `f`. -/
def State.modifyBin (s : State) (b : Nat) (f : Bin → Bin) : State := { s with pool := s.pool.modify b f }

/-- `slot_owner[b][s] <- o`. -/
def State.setOwner (s : State) (b sl : Nat) (o : Owner) : State :=
  s.modifyBin b fun B => { B with owner := B.owner.set sl o }

/-- A bin after its first free slot was taken, `rest` its other free slots (R123). -/
def Bin.take (B : Bin) (rest : List Nat) : Bin := { B with free := rest, inUse := B.inUse + 1 }

/-- The ports after a slot was taken: the next draw stands for the slot's undefined bytes (log 6). -/
def Env.drawFill (e : Env) (b sl : Nat) : Env :=
  { e with draws := e.draws + 1, fills := e.fills.modify b fun l => l.set sl e.draws }

/-- The state after `pool_take` took slot `sl` of bin `b`: the slot's bytes undefined, its owner still to be set (R123). -/
def State.takeSlot (s : State) (b sl : Nat) (rest : List Nat) : State :=
  { s with
    pool := s.pool.modify b fun B => B.take rest
    mem := Memory.erase s.mem (slotKey b sl 0) (s.conf.binSize b)
    env := s.env.drawFill b sl }

/-- `pool_take(n)`: the head of the free list of the best-fit bin, or `None` (R121, R123). -/
def State.poolTake (s : State) (n : Nat) : Option (Nat × Nat × State) :=
  match s.conf.bestBin n with
  | none => none
  | some b =>
    match s.freeList b with
    | [] => none
    | sl :: rest => some (b, sl, s.takeSlot b sl rest)

/-- A bin after its slot `sl` was given back, pushed at the head of the free list (R127). -/
def Bin.give (B : Bin) (sl : Nat) : Bin :=
  { B with free := sl :: B.free, inUse := B.inUse - 1, owner := B.owner.set sl .free }

/-- `pool_give(b, s)` (R127). -/
def State.poolGive (s : State) (b sl : Nat) : State := s.modifyBin b fun B => B.give sl

/-! ## The sub-queues (41_queue.md) -/

/-- `q_fifo[q] <- q_fifo[q] ++ [d]`, `q_cnt[q] <- q_cnt[q] + 1` (R142). -/
def State.pushQueue (s : State) (q : Nat) (d : Desc) : State :=
  { s with queues := s.queues.modify q fun Q => { Q with fifo := Q.fifo ++ [d], cnt := Q.cnt + 1 } }

/-- `q_fifo[q] <- tail(q_fifo[q])`, `q_cnt[q] <- q_cnt[q] - 1` (R146). -/
def State.popQueue (s : State) (q : Nat) : State :=
  { s with queues := s.queues.modify q fun Q => { Q with fifo := Q.fifo.tail, cnt := Q.cnt - 1 } }

/-! ## The Deframer (43_deframer.md) -/

/-- `rx_clear` (R46). -/
def State.rxClear (s : State) : State := { s with rx := Deframer.fresh }

/-! ## Outstanding operations and the arbiter (20_memory.md R70 to R77) -/

/-- The outstanding operation of a port, decoded; `none` when its agent has issued nothing (R75, R97). -/
def State.headOp (s : State) : Port → Option (Except DecodeError Instr)
  | .cmd k =>
    match s.env.cmd[k]? with
    | some (w :: _) => some (decode w)
    | _ => none
  | .serRx => s.env.ser.head?.map fun d => .ok (.rxb d)
  | .trdyIn => if s.env.trdy = 0 then none else some (.ok .trdy)
  | .tickIn => if s.env.tick = 0 then none else some (.ok .tick)
  | .rstIn => if s.env.rst = 0 then none else some (.ok .rst)

/-- An operation has a step: `RDCSR` and `RST` always; nothing else while `fatal = 1` (R263); `DEQ` only if some sub-queue is
non-empty (R149). -/
def State.enabledInstr (s : State) : Instr → Bool
  | .nop => !s.fatal
  | .alloc _ => !s.fatal
  | .release _ => !s.fatal
  | .bufwr _ _ _ => !s.fatal
  | .bufrd _ _ => !s.fatal
  | .enq _ _ => !s.fatal
  | .deq => !s.fatal && s.nextQueue.isSome
  | .frame _ => !s.fatal
  | .rxb _ => !s.fatal
  | .submit _ => !s.fatal
  | .trdy => !s.fatal
  | .start => !s.fatal
  | .tick => !s.fatal
  | .rdcsr _ => true
  | .clrsts => !s.fatal
  | .rst => true

/-- An outstanding operation has a step; the answer to an illegal word is one too, unless the block is halted (R94, R263). -/
def State.enabledOp (s : State) : Except DecodeError Instr → Bool
  | .ok i => s.enabledInstr i
  | .error _ => !s.fatal

/-- The port has an outstanding operation with a step. -/
def State.enabledPort (s : State) (p : Port) : Bool :=
  match s.headOp p with
  | some o => s.enabledOp o
  | none => false

/-- The port has an outstanding operation without a step: a held operation (R16). -/
def State.heldPort (s : State) (p : Port) : Bool :=
  match s.headOp p with
  | some o => !s.enabledOp o
  | none => false

/-- The ports of R97. -/
def State.ports (s : State) : List Port :=
  (List.range s.env.cmd.length).map Port.cmd ++ [.serRx, .trdyIn, .tickIn, .rstIn]

/-- The arbiter's choice among `n` enabled operations: the next one given, else forced if there is only one, else a free value (R72,
log 3). -/
def Env.choice (e : Env) (n : Nat) : Nat :=
  match e.turns with
  | t :: _ => t % n
  | [] => if n ≤ 1 then 0 else Config.arbiter e.draws % n

/-- The ports after one choice among `n`, the operation of port `p` now executing. -/
def Env.afterChoice (e : Env) (n : Nat) (p : Port) : Env :=
  match e.turns with
  | _ :: r => { e with turns := r, active := p }
  | [] => if n ≤ 1 then { e with active := p } else { e with draws := e.draws + 1, active := p }

/-- The arbiter (R72): one of the ports whose operation has a step, and the state in which it executes; `none` when there is none. -/
def State.grant (s : State) : Option (Port × State) :=
  match s.ports.filter s.enabledPort with
  | [] => none
  | p :: ps =>
    let n := ps.length + 1
    let q := (p :: ps).getD (s.env.choice n) p
    some (q, { s with env := s.env.afterChoice n q })

/-! ## Reset (70_reset_and_hazards.md) -/

/-- Discard the operation of every port in the list that is held in `s` (R283). -/
def State.dropHeld (s : State) (e : Env) : List Port → Env
  | [] => e
  | p :: ps => s.dropHeld (if s.heldPort p && decide (p ≠ s.env.active) then e.drop p else e) ps

/-- THE RETURN FROM THE EXCEPTION, reset (R238, R264, R280, R283): every element of the block but `out` at its reset value, held
operations discarded without response. The configuration and what the agents have yet to issue stay. -/
def State.resetBlock (s : State) : State :=
  { State.powerOn s.cfg with out := s.out, env := s.dropHeld s.env s.ports }

end Sys2Proof.Machine
end

