-- ==== Sys2Proof/Machine/Deframer.lean ====
section
/-! DEFINITION. The Deframer operation RXB and its state machine (43_deframer.md). -/

namespace Sys2Proof.Machine

/-- `seek(d)` in `SEEKING_SYNC` (R173), with the re-test of R174 where `SYNC_RETEST` asks for it. -/
def State.rxSeek (s : State) (d : Byte) : State :=
  if s.conf.sync[s.rx.cnt]? = some d then
    if s.rx.cnt + 1 = s.conf.sync.length then
      { s with rx := { s.rx with st := .readingLength, scr := s.rx.scr ++ [d], cnt := 0 } }
    else { s with rx := { s.rx with scr := s.rx.scr ++ [d], cnt := s.rx.cnt + 1 } }
  else if s.conf.syncRetest && decide (0 < s.rx.cnt) && decide (s.conf.sync[0]? = some d) then
    { s with rx := { s.rx with scr := [d], cnt := 1 } }
  else { s with rx := { s.rx with scr := [], cnt := 0 } }

/-- The length bytes `rx_scr[N .. N+LEN_W-1]` (R175). -/
def State.lengthBytes (s : State) : List Byte := (s.rx.scr.drop s.conf.sync.length).take s.conf.lenW

/-- The Deframer once it holds slot `(b, sl)` for a payload of `len` bytes: `READING_CHECKSUM` if there are none (R175, R179). -/
def Deframer.accept (r : Deframer) (b sl len : Nat) : Deframer :=
  { r with st := if len = 0 then .readingChecksum else .readingPayload, cnt := 0, len := len, buf := some (b, sl) }

/-- The last length byte has arrived in `s` (R175): drop the frame for its length (R177) or for want of a buffer (R178), or take the
buffer. -/
def State.rxLengthDone (s : State) : State :=
  let len := s.conf.dec s.lengthBytes
  if s.conf.maxPayload < len then s.raiseLen.rxClear
  else
    match s.poolTake len with
    | none => s.raiseNoBuf.rxClear
    | some (b, sl, s') =>
      let s'' := s'.setOwner b sl .rxd
      { s'' with rx := s''.rx.accept b sl len }

/-- `rdlen(d)` in `READING_LENGTH` (R175). -/
def State.rxLength (s : State) (d : Byte) : State :=
  let s' := { s with rx := { s.rx with scr := s.rx.scr ++ [d], cnt := s.rx.cnt + 1 } }
  if s'.rx.cnt = s'.conf.lenW then s'.rxLengthDone else s'

/-- `rdpay(d)` in `READING_PAYLOAD` with buffer `(b, sl)` (R180). -/
def State.rxPayload (s : State) (b sl : Nat) (d : Byte) : State :=
  let s' := s.writeByte b sl s.rx.cnt d
  if s.rx.cnt + 1 = s.rx.len then { s' with rx := { s.rx with st := .readingChecksum, cnt := 0 } }
  else { s' with rx := { s.rx with cnt := s.rx.cnt + 1 } }

/-- A frame whose checksum matches is handed over (R181, R183): `DISPATCH_READY` is entered, and left by `rx_clear` in the same
operation. -/
def State.rxDispatch (s : State) (b sl : Nat) (payload : List Byte) : State :=
  let ready := { s with rx := { s.rx with st := .dispatchReady } }
  ((ready.setOwner b sl .ext).emit [.dispatch (mkDesc b sl s.rx.len) payload]).rxClear

/-- The last checksum byte has arrived in `s` (R181): compare, then discard (R182) or dispatch (R183). -/
def State.rxChecksumDone (s : State) (b sl : Nat) : State :=
  let payload := s.readBytes b sl s.rx.len
  if s.conf.chk (s.lengthBytes ++ payload) = s.rx.chk then s.rxDispatch b sl payload
  else (s.raiseChk.poolGive b sl).rxClear

/-- `rdchk(d)` in `READING_CHECKSUM` with buffer `(b, sl)` (R181). -/
def State.rxChecksum (s : State) (b sl : Nat) (d : Byte) : State :=
  let s' := { s with rx := { s.rx with chk := s.rx.chk ++ [d], cnt := s.rx.cnt + 1 } }
  if s'.rx.cnt = s'.conf.chkW then s'.rxChecksumDone b sl else s'

/-- `RXB byte` (R172): one step of the state machine, response `(OK, 0, 0)` always (R171). -/
def execRxb (d : Byte) (s : State) : Result :=
  s.unlessHalted <|
    match s.rx.st, s.rx.buf with
    | .seekingSync, _ => (s.rxSeek d).respond .ok 0 0
    | .readingLength, _ => (s.rxLength d).respond .ok 0 0
    | .readingPayload, some (b, sl) =>
      if s.rx.cnt < s.conf.binSize b then (s.rxPayload b sl d).respond .ok 0 0 else .fault .slotAddressOutOfRange
    | .readingChecksum, some (b, sl) => (s.rxChecksum b sl d).respond .ok 0 0
    | .readingPayload, none => .fault .deframerHoldsNoBuffer
    | .readingChecksum, none => .fault .deframerHoldsNoBuffer
    | .dispatchReady, _ => .fault .dispatchReadyBetweenOperations

end Sys2Proof.Machine
end

