-- ==== Sys2Proof/Machine/Framer.lean ====
section
/-! DEFINITION. The Framer operation FRAME (42_framer.md). -/

namespace Sys2Proof.Machine

/-- The state after a successful `FRAME` took slot `(b2, s2)`, `s'` being the state after `pool_take`: the frame of the first
`len` bytes of the input stored, the input slot given back (R157). -/
def State.storeFrame (s' : State) (d : Desc) (b2 s2 : Nat) : State :=
  let payload := s'.readBytes d.bin.toNat d.slot.toNat d.len.toNat
  ((s'.setOwner b2 s2 .ext).writeBytes b2 s2 (s'.conf.frameOf payload)).poolGive d.bin.toNat d.slot.toNat

/-- `FRAME b.s:len` (R157), its tests in the order of R265. -/
def execFrame (d : Desc) (s : State) : Result :=
  s.unlessHalted <|
    if s.validExt d then
      if s.conf.maxPayload < d.len.toNat then s.respond .payloadTooLarge 0 0
      else
        match s.poolTake (s.conf.frameSize d.len.toNat) with
        | none => s.respond .poolExhausted 0 0
        | some (b2, s2, s') =>
          (s'.storeFrame d b2 s2).respond .ok 0 (mkDesc b2 s2 (s.conf.frameSize d.len.toNat)).pack
    else s.raiseFatal .invalidBuffer d

end Sys2Proof.Machine
end

