-- ==== Sys2Proof/Machine/Pool.lean ====
section
/-! DEFINITION. The BufferPool operations ALLOC, RELEASE, BUFWR, BUFRD (40_pool.md). -/

namespace Sys2Proof.Machine

/-- `ALLOC size` (R122). -/
def execAlloc (size : Half) (s : State) : Result :=
  s.unlessHalted <|
    match s.poolTake size.toNat with
    | none => s.respond .poolExhausted 0 0
    | some (b, sl, s') => (s'.setOwner b sl .ext).respond .ok 0 (mkDesc b sl size.toNat).pack

/-- `RELEASE b.s` (R126); `len` is ignored. -/
def execRelease (d : Desc) (s : State) : Result :=
  s.unlessHalted <|
    if s.validHandle d && s.ownedExt d then (s.poolGive d.bin.toNat d.slot.toNat).respond .ok 0 0
    else s.raiseFatal .invalidRelease d

/-- The test of `BUFWR` and `BUFRD`: `valid_ext(d)` and `off < bin_size[d.bin]`, the slot's capacity and not `d.len` (R130, R131). -/
def State.validAccess (s : State) (off : Half) (d : Desc) : Bool :=
  s.validExt d && decide (off.toNat < s.conf.binSize d.bin.toNat)

/-- `BUFWR b.s:len, off, byte` (R130, R131). -/
def execBufwr (data : Byte) (off : Half) (d : Desc) (s : State) : Result :=
  s.unlessHalted <|
    if s.validAccess off d then (s.writeByte d.bin.toNat d.slot.toNat off.toNat data).respond .ok 0 0
    else s.raiseFatal .invalidBuffer d

/-- `BUFRD b.s:len, off` (R133, R131). -/
def execBufrd (off : Half) (d : Desc) (s : State) : Result :=
  s.unlessHalted <|
    if s.validAccess off d then s.respond .ok (s.readByte d.bin.toNat d.slot.toNat off.toNat) 0
    else s.raiseFatal .invalidBuffer d

end Sys2Proof.Machine
end

