-- ==== Sys2Proof/Machine/Queue.lean ====
section
/-! DEFINITION. The PriorityDispatchQueue operations ENQ, DEQ (41_queue.md). -/

namespace Sys2Proof.Machine

/-- `ENQ prio, b.s:len` (R142), its tests in the order of R265. -/
def execEnq (prio : Byte) (d : Desc) (s : State) : Result :=
  s.unlessHalted <|
    if s.validExt d then
      match s.conf.qidx prio.toNat with
      | none => s.respond .badPriority 0 0
      | some q =>
        if s.conf.qDepth q ≤ s.qCnt q then s.respond .queueFull 0 0
        else ((s.pushQueue q d).setOwner d.bin.toNat d.slot.toNat .queue).respond .ok 0 0
    else s.raiseFatal .invalidBuffer d

/-- `DEQ` (R146): one descriptor of the first non-empty sub-queue in scan order, its priority in `AUX`; held when every
sub-queue is empty (R149). -/
def execDeq (s : State) : Result :=
  s.unlessHalted <|
    match s.nextQueue with
    | none => s.hold
    | some q =>
      match s.qFifo q with
      | [] => .fault .queueCountDisagrees
      | d :: _ =>
        ((s.popQueue q).setOwner d.bin.toNat d.slot.toNat .ext).respond .ok (BitVec.ofNat 8 (s.conf.qPrio q)) d.pack

end Sys2Proof.Machine
end

