-- ==== Sys2Proof/Machine/Scheduler.lean ====
section
/-! DEFINITION. The RateScheduler operations START, TICK (45_tick.md). -/

namespace Sys2Proof.Machine

/-- `START` (R217). -/
def execStart (s : State) : Result :=
  s.unlessHalted <| State.respond { s with started := true } .ok 0 0

/-- The events of consumers `i`, `i + 1`, ... of group `g`, in registration order (R219, R223). -/
def groupEvents (g i : Nat) : List Quad → List Event
  | [] => []
  | ctx :: r => .act g i ctx :: groupEvents g (i + 1) r

/-- The activations at count `n` of the groups `g`, `g + 1`, ...: every group whose divisor divides the count, ascending (R219, R223). -/
def activationsFrom (n g : Nat) : List GroupCfg → List Event
  | [] => []
  | k :: r => (if n % k.div = 0 then groupEvents g 0 k.ctx else []) ++ activationsFrom n (g + 1) r

/-- The activations of the tick that makes the count `n`: none at count 0 (R220, R221). -/
def activations (c : Cfg) (n : Nat) : List Event := if n = 0 then [] else activationsFrom n 0 c.groups

/-- `TICK` (R219): the counter is incremented first, modulo `2^32`, and tested after (R220, R221). -/
def execTick (s : State) : Result :=
  s.unlessHalted <|
    if s.started then
      (State.emit { s with tickCnt := s.tickCnt + 1 } (activations s.conf (s.tickCnt + 1).toNat)).respond .ok 0 0
    else s.respond .notStarted 0 0

end Sys2Proof.Machine
end

