-- ==== Sys2Proof/Machine/System.lean ====
section
/-! DEFINITION. The system operations NOP, RDCSR, CLRSTS, RST (46_system.md), and the answer to an illegal word (R94). -/

namespace Sys2Proof.Machine

/-- `NOP` (R231). -/
def execNop (s : State) : Result := s.unlessHalted <| s.respond .ok 0 0

/-- `RDCSR csr` (R233, R234); accepted after a fatal fault too (R263). -/
def execRdcsr (csr : Half) (s : State) : Result :=
  match s.csr? csr with
  | some v => s.respond .ok 0 v
  | none => s.respond .badCsr 0 0

/-- `CLRSTS` (R236). -/
def execClrsts (s : State) : Result := s.unlessHalted <| s.clearSticky.respond .ok 0 0

/-- `RST` (R238); accepted in every state. -/
def execRst (s : State) : Result := s.resetBlock.respond .ok 0 0

/-- An operation word that decodes to no operation: `(E_BAD_COMMAND, 0, 0)` and no state change (R94, R254). -/
def execIllegal (s : State) : Result := s.unlessHalted <| s.respond .badCommand 0 0

end Sys2Proof.Machine
end

