-- ==== Sys2Proof/Machine/Transport.lean ====
section
/-! DEFINITION. The TransportAdapter operations TRDY, SUBMIT (44_transport.md). -/

namespace Sys2Proof.Machine

/-- `TRDY` (R202). -/
def execTrdy (s : State) : Result :=
  s.unlessHalted <| State.respond { s with ready := true } .ok 0 0

/-- `SUBMIT` while `ready = 0` (R204, R205): the buffer is dropped and goes back to the pool. -/
def State.dropSubmit (s : State) (d : Desc) : State := s.raiseTxDrop.poolGive d.bin.toNat d.slot.toNat

/-- `SUBMIT` while `ready = 1` (R204): the bytes are offered to the driver, which gives its verdict, and the buffer goes back to the
pool whatever it is. -/
def State.offer (s : State) (d : Desc) : State :=
  let sent := (s.emit [.txData (s.readBytes d.bin.toNat d.slot.toNat d.len.toNat)]).poolGive d.bin.toNat d.slot.toNat
  { sent with env := s.env.afterVerdict }

/-- `SUBMIT b.s:len` (R204), its tests in the order of R265. -/
def execSubmit (d : Desc) (s : State) : Result :=
  s.unlessHalted <|
    if s.validExt d then
      if s.ready then
        if s.env.verdict then (s.offer d).respond .ok 0 0
        else (s.offer d).raiseDrvFail.respond .driverFailure 0 0
      else (s.dropSubmit d).respond .transportNotReady 0 0
    else s.raiseFatal .invalidBuffer d

end Sys2Proof.Machine
end

