-- ==== Sys2Proof/Machine/Dispatch.lean ====
section
/-! DEFINITION. The meaning of each operation, one arm per constructor of `Instr` (R88). -/

namespace Sys2Proof.Machine

def exec (i : Instr) (s : State) : Host.Outcome State Fault Refusal :=
  match i with
  | .nop => Sys2Proof.Machine.execNop s
  | .alloc size => Sys2Proof.Machine.execAlloc size s
  | .release d => Sys2Proof.Machine.execRelease d s
  | .bufwr data off d => Sys2Proof.Machine.execBufwr data off d s
  | .bufrd off d => Sys2Proof.Machine.execBufrd off d s
  | .enq prio d => Sys2Proof.Machine.execEnq prio d s
  | .deq => Sys2Proof.Machine.execDeq s
  | .frame d => Sys2Proof.Machine.execFrame d s
  | .rxb data => Sys2Proof.Machine.execRxb data s
  | .submit d => Sys2Proof.Machine.execSubmit d s
  | .trdy => Sys2Proof.Machine.execTrdy s
  | .start => Sys2Proof.Machine.execStart s
  | .tick => Sys2Proof.Machine.execTick s
  | .rdcsr csr => Sys2Proof.Machine.execRdcsr csr s
  | .clrsts => Sys2Proof.Machine.execClrsts s
  | .rst => Sys2Proof.Machine.execRst s

end Sys2Proof.Machine
end

