-- ==== Sys2Proof/Machine/Step.lean ====
section
/-! DEFINITION. One step: the arbiter picks a pending operation that has a step and the block executes it (R70 to R72). -/

namespace Sys2Proof.Machine

/-- One step. With no enabled operation pending the block waits: nothing changes (R59, R280, log 8). Otherwise the picked
operation executes, an illegal word being answered as R94 says. -/
def step (s : State) : Host.Outcome State Fault Refusal :=
  match s.grant with
  | none => .next s
  | some (p, s') =>
    match s.headOp p with
    | some (.ok i) => exec i s'
    | some (.error _) => execIllegal s'
    | none => .next s

/-- `s` with the operation word of `nbits` bits outstanding on command port 0 and the arbiter's next choice set to the first
enabled port, which is that one when the operation has a step (log 2). -/
def State.withFetchWord (s : State) (nbits w : Nat) : State :=
  let word : OpWord := BitVec.ofNat 64 (w % 2 ^ nbits)
  { s with
    env :=
      { s.env with
        cmd := (word :: s.env.cmd.headD []) :: s.env.cmd.tail
        turns := 0 :: s.env.turns } }

end Sys2Proof.Machine
end

