-- ==== Sys2Proof/Machine/Pseudo.lean ====
section
/-! DEFINITION. The pseudo-operations of R112, `frame` and `deframe` of R113. Each stands for real operations of one agent, here executed
with no other agent's operation between them (log 13). -/

namespace Sys2Proof.Machine

/-- `RXS b0 b1 ...`: a received chunk (R112). -/
def rxs (bytes : List Byte) : List Instr := bytes.map Instr.rxb

/-- The `BUFWR`s of `FILL` from offset `off` (R112). -/
def fillFrom (d : Desc) : Nat → List Byte → List Instr
  | _, [] => []
  | off, b :: l => .bufwr b (BitVec.ofNat 16 off) d :: fillFrom d (off + 1) l

/-- `FILL b.s:len, b0 b1 ...` (R112). -/
def fill (d : Desc) (bytes : List Byte) : List Instr := fillFrom d 0 bytes

/-- `DUMP b.s:len` (R112). -/
def dump (d : Desc) : List Instr := (List.range d.len.toNat).map fun i => .bufrd (BitVec.ofNat 16 i) d

/-- `TICKS n` (R112). -/
def ticks (n : Nat) : List Instr := List.replicate n .tick

/-- Operations of one agent executed one after another, up to the first that stops the model. An agent has one operation outstanding
(R75), so at a held one the sequence waits: what comes after it is not issued. -/
def runOps : List Instr → State → Result
  | [], s => .next s
  | i :: l, s =>
    if s.enabledOp (.ok i) then
      match exec i s with
      | .next s' => runOps l s'
      | r => r
    else s.hold

/-- The response to the operation that took `s` to `t`, the last event it emitted (R92): `none` where it emitted none, being held or on
an event port. -/
def State.answer (s t : State) : Option (Status × Byte × Quad) :=
  match (t.out.drop s.out.length).getLast? with
  | some (.rsp _ st aux data) => some (st, aux, data)
  | _ => none

/-- An operation answered `OK`: the AUX and DATA of its own response, and the state after; `none` where it is held, is answered anything
else, is answered nowhere, or stops the model. -/
def performOk (i : Instr) (s : State) : Option (Byte × Quad × State) :=
  match exec i s with
  | .next t =>
    match s.answer t with
    | some (.ok, aux, data) => some (aux, data, t)
    | _ => none
  | _ => none

/-- Operations each answered `OK`, one after another: the AUX of every response, and the state after the last. -/
def performAll : List Instr → State → Option (List Byte × State)
  | [], s => some ([], s)
  | i :: l, s =>
    match performOk i s with
    | none => none
    | some (aux, _, s') => (performAll l s').map fun r => (aux :: r.1, r.2)

/-- One operation of `DRAIN`: go on with the descriptor of its `OK` response; "stops at the first response that is not `OK`" (R112), and
where it is held. -/
def thenOk (i : Instr) (s : State) (k : Desc → State → Result) : Result :=
  match exec i s with
  | .next t =>
    match s.answer t with
    | some (.ok, _, data) => k (Desc.unpack data) t
    | _ => .next t
  | r => r

/-- `DRAIN`: `DEQ -> d; FRAME d -> f; SUBMIT f` (R112, R212), by the agent of the active command port. -/
def drain (s : State) : Result :=
  thenOk .deq s fun d s1 => thenOk (.frame d) s1 fun f s2 => exec (.submit f) s2

/-- `frame(payload)`: `ALLOC |payload|`, `FILL`, `FRAME`, `DUMP` (R113), by the agent of the active command port; the bytes dumped and the
state after. `none` for a payload longer than a size can say, and where one of the operations is held (a halted block), is not answered
`OK`, or stops the model. -/
def frame (payload : List Byte) (s : State) : Option (List Byte × State) :=
  if payload.length < 2 ^ 16 then
    match performOk (.alloc (BitVec.ofNat 16 payload.length)) s with
    | none => none
    | some (_, d, s1) =>
      match performAll (fill (Desc.unpack d) payload) s1 with
      | none => none
      | some (_, s2) =>
        match performOk (.frame (Desc.unpack d)) s2 with
        | none => none
        | some (_, f, s3) => performAll (dump (Desc.unpack f)) s3
  else none

/-- The payloads of the `DISPATCH` events of a list, in order. -/
def dispatched : List Event → List (List Byte)
  | [] => []
  | .dispatch _ payload :: l => payload :: dispatched l
  | _ :: l => dispatched l

/-- `deframe(bytes)`: `RXS` of the bytes, then the payloads dispatched by it (R113). `none` while the block is halted, which holds every
`RXB` (R263), and where an `RXB` stops the model. -/
def deframe (bytes : List Byte) (s : State) : Option (List (List Byte)) :=
  if s.fatal then none
  else
    match runOps (rxs bytes) s with
    | .next t => some (dispatched (t.out.drop s.out.length))
    | _ => none

end Sys2Proof.Machine
end

