-- ==== Sys2Proof/Safety.lean ====
section
/-! DEFINITION. The invariants the spec gives the block (R27, R35, R36, R39 to R44), in the form that bounds every quantifier so
that they can be evaluated, and what counts as a safe state. -/

namespace Sys2Proof.Machine

/-- The pool invariant of one bin (R27): `in_use + |free_list| = bin_count`; a slot is on the free list exactly when its owner is
`FREE`; no slot twice. -/
abbrev Bin.Ok (count : Nat) (B : Bin) : Prop :=
  B.owner.length = count ∧ B.inUse + B.free.length = count ∧ B.free.Nodup ∧
    (∀ sl ∈ B.free, B.owner[sl]? = some .free) ∧ (∀ sl < count, B.owner[sl]? = some .free → sl ∈ B.free)

/-- The pool invariant, for every bin of the configuration (R23, R27). -/
abbrev State.PoolInv (s : State) : Prop :=
  s.pool.length = s.conf.bins.length ∧ ∀ b, (h : b < s.pool.length) → Bin.Ok (s.conf.binCount b) s.pool[b]

/-- The handles of all queued descriptors, sub-queue by sub-queue. -/
def State.queued (s : State) : List (Nat × Nat) := s.queues.flatMap fun Q => Q.fifo.map Desc.handle

/-- The queue invariants: `q_cnt[q] = |q_fifo[q]|` and `q_cnt[q] <= q_depth[q]` (R35); a queued descriptor's length is within its
slot (R33); a slot is queued exactly once exactly when its owner is `QUEUE` (R36). -/
abbrev State.QueueInv (s : State) : Prop :=
  s.queues.length = s.conf.queues.length ∧
    (∀ q, (h : q < s.queues.length) →
      s.queues[q].cnt = s.queues[q].fifo.length ∧ s.queues[q].cnt ≤ s.conf.qDepth q ∧
        ∀ d ∈ s.queues[q].fifo, d.len.toNat ≤ s.conf.binSize d.bin.toNat) ∧
    s.queued.Nodup ∧ (∀ h ∈ s.queued, s.owner? h.1 h.2 = some .queue) ∧
    ∀ b < s.conf.bins.length, ∀ sl < s.conf.binCount b, s.owner? b sl = some .queue → (b, sl) ∈ s.queued

/-- The header of a frame whose length is known: `rx_scr = SYNC ++ lb` with `|lb| = LEN_W` and `dec(lb) = rx_len` (R41). -/
abbrev State.HeaderOk (s : State) : Prop :=
  s.rx.scr = s.conf.sync ++ s.lengthBytes ∧ s.lengthBytes.length = s.conf.lenW ∧ s.conf.dec s.lengthBytes = s.rx.len

/-- The Deframer holds slot `h` for the frame being received (R43), and the first `n` bytes of it have been stored (R180). -/
abbrev State.Holds (s : State) (h : Nat × Nat) (n : Nat) : Prop :=
  s.owner? h.1 h.2 = some .rxd ∧ s.rx.len ≤ s.conf.binSize h.1 ∧ ∀ o < n, s.slotByte? h.1 h.2 o ≠ none

/-- Nothing of a payload is known yet (R42 to R44). -/
abbrev State.NoPayload (s : State) : Prop := s.rx.len = 0 ∧ s.rx.buf = none ∧ s.rx.chk = []

/-- The invariants of `SEEKING_SYNC` (R40 to R44). -/
abbrev State.SeekInv (s : State) : Prop :=
  s.rx.cnt < s.conf.sync.length ∧ s.rx.scr = s.conf.sync.take s.rx.cnt ∧ s.NoPayload

/-- The invariants of `READING_LENGTH` (R40 to R44). -/
abbrev State.LengthInv (s : State) : Prop :=
  s.rx.cnt < s.conf.lenW ∧ s.rx.scr = s.conf.sync ++ s.lengthBytes ∧ s.lengthBytes.length = s.rx.cnt ∧ s.NoPayload

/-- The invariants of `READING_PAYLOAD` (R40 to R44). -/
abbrev State.PayloadInv (s : State) : Prop :=
  s.rx.cnt < s.rx.len ∧ s.HeaderOk ∧ s.rx.chk = [] ∧ s.rx.buf ≠ none ∧ ∀ h ∈ s.rx.buf, s.Holds h s.rx.cnt

/-- The invariants of `READING_CHECKSUM` (R40 to R44). -/
abbrev State.ChecksumInv (s : State) : Prop :=
  s.rx.cnt < s.conf.chkW ∧ s.HeaderOk ∧ s.rx.chk.length = s.rx.cnt ∧ s.rx.buf ≠ none ∧ ∀ h ∈ s.rx.buf, s.Holds h s.rx.len

/-- The deframer invariants between operations: those of its state, which is never `DISPATCH_READY` (R39), and no slot but `rx_buf` has
owner `RXD` (R43). -/
abbrev State.DeframerInv (s : State) : Prop :=
  s.rx.st ≠ .dispatchReady ∧ s.rx.len ≤ s.conf.maxPayload ∧
    (s.rx.st = .seekingSync → s.SeekInv) ∧ (s.rx.st = .readingLength → s.LengthInv) ∧
    (s.rx.st = .readingPayload → s.PayloadInv) ∧ (s.rx.st = .readingChecksum → s.ChecksumInv) ∧
    ∀ b < s.conf.bins.length, ∀ sl < s.conf.binCount b, s.owner? b sl = some .rxd → s.rx.buf = some (b, sl)

/-- The cause of a halt is recorded exactly while the block is halted (R51, R246). -/
abbrev State.HaltInv (s : State) : Prop :=
  (s.fatal = false → s.faultCode = 0 ∧ s.faultInfo = 0) ∧
    (s.fatal = true → s.faultCode = Status.code .invalidRelease ∨ s.faultCode = Status.code .invalidBuffer)

/-- Everything that holds after reset and after every operation: the invariants above, slot memory in canonical form, `NPORT` command
ports. -/
abbrev State.Inv (s : State) : Prop :=
  s.PoolInv ∧ s.QueueInv ∧ s.DeframerInv ∧ s.HaltInv ∧ Memory.wf s.mem = true ∧ s.env.cmd.length = s.conf.nport

/-- A safe state: the invariants hold and the block is not halted. "A model must not treat the halted block as an ordinary final
state: it is a fault state" (R263, log 8). -/
abbrev State.Safe (s : State) : Prop := s.Inv ∧ s.fatal = false

/-- A run of `n` steps that ends in a safe state, no step of it stopping the model. -/
def SafeRun (n : Nat) (s : State) : Prop := ∃ t, Sys2Proof.core.run n s = .next t ∧ State.Safe t

end Sys2Proof.Machine
end

