-- ==== Sys2Proof/Certificates/Slice0/Obligations.lean ====
section
/-! DEFINITION. The statements for the provers. Each says which rules it formalises. In a conclusion, `t = { s with f := t.f, … }` is the
frame: every element of the state but the ones named is unchanged, slot memory and the configuration among them; the elements named
are then described. `responseEvents s.env.active st aux data` is the response of R92 on a command port and nothing on an event port
(R97), and `s.env.retire` are the ports with the executing operation no longer outstanding. What a statement says of `env` is the model's own
view of the agents' side of the ports (log 4), `draws` its counter of free values and
`fills` the draws that stand for undefined bytes (logs 3, 5, 6). -/

open Sys2Proof Sys2Proof.Machine

/-! ## Encodings (30_encoding.md) -/

/-- Decoding the canonical word of any operation gives the operation back (R85 to R90, R96). -/
def Obligations.DecodeReturnsEncodedOperation : Prop := ∀ i : Instr, decode (encode i) = .ok i

/-- "every 64-bit word decodes either to one operation of rule R88 or to illegal": the operation code alone decides (R87, R94). -/
def Obligations.DecodeIsTotalByOpcode : Prop := ∀ w : OpWord,
  if opcOf w ∈ [0x00#8, 0x01#8, 0x02#8, 0x03#8, 0x04#8, 0x10#8, 0x11#8, 0x20#8, 0x28#8, 0x30#8, 0x31#8, 0x40#8, 0x41#8, 0x50#8, 0x51#8, 0x7F#8]
  then ∃ i, decode w = .ok i ∧ opcOf (encode i) = opcOf w
  else decode w = .error (.illegalOpcode (opcOf w))

/-- Two words with the same operation code that agree on the fields its format reads are the same operation: every other field is
ignored (R86, R95). -/
def Obligations.DecodeIgnoresUnreadFields : Prop := ∀ w w' : OpWord,
  opcOf w = opcOf w' →
  (opcOf w ∈ [0x03#8, 0x10#8, 0x28#8] → auxOf w = auxOf w') →
  (opcOf w ∈ [0x01#8, 0x03#8, 0x04#8, 0x50#8] → immOf w = immOf w') →
  (opcOf w ∈ [0x02#8, 0x03#8, 0x04#8, 0x10#8, 0x20#8, 0x30#8] → descFieldOf w = descFieldOf w') →
  decode w = decode w'

/-- The encoding examples of R114, words and responses, and words printed elsewhere beside an operation. -/
def Obligations.PrintedWordsDecode : Prop :=
  decode 0x100100000001000A#64 = .ok (.enq 1 ⟨0, 1, 10⟩) ∧ decode 0x0100004000000000#64 = .ok (.alloc 64) ∧
    decode 0x28AA000000000000#64 = .ok (.rxb 0xAA) ∧ decode 0x037E00030100000E#64 = .ok (.bufwr 0x7E 3 ⟨1, 0, 14⟩) ∧
    decode 0x1100000000000000#64 = .ok .deq ∧ decode 0x5000010200000000#64 = .ok (.rdcsr 0x0102) ∧
    decode 0x300000000001000E#64 = .ok (.submit ⟨0, 1, 14⟩) ∧ decode 0xFF12345678ABCDEF#64 = .error (.illegalOpcode 0xFF) ∧
    responseWord .ok 0 (mkDesc 0 1 10).pack = 0x000000000001000A#64 ∧ responseWord .poolExhausted 0 0 = 0x0100000000000000#64

/-- The descriptor packing of R90: bin in 31:24, slot in 23:16, len in 15:0, and nothing is lost. -/
def Obligations.DescriptorPacking : Prop := ∀ d : Desc,
  d.pack.toNat = d.bin.toNat * 2 ^ 24 + d.slot.toNat * 2 ^ 16 + d.len.toNat ∧ Desc.unpack d.pack = d

/-- The fields of the response word (R92): STATUS 63:56, AUX 55:48, 0 in 47:32, DATA 31:0; and the number of every status and fault code
(R246), bit 7 set exactly in the fatal ones. -/
def Obligations.ResponseWordFields : Prop :=
  [Status.ok, .poolExhausted, .queueFull, .payloadTooLarge, .transportNotReady, .driverFailure, .badPriority, .notStarted, .badCommand,
      .badCsr, .invalidRelease, .invalidBuffer].map Status.code =
    [0x00, 0x01, 0x02, 0x03, 0x04, 0x05, 0x06, 0x07, 0x08, 0x09, 0x80, 0x81] ∧
  (∀ st : Status, st.code.getLsbD 7 = true ↔ st = .invalidRelease ∨ st = .invalidBuffer) ∧
  ∀ (st : Status) (aux : Byte) (data : Quad),
  (responseWord st aux data).extractLsb' 56 8 = st.code ∧ (responseWord st aux data).extractLsb' 48 8 = aux ∧
    (responseWord st aux data).extractLsb' 32 16 = 0 ∧ (responseWord st aux data).extractLsb' 0 32 = data

/-- `enc` gives `W` bytes, byte `i` of `big` being bits `8(W-1-i)+7` down and of `little` bits `8i+7` down (R104); `dec` is the
positional value in the same order, and each inverts the other (R105); the checksum has `CHK_W` bytes (R106), and `SUM` is the sum of the
bytes modulo `2^(8*CHK_W)`, encoded (R107). -/
def Obligations.EncDecAndSumChecksum : Prop := ∀ c : Cfg,
  (∀ v w, v < 2 ^ (8 * w) →
    (c.enc v w).length = w ∧ c.dec (c.enc v w) = v ∧
      ∀ i < w, (c.enc v w)[i]?.map BitVec.toNat = some (v / 256 ^ (if c.order = .big then w - 1 - i else i) % 256)) ∧
  (∀ l, c.enc (c.dec l) l.length = l ∧
    c.dec l = (l.zipIdx.map fun bi => bi.1.toNat * 256 ^ (if c.order = .big then l.length - 1 - bi.2 else bi.2)).sum) ∧
  ∀ l, (c.chk l).length = c.chkW ∧
    (c.chkAlg = .sum → c.chk l = c.enc ((l.map BitVec.toNat).sum % 2 ^ (8 * c.chkW)) c.chkW)

/-! ## Steps, ports, the arbiter (20_memory.md) -/

/-- A STEP RUNS THE DECODED OPERATION: where the arbiter grants port `p` and its outstanding operation is `i`, the step is `exec i` in the
state with the choice consumed and `p` active; on a command port the outstanding operation is the decoded head word, a byte `d` on
`SER_RX` is `RXB d`, a pulse on `TRDY_IN`, `TICK_IN`, `RST_IN` is `TRDY`, `TICK`, `RST` (R70, R75, R97). How the ports and the choice are held in `env` is the model's own (logs 3, 4). -/
def Obligations.StepExecutesGrantedOperation : Prop :=
  (∀ s : State,
    (∀ k w r, s.env.cmd[k]? = some (w :: r) → s.headOp (.cmd k) = some (decode w)) ∧
      (∀ k, s.env.cmd[k]? = some [] ∨ s.env.cmd[k]? = none → s.headOp (.cmd k) = none) ∧
      (∀ d r, s.env.ser = d :: r → s.headOp .serRx = some (.ok (.rxb d))) ∧ (s.env.ser = [] → s.headOp .serRx = none) ∧
      (0 < s.env.trdy → s.headOp .trdyIn = some (.ok .trdy)) ∧ (s.env.trdy = 0 → s.headOp .trdyIn = none) ∧
      (0 < s.env.tick → s.headOp .tickIn = some (.ok .tick)) ∧ (s.env.tick = 0 → s.headOp .tickIn = none) ∧
      (0 < s.env.rst → s.headOp .rstIn = some (.ok .rst)) ∧ (s.env.rst = 0 → s.headOp .rstIn = none)) ∧
  ∀ (s s' : State) (p : Port) (i : Instr),
  s.grant = some (p, s') → s.headOp p = some (.ok i) →
  step s = exec i s' ∧ s'.env.active = p ∧
    s' = { s with env := { s.env with active := p, turns := s'.env.turns, draws := s'.env.draws } } ∧
    ∀ k w r, p = .cmd k → s.env.cmd[k]? = some (w :: r) → decode w = .ok i

/-- Which operations have a step: `RST` and `RDCSR` always, every other and an illegal word exactly while `fatal = 0`, `DEQ` if moreover some
sub-queue is non-empty (R94, R149, R263). The arbiter grants a port of the block whose outstanding operation has one, and none only if
there is none (R72). -/
def Obligations.GrantGoesToEnabledPort : Prop := ∀ s : State,
  (∀ i : Instr, s.enabledOp (.ok i) = true ↔
    i = .rst ∨ (∃ csr, i = .rdcsr csr) ∨
      (s.fatal = false ∧ (i = .deq → ∃ q < s.conf.queues.length, 0 < s.qCnt q))) ∧
  (∀ e : DecodeError, s.enabledOp (.error e) = true ↔ s.fatal = false) ∧
  (∀ p : Port, s.enabledPort p = true ↔ ∃ o, s.headOp p = some o ∧ s.enabledOp o = true) ∧
  match s.grant with
  | some (p, _) => p ∈ s.ports ∧ s.enabledPort p = true
  | none => ∀ p ∈ s.ports, s.enabledPort p = false

/-- "the block may execute any one of them whose step is enabled": some decision of the open arbiter grants any enabled port (R72, U3). That a decision is a number in `turns` is the model's own (log 3). -/
def Obligations.AnyEnabledPortMayGoNext : Prop := ∀ (s : State) (p : Port),
  p ∈ s.ports → s.enabledPort p = true →
  ∃ n s', State.grant { s with env := { s.env with turns := n :: s.env.turns } } = some (p, s')

/-- With no enabled operation pending nothing happens: held operations wait, the block does nothing on its own (R149, R263, R280). That
the model's step then answers the same state, where the spec has no step, is the model's choice (log 8). -/
def Obligations.StepWaitsWhenNothingEnabled : Prop := ∀ s : State, (∀ p ∈ s.ports, s.enabledPort p = false) → step s = .next s

/-- An illegal word on a command port is answered `(E_BAD_COMMAND, 0, 0)` and changes no state of the block (R94, R254). What
becomes of the agents' later operations is the model's own view (log 4). -/
def Obligations.IllegalWordAnswered : Prop := ∀ (s s' : State) (k : Nat) (w : OpWord) (r : List OpWord) (e : DecodeError),
  s.fatal = false → s.grant = some (.cmd k, s') → s.env.cmd[k]? = some (w :: r) → decode w = .error e →
  ∃ t, step s = .next t ∧ t = { s with out := s.out ++ [.rsp k .badCommand 0 0], env := t.env } ∧ t.env.cmd[k]? = some r ∧
    (∀ j, j ≠ k → t.env.cmd[j]? = s.env.cmd[j]?) ∧ t.env.ser = s.env.ser ∧ t.env.trdy = s.env.trdy ∧ t.env.tick = s.env.tick ∧
    t.env.rst = s.env.rst

/-- The end of an operation: a command port gets the response and its word is no longer outstanding; an event port gets no response and
its event is no longer waiting (R92, R97). That the agent's next operation is outstanding at once is the model's choice (log 4). -/
def Obligations.CompletionAnswersAndRetires : Prop := ∀ (s : State) (st : Status) (aux : Byte) (data : Quad),
  (∀ k w r, s.env.active = .cmd k → s.env.cmd[k]? = some (w :: r) →
    (s.complete st aux data).out = s.out ++ [.rsp k st aux data] ∧ (s.complete st aux data).env.cmd[k]? = some r ∧
      ∀ j, j ≠ k → (s.complete st aux data).env.cmd[j]? = s.env.cmd[j]?) ∧
    (∀ d r, s.env.active = .serRx → s.env.ser = d :: r →
      (s.complete st aux data).out = s.out ∧ (s.complete st aux data).env = { s.env with ser := r }) ∧
    (∀ n, s.env.active = .tickIn → s.env.tick = n + 1 →
      (s.complete st aux data).out = s.out ∧ (s.complete st aux data).env = { s.env with tick := n }) ∧
    (∀ n, s.env.active = .trdyIn → s.env.trdy = n + 1 →
      (s.complete st aux data).out = s.out ∧ (s.complete st aux data).env = { s.env with trdy := n }) ∧
    ∀ n, s.env.active = .rstIn → s.env.rst = n + 1 →
      (s.complete st aux data).out = s.out ∧ (s.complete st aux data).env = { s.env with rst := n }

/-- While `fatal = 1` every operation but `RDCSR` and `RST` is held: no step, no response, no event, no change (R263). That a held
operation is a next state equal to the state before is the model's choice (log 8). -/
def Obligations.HaltedBlockHoldsOperations : Prop := ∀ (i : Instr) (s : State),
  s.fatal = true → i ≠ .rst → (∀ csr, i ≠ .rdcsr csr) → exec i s = .next s ∧ s.enabledOp (.ok i) = false

/-! ## Reset (70_reset_and_hazards.md) -/

/-- The reset table of R280 for every configuration, slot memory undefined everywhere. -/
def Obligations.PowerOnValues : Prop := ∀ c : WfCfg,
  let s := State.powerOn c
  (∀ b k, c.val.bins[b]? = some k →
    s.freeList b = List.range k.count ∧ s.inUse b = 0 ∧ ∀ sl < k.count, s.owner? b sl = some .free) ∧
    (∀ b sl o, s.slotByte? b sl o = none) ∧ (∀ q < c.val.queues.length, s.queues[q]? = some ⟨[], 0⟩) ∧
    s.rx.st = .seekingSync ∧ s.rx.cnt = 0 ∧ s.rx.scr = [] ∧ s.rx.len = 0 ∧ s.rx.buf = none ∧ s.rx.chk = [] ∧
    s.ready = false ∧ s.started = false ∧ s.tickCnt = 0 ∧ s.fatal = false ∧ s.faultCode = 0 ∧ s.faultInfo = 0 ∧
    s.flags = ⟨false, false, false, false, false⟩ ∧ s.out = [] ∧ s.cfg = c

/-- The CSR values after reset in REFCFG (R281). -/
def Obligations.ResetCsrValues : Prop :=
  State.reset.csr? 0x0000 = some 0 ∧ State.reset.csr? 0x0001 = some 0 ∧ State.reset.csr? 0x0002 = some 0 ∧
    State.reset.csr? 0x0003 = some 0 ∧ State.reset.csr? 0x0004 = some 0x003C0112 ∧ State.reset.csr? 0x0005 = some 0x000055AA ∧
    State.reset.csr? 0x0006 = some 0 ∧ State.reset.csr? 0x0007 = some 0x00020101 ∧ State.reset.csr? 0x0100 = some 0x00020010 ∧
    State.reset.csr? 0x0101 = some 0x00020040 ∧ State.reset.csr? 0x0200 = some 0x00020000 ∧
    State.reset.csr? 0x0201 = some 0x00020000 ∧ State.reset.csr? 0x0300 = some 0x00000200 ∧
    State.reset.csr? 0x0301 = some 0x00000201 ∧ State.reset.csr? 0x0400 = some 0 ∧ State.reset.csr? 0x0401 = some 0 ∧
    State.reset.csr? 0x0500 = some 1 ∧ State.reset.csr? 0x0501 = some 2 ∧ State.reset.csr? 0x0600 = some 1 ∧
    State.reset.csr? 0x0601 = some 1

/-- "Reset establishes every invariant" (R282): power-on, for every configuration, and `RST` from any state (the number of command ports,
which no operation changes, given). -/
def Obligations.ResetEstablishesInvariants : Prop :=
  (∀ c : WfCfg, (State.powerOn c).Inv) ∧ State.reset.Inv ∧
    ∀ s : State, s.env.cmd.length = s.conf.nport → ∃ t, exec .rst s = .next t ∧ t.Inv

/-- `RST` from any state, halted or not, on any port: every element but `out` at its power-on value, the configuration kept, the response
of a command port appended to `out` (R238, R240, R241); the outstanding operation of every port that was held is discarded, every other
port keeps its own (R283). That what an agent has yet to issue is not discarded is the model's choice (log 4). -/
def Obligations.RstRestoresPowerOnState : Prop := ∀ s : State,
  ∃ t, exec .rst s = .next t ∧
    t = { State.powerOn s.cfg with out := s.out ++ responseEvents s.env.active .ok 0 0, env := t.env } ∧
    (∀ k, t.env.cmd[k]? = if s.env.active = .cmd k ∨ s.heldPort (.cmd k) then s.env.cmd[k]?.map List.tail else s.env.cmd[k]?) ∧
    t.env.ser = (if s.env.active = .serRx ∨ s.heldPort .serRx then s.env.ser.tail else s.env.ser) ∧
    t.env.trdy = (if s.env.active = .trdyIn ∨ s.heldPort .trdyIn then s.env.trdy - 1 else s.env.trdy) ∧
    t.env.tick = (if s.env.active = .tickIn ∨ s.heldPort .tickIn then s.env.tick - 1 else s.env.tick) ∧
    t.env.rst = if s.env.active = .rstIn then s.env.rst - 1 else s.env.rst

/-! ## The pool (40_pool.md) -/

/-- `ALLOC` takes the head of the free list of the smallest bin that fits, gives it to an external agent with its bytes undefined, and
changes no other slot, bin or byte (R120 to R124, R28). -/
def Obligations.AllocTakesBestFitSlot : Prop := ∀ (s : State) (size : Half) (b sl : Nat) (rest : List Nat) (k : BinCfg),
  s.fatal = false → s.PoolInv → s.conf.bins[b]? = some k → size.toNat ≤ k.size →
  (∀ b' < b, ∀ k', s.conf.bins[b']? = some k' → k'.size < size.toNat) → s.freeList b = sl :: rest →
  ∃ t, exec (.alloc size) s = .next t ∧ t = { s with pool := t.pool, mem := t.mem, out := t.out, env := t.env } ∧
    t.owner? b sl = some .ext ∧ t.freeList b = rest ∧ t.inUse b = s.inUse b + 1 ∧
    (∀ b' sl', (b', sl') ≠ (b, sl) → t.owner? b' sl' = s.owner? b' sl') ∧
    (∀ b', b' ≠ b → t.freeList b' = s.freeList b' ∧ t.inUse b' = s.inUse b') ∧
    (∀ o < k.size, t.slotByte? b sl o = none) ∧
    (∀ b' sl' o, sl' < 256 → o < 65536 → (b', sl') ≠ (b, sl) → t.slotByte? b' sl' o = s.slotByte? b' sl' o) ∧
    t.out = s.out ++ responseEvents s.env.active .ok 0 (mkDesc b sl size.toNat).pack ∧
    t.env = { s.env.retire with draws := t.env.draws, fills := t.env.fills }

/-- `ALLOC` fails with `E_POOL_EXHAUSTED` and no state change when no bin is large enough or the best-fit bin has no free slot, whatever
larger bins hold (R121, R122, R247). -/
def Obligations.AllocNeverBorrows : Prop := ∀ (s : State) (size : Half),
  s.fatal = false →
  (∀ b k, s.conf.bins[b]? = some k → size.toNat ≤ k.size →
    (∀ b' < b, ∀ k', s.conf.bins[b']? = some k' → k'.size < size.toNat) → s.freeList b = []) →
  exec (.alloc size) s =
    .next { s with out := s.out ++ responseEvents s.env.active .poolExhausted 0 0, env := s.env.retire }

/-- `RELEASE` of a buffer an external agent owns frees its slot and pushes it at the head of its bin's free list, whatever the
descriptor's length (R126 to R128). -/
def Obligations.ReleaseReturnsSlot : Prop := ∀ (s : State) (d : Desc) (B : Bin),
  s.fatal = false → d.bin.toNat < s.conf.bins.length → d.slot.toNat < s.conf.binCount d.bin.toNat →
  s.pool[d.bin.toNat]? = some B → B.owner[d.slot.toNat]? = some .ext →
  ∃ t, exec (.release d) s = .next t ∧ t = { s with pool := t.pool, out := t.out, env := t.env } ∧
    t.owner? d.bin.toNat d.slot.toNat = some .free ∧ t.freeList d.bin.toNat = d.slot.toNat :: B.free ∧
    t.inUse d.bin.toNat = B.inUse - 1 ∧
    (∀ b sl, (b, sl) ≠ d.handle → t.owner? b sl = s.owner? b sl) ∧
    (∀ b, b ≠ d.bin.toNat → t.freeList b = s.freeList b ∧ t.inUse b = s.inUse b) ∧
    t.out = s.out ++ responseEvents s.env.active .ok 0 0 ∧ t.env = s.env.retire

/-- `RELEASE` of a handle out of range or of a slot no external agent owns halts the block with `F_INVALID_RELEASE`, all state but the
fault registers and `out` as before (R126, R258, R262). -/
def Obligations.BadReleaseHalts : Prop := ∀ (s : State) (d : Desc),
  s.fatal = false →
  (s.conf.bins.length ≤ d.bin.toNat ∨ s.conf.binCount d.bin.toNat ≤ d.slot.toNat ∨ s.owner? d.bin.toNat d.slot.toNat ≠ some .ext) →
  exec (.release d) s =
    .next { s with
      fatal := true, faultCode := 0x80, faultInfo := d.pack,
      out := s.out ++ [.halt 0x80 d.pack] ++ responseEvents s.env.active .invalidRelease 0 0, env := s.env.retire }

/-- `BUFWR` stores one byte at an offset below the slot's capacity and changes nothing else but `out` (R130, R132, R134). -/
def Obligations.BufwrStoresOneByte : Prop := ∀ (s : State) (data : Byte) (off : Half) (d : Desc),
  s.fatal = false → s.validExt d = true → off.toNat < s.conf.binSize d.bin.toNat →
  ∃ t, exec (.bufwr data off d) s = .next t ∧
    t = { s with mem := t.mem, out := s.out ++ responseEvents s.env.active .ok 0 0, env := s.env.retire } ∧
    ∀ b sl o, sl < 256 → o < 65536 →
      t.slotByte? b sl o = if (b, sl) = d.handle ∧ o = off.toNat then some data else s.slotByte? b sl o

/-- `BUFRD` answers the byte at an offset below the slot's capacity and changes nothing but `out`; only where the byte is undefined is
the answer open (R133, R69, R28). -/
def Obligations.BufrdReadsOneByte : Prop := ∀ (s : State) (off : Half) (d : Desc),
  s.fatal = false → s.validExt d = true → off.toNat < s.conf.binSize d.bin.toNat →
  ∃ v : Byte,
    exec (.bufrd off d) s =
      .next { s with out := s.out ++ responseEvents s.env.active .ok v 0, env := s.env.retire } ∧
    ∀ x, s.slotByte? d.bin.toNat d.slot.toNat off.toNat = some x → v = x

/-- `BUFWR`, `BUFRD`, `ENQ`, `FRAME` and `SUBMIT` of a descriptor that is not `valid_ext`, and `BUFWR` and `BUFRD` beyond the slot's capacity,
halt the block with `F_INVALID_BUFFER` before any other test (R131, R259, R262, R265). -/
def Obligations.InvalidBufferHalts : Prop := ∀ (s : State) (d : Desc) (i : Instr),
  s.fatal = false →
  ((s.conf.bins.length ≤ d.bin.toNat ∨ s.conf.binCount d.bin.toNat ≤ d.slot.toNat ∨ s.owner? d.bin.toNat d.slot.toNat ≠ some .ext ∨
      s.conf.binSize d.bin.toNat < d.len.toNat) ∧
      ((∃ data off, i = .bufwr data off d) ∨ (∃ off, i = .bufrd off d) ∨ (∃ prio, i = .enq prio d) ∨ i = .frame d ∨ i = .submit d) ∨
    ∃ off : Half, s.conf.binSize d.bin.toNat ≤ off.toNat ∧ ((∃ data, i = .bufwr data off d) ∨ i = .bufrd off d)) →
  exec i s =
    .next { s with
      fatal := true, faultCode := 0x81, faultInfo := d.pack,
      out := s.out ++ [.halt 0x81 d.pack] ++ responseEvents s.env.active .invalidBuffer 0 0, env := s.env.retire }

/-! ## The queue (41_queue.md) -/

/-- `ENQ` appends the descriptor at the tail of the sub-queue that serves the priority and moves the slot's owner from `EXT` to `QUEUE`;
pool counts do not change (R142, R143, R145). -/
def Obligations.EnqAppendsAtTail : Prop := ∀ (s : State) (prio : Byte) (d : Desc) (q : Nat) (k : QueueCfg) (Q : SubQueue),
  s.fatal = false → s.validExt d = true → s.conf.queues[q]? = some k → k.prio = prio.toNat → s.queues[q]? = some Q →
  Q.cnt < k.depth →
  ∃ t, exec (.enq prio d) s = .next t ∧ t = { s with pool := t.pool, queues := t.queues, out := t.out, env := t.env } ∧
    t.queues[q]? = some ⟨Q.fifo ++ [d], Q.cnt + 1⟩ ∧ (∀ j, j ≠ q → t.queues[j]? = s.queues[j]?) ∧
    t.owner? d.bin.toNat d.slot.toNat = some .queue ∧ (∀ b sl, (b, sl) ≠ d.handle → t.owner? b sl = s.owner? b sl) ∧
    (∀ b, t.freeList b = s.freeList b ∧ t.inUse b = s.inUse b) ∧
    t.out = s.out ++ responseEvents s.env.active .ok 0 0 ∧ t.env = s.env.retire

/-- `ENQ` with a priority no sub-queue serves, or to a full sub-queue, changes nothing: the caller keeps the buffer, queued entries stay
(R142, R248, R252). -/
def Obligations.EnqRejectsWithoutChange : Prop := ∀ (s : State) (prio : Byte) (d : Desc),
  s.fatal = false → s.validExt d = true →
  Status.code .badPriority = 0x06 ∧ Status.code .queueFull = 0x02 ∧ ((∀ k ∈ s.conf.queues, k.prio ≠ prio.toNat) →
    exec (.enq prio d) s =
      .next { s with out := s.out ++ responseEvents s.env.active .badPriority 0 0, env := s.env.retire }) ∧
    ∀ q k, s.conf.queues[q]? = some k → k.prio = prio.toNat → k.depth ≤ s.qCnt q →
      exec (.enq prio d) s =
        .next { s with out := s.out ++ responseEvents s.env.active .queueFull 0 0, env := s.env.retire }

/-- `DEQ` removes the oldest descriptor of the non-empty sub-queue of highest priority and hands its slot to the caller (R146, R147, R74). -/
def Obligations.DeqServesHighestPriority : Prop := ∀ (s : State) (q : Nat) (k : QueueCfg) (d : Desc) (rest : List Desc) (n : Nat),
  s.fatal = false → s.conf.queues[q]? = some k → s.queues[q]? = some ⟨d :: rest, n + 1⟩ →
  (∀ j k', s.conf.queues[j]? = some k' → k'.prio < k.prio → s.qCnt j = 0) → s.owner? d.bin.toNat d.slot.toNat = some .queue →
  ∃ t, exec .deq s = .next t ∧ t = { s with pool := t.pool, queues := t.queues, out := t.out, env := t.env } ∧
    t.queues[q]? = some ⟨rest, n⟩ ∧ (∀ j, j ≠ q → t.queues[j]? = s.queues[j]?) ∧
    t.owner? d.bin.toNat d.slot.toNat = some .ext ∧ (∀ b sl, (b, sl) ≠ d.handle → t.owner? b sl = s.owner? b sl) ∧
    (∀ b, t.freeList b = s.freeList b ∧ t.inUse b = s.inUse b) ∧
    t.out = s.out ++ responseEvents s.env.active .ok (BitVec.ofNat 8 k.prio) d.pack ∧ t.env = s.env.retire

/-- `DEQ` with every sub-queue empty is held: it has no step (R149); in the model a next state equal to the state before (its choice,
log 8). -/
def Obligations.DeqHeldWhileEmpty : Prop := ∀ s : State,
  (∀ q, s.qCnt q = 0) → exec .deq s = .next s ∧ s.enabledOp (.ok .deq) = false

/-! ## The Framer (42_framer.md) -/

/-- `FRAME` takes a slot for the frame, stores `SYNC ++ enc(L) ++ P ++ CHK(enc(L) ++ P)` at its offsets from 0, and gives the input slot
back; the payload is the input's bytes, open only where they are undefined (R157, R100, R102, R166). That the new slot
then holds the drawn values as defined bytes, under a checksum that agrees with them, is the model's choice (log 6). -/
def Obligations.FrameBuildsFrame : Prop :=
  ∀ (s : State) (d : Desc) (b2 s2 : Nat) (rest : List Nat) (k : BinCfg),
  s.fatal = false → s.PoolInv → s.validExt d = true → d.len.toNat ≤ s.conf.maxPayload →
  s.conf.bins[b2]? = some k → s.conf.sync.length + s.conf.lenW + d.len.toNat + s.conf.chkW ≤ k.size →
  (∀ b' < b2, ∀ k', s.conf.bins[b']? = some k' → k'.size < s.conf.sync.length + s.conf.lenW + d.len.toNat + s.conf.chkW) →
  s.freeList b2 = s2 :: rest →
  ∃ (t : State) (payload frame : List Byte),
    exec (.frame d) s = .next t ∧ t = { s with pool := t.pool, mem := t.mem, out := t.out, env := t.env } ∧
    payload.length = d.len.toNat ∧
    (∀ i v, i < d.len.toNat → s.slotByte? d.bin.toNat d.slot.toNat i = some v → payload[i]? = some v) ∧
    frame = s.conf.sync ++ s.conf.enc d.len.toNat s.conf.lenW ++ payload ++
      s.conf.chk (s.conf.enc d.len.toNat s.conf.lenW ++ payload) ∧
    frame.length = s.conf.sync.length + s.conf.lenW + d.len.toNat + s.conf.chkW ∧
    (∀ o < k.size, t.slotByte? b2 s2 o = frame[o]?) ∧
    (∀ b sl o, sl < 256 → o < 65536 → (b, sl) ≠ (b2, s2) → t.slotByte? b sl o = s.slotByte? b sl o) ∧
    t.owner? b2 s2 = some .ext ∧ t.owner? d.bin.toNat d.slot.toNat = some .free ∧
    (∀ b sl, (b, sl) ≠ (b2, s2) → (b, sl) ≠ d.handle → t.owner? b sl = s.owner? b sl) ∧
    t.freeList d.bin.toNat = d.slot.toNat :: (if d.bin.toNat = b2 then rest else s.freeList d.bin.toNat) ∧
    (d.bin.toNat ≠ b2 →
      t.freeList b2 = rest ∧ t.inUse b2 = s.inUse b2 + 1 ∧ t.inUse d.bin.toNat = s.inUse d.bin.toNat - 1) ∧
    (d.bin.toNat = b2 → t.inUse b2 = s.inUse b2) ∧
    (∀ b, b ≠ b2 → b ≠ d.bin.toNat → t.freeList b = s.freeList b ∧ t.inUse b = s.inUse b) ∧
    t.out = s.out ++ responseEvents s.env.active .ok 0 (mkDesc b2 s2 frame.length).pack ∧
    t.env = { s.env.retire with draws := t.env.draws, fills := t.env.fills }

/-- `FRAME` of a payload above `MAX_PAYLOAD`, or with no free slot in the best-fit bin of the frame, changes nothing: the caller keeps its
buffer (R157, R159, R249, R247); the length is tested first (R265). -/
def Obligations.FrameRejectsWithoutChange : Prop := ∀ (s : State) (d : Desc),
  s.fatal = false → s.validExt d = true →
  Status.code .payloadTooLarge = 0x03 ∧ (s.conf.maxPayload < d.len.toNat →
    exec (.frame d) s =
      .next { s with out := s.out ++ responseEvents s.env.active .payloadTooLarge 0 0, env := s.env.retire }) ∧
    (d.len.toNat ≤ s.conf.maxPayload →
      (∀ b k, s.conf.bins[b]? = some k → s.conf.sync.length + s.conf.lenW + d.len.toNat + s.conf.chkW ≤ k.size →
        (∀ b' < b, ∀ k', s.conf.bins[b']? = some k' →
          k'.size < s.conf.sync.length + s.conf.lenW + d.len.toNat + s.conf.chkW) → s.freeList b = []) →
      exec (.frame d) s =
        .next { s with out := s.out ++ responseEvents s.env.active .poolExhausted 0 0, env := s.env.retire })

/-! ## The Deframer (43_deframer.md), the rows of the transition table R186 -/

/-- `SEEKING_SYNC`: a byte is compared with the next sync byte; a mismatch clears the scratch buffer, or starts a new match where
`SYNC_RETEST` says so (R173, R174, R186). -/
def Obligations.RxbSeeksSync : Prop := ∀ (s : State) (d x : Byte),
  s.fatal = false → s.rx.st = .seekingSync → s.conf.sync[s.rx.cnt]? = some x →
  ∃ t, exec (.rxb d) s = .next t ∧
    t = { s with rx := t.rx, out := s.out ++ responseEvents s.env.active .ok 0 0, env := s.env.retire } ∧
    (d = x → s.rx.cnt + 1 < s.conf.sync.length → t.rx = { s.rx with cnt := s.rx.cnt + 1, scr := s.rx.scr ++ [d] }) ∧
    (d = x → s.rx.cnt + 1 = s.conf.sync.length →
      t.rx = { s.rx with st := .readingLength, cnt := 0, scr := s.rx.scr ++ [d] }) ∧
    (d ≠ x → s.conf.syncRetest = true → 0 < s.rx.cnt → s.conf.sync[0]? = some d → t.rx = { s.rx with cnt := 1, scr := [d] }) ∧
    (d ≠ x → ¬(s.conf.syncRetest = true ∧ 0 < s.rx.cnt ∧ s.conf.sync[0]? = some d) →
      t.rx = { s.rx with cnt := 0, scr := [] })

/-- `READING_LENGTH` and `READING_CHECKSUM`, a byte that is not the last of its field: it is appended and counted (R175, R181, R186). -/
def Obligations.RxbCollectsFieldBytes : Prop := ∀ (s : State) (d : Byte),
  s.fatal = false →
  (s.rx.st = .readingLength → s.rx.cnt + 1 < s.conf.lenW →
    exec (.rxb d) s =
      .next { s with
        rx := { s.rx with cnt := s.rx.cnt + 1, scr := s.rx.scr ++ [d] }
        out := s.out ++ responseEvents s.env.active .ok 0 0, env := s.env.retire }) ∧
    (s.rx.st = .readingChecksum → s.rx.buf ≠ none → s.rx.cnt + 1 < s.conf.chkW →
      exec (.rxb d) s =
        .next { s with
          rx := { s.rx with cnt := s.rx.cnt + 1, chk := s.rx.chk ++ [d] }
          out := s.out ++ responseEvents s.env.active .ok 0 0, env := s.env.retire })

/-- The last length byte of a length above `MAX_PAYLOAD`, or one for which the pool has no slot: the frame is dropped with `F_LEN` or
`F_NOBUF`, the pool untouched, the length tested first (R175 to R178, R265). -/
def Obligations.RxbDropsFrameAtLength : Prop := ∀ (s : State) (d : Byte) (len : Nat),
  s.fatal = false → s.rx.st = .readingLength → s.rx.cnt + 1 = s.conf.lenW →
  s.conf.dec (((s.rx.scr ++ [d]).drop s.conf.sync.length).take s.conf.lenW) = len →
  (s.conf.maxPayload < len →
    exec (.rxb d) s =
      .next { s with
        rx := ⟨.seekingSync, 0, [], 0, none, []⟩, flags := { s.flags with len := true }
        out := s.out ++ responseEvents s.env.active .ok 0 0, env := s.env.retire }) ∧
    (len ≤ s.conf.maxPayload →
      (∀ b k, s.conf.bins[b]? = some k → len ≤ k.size →
        (∀ b' < b, ∀ k', s.conf.bins[b']? = some k' → k'.size < len) → s.freeList b = []) →
      exec (.rxb d) s =
        .next { s with
          rx := ⟨.seekingSync, 0, [], 0, none, []⟩, flags := { s.flags with noBuf := true }
          out := s.out ++ responseEvents s.env.active .ok 0 0, env := s.env.retire })

/-- The last length byte of a valid length: a slot of the best-fit bin is taken for the Deframer, its bytes undefined, and the state is
`READING_PAYLOAD`, or `READING_CHECKSUM` for a length of 0 (R175, R178, R179). -/
def Obligations.RxbTakesBufferAtLength : Prop :=
  ∀ (s : State) (d : Byte) (len b sl : Nat) (rest : List Nat) (k : BinCfg),
  s.fatal = false → s.PoolInv → s.rx.st = .readingLength → s.rx.cnt + 1 = s.conf.lenW →
  s.conf.dec (((s.rx.scr ++ [d]).drop s.conf.sync.length).take s.conf.lenW) = len → len ≤ s.conf.maxPayload →
  s.conf.bins[b]? = some k → len ≤ k.size → (∀ b' < b, ∀ k', s.conf.bins[b']? = some k' → k'.size < len) →
  s.freeList b = sl :: rest →
  ∃ t, exec (.rxb d) s = .next t ∧ t = { s with pool := t.pool, mem := t.mem, rx := t.rx, out := t.out, env := t.env } ∧
    t.rx = { s.rx with
      st := if len = 0 then .readingChecksum else .readingPayload, cnt := 0, scr := s.rx.scr ++ [d], len := len, buf := some (b, sl) } ∧
    t.owner? b sl = some .rxd ∧ t.freeList b = rest ∧ t.inUse b = s.inUse b + 1 ∧
    (∀ b' sl', (b', sl') ≠ (b, sl) → t.owner? b' sl' = s.owner? b' sl') ∧
    (∀ b', b' ≠ b → t.freeList b' = s.freeList b' ∧ t.inUse b' = s.inUse b') ∧
    (∀ o < k.size, t.slotByte? b sl o = none) ∧
    (∀ b' sl' o, sl' < 256 → o < 65536 → (b', sl') ≠ (b, sl) → t.slotByte? b' sl' o = s.slotByte? b' sl' o) ∧
    t.out = s.out ++ responseEvents s.env.active .ok 0 0 ∧ t.env = { s.env.retire with draws := t.env.draws, fills := t.env.fills }

/-- `READING_PAYLOAD`: payload byte `i` is stored at offset `i` of the buffer, and the last one leads to `READING_CHECKSUM` (R180, R63). -/
def Obligations.RxbStoresPayloadByte : Prop := ∀ (s : State) (d : Byte) (b sl : Nat),
  s.fatal = false → s.rx.st = .readingPayload → s.rx.buf = some (b, sl) → sl < 256 → s.rx.cnt < s.conf.binSize b →
  ∃ t, exec (.rxb d) s = .next t ∧
    t = { s with mem := t.mem, rx := t.rx, out := s.out ++ responseEvents s.env.active .ok 0 0, env := s.env.retire } ∧
    (∀ b' sl' o, sl' < 256 → o < 65536 →
      t.slotByte? b' sl' o = if b' = b ∧ sl' = sl ∧ o = s.rx.cnt then some d else s.slotByte? b' sl' o) ∧
    (s.rx.cnt + 1 ≠ s.rx.len → t.rx = { s.rx with cnt := s.rx.cnt + 1 }) ∧
    (s.rx.cnt + 1 = s.rx.len → t.rx = { s.rx with st := .readingChecksum, cnt := 0 })

/-- The last checksum byte against a stored payload `P`: on a match `P` is dispatched and its slot given to the sink; on a mismatch `F_CHK`
is set and the slot goes back to the pool; either way the Deframer is in `SEEKING_SYNC` with everything empty (R181 to R183, R185). -/
def Obligations.RxbChecksChecksum : Prop := ∀ (s : State) (d : Byte) (b sl : Nat) (B : Bin) (P : List Byte),
  s.fatal = false → s.rx.st = .readingChecksum → s.rx.buf = some (b, sl) → s.rx.cnt + 1 = s.conf.chkW →
  s.pool[b]? = some B → sl < B.owner.length → P.length = s.rx.len → (∀ i < s.rx.len, s.slotByte? b sl i = P[i]?) →
  ∃ t, exec (.rxb d) s = .next t ∧
    t = { s with
      pool := t.pool, rx := ⟨.seekingSync, 0, [], 0, none, []⟩, flags := t.flags, out := t.out, env := s.env.retire } ∧
    (∀ b' sl', (b', sl') ≠ (b, sl) → t.owner? b' sl' = s.owner? b' sl') ∧
    (∀ b', b' ≠ b → t.freeList b' = s.freeList b' ∧ t.inUse b' = s.inUse b') ∧
    (s.conf.chk ((s.rx.scr.drop s.conf.sync.length).take s.conf.lenW ++ P) = s.rx.chk ++ [d] →
      t.owner? b sl = some .ext ∧ t.freeList b = B.free ∧ t.inUse b = B.inUse ∧ t.flags = s.flags ∧
        t.out = s.out ++ [.dispatch (mkDesc b sl s.rx.len) P] ++ responseEvents s.env.active .ok 0 0) ∧
    (s.conf.chk ((s.rx.scr.drop s.conf.sync.length).take s.conf.lenW ++ P) ≠ s.rx.chk ++ [d] →
      t.owner? b sl = some .free ∧ t.freeList b = sl :: B.free ∧ t.inUse b = B.inUse - 1 ∧
        t.flags = { s.flags with chk := true } ∧ t.out = s.out ++ responseEvents s.env.active .ok 0 0)

/-! ## Transport and scheduler (44_transport.md, 45_tick.md) -/

/-- `TRDY` sets `ready` and nothing else; no operation but `TRDY` sets it and no operation but `RST` clears it; the example of the rule, `STATUS`
0 after reset and 1 after `TRDY` (R202). -/
def Obligations.TrdySetsReady : Prop :=
  decode 0x3100000000000000#64 = .ok .trdy ∧
    (∃ t, exec .trdy State.reset = .next t ∧ State.reset.csr? 0x0000 = some 0 ∧ t.csr? 0x0000 = some 1) ∧
    (∀ s : State, s.fatal = false →
      exec .trdy s =
        .next { s with ready := true, out := s.out ++ responseEvents s.env.active .ok 0 0, env := s.env.retire }) ∧
    (∀ (i : Instr) (s t : State), exec i s = .next t → s.ready = true → i ≠ .rst → t.ready = true) ∧
    ∀ (i : Instr) (s t : State), exec i s = .next t → s.ready = false → t.ready = true → i = .trdy

/-- `SUBMIT` while not ready sends nothing, sets `F_TXDROP` and gives the buffer back to the pool (R204, R205, R250). -/
def Obligations.SubmitDropsWhileNotReady : Prop := ∀ (s : State) (d : Desc) (B : Bin),
  s.fatal = false → s.ready = false → s.validExt d = true → s.pool[d.bin.toNat]? = some B →
  ∃ t, exec (.submit d) s = .next t ∧ t = { s with pool := t.pool, flags := t.flags, out := t.out, env := t.env } ∧
    t.owner? d.bin.toNat d.slot.toNat = some .free ∧ t.freeList d.bin.toNat = d.slot.toNat :: B.free ∧
    t.inUse d.bin.toNat = B.inUse - 1 ∧ (∀ b sl, (b, sl) ≠ d.handle → t.owner? b sl = s.owner? b sl) ∧
    (∀ b, b ≠ d.bin.toNat → t.freeList b = s.freeList b ∧ t.inUse b = s.inUse b) ∧
    t.flags = { s.flags with txDrop := true } ∧
    t.out = s.out ++ responseEvents s.env.active .transportNotReady 0 0 ∧ t.env = s.env.retire

/-- `SUBMIT` while ready offers the first `len` bytes of the slot to the driver and gives the buffer back to the pool; the driver's verdict,
open to both values, decides only the status and `F_DRVFAIL` (R204, R206, R207, R251). That a verdict is an entry of `verdicts` or a free
value is the model's own (log 5). -/
def Obligations.SubmitOffersBytes : Prop := ∀ (s : State) (d : Desc) (B : Bin),
  s.fatal = false → s.ready = true → s.validExt d = true → s.pool[d.bin.toNat]? = some B →
  ∃ (t : State) (bytes : List Byte) (ok : Bool),
    exec (.submit d) s = .next t ∧ t = { s with pool := t.pool, flags := t.flags, out := t.out, env := t.env } ∧
    bytes.length = d.len.toNat ∧
    (∀ i v, i < d.len.toNat → s.slotByte? d.bin.toNat d.slot.toNat i = some v → bytes[i]? = some v) ∧
    t.owner? d.bin.toNat d.slot.toNat = some .free ∧ t.freeList d.bin.toNat = d.slot.toNat :: B.free ∧
    t.inUse d.bin.toNat = B.inUse - 1 ∧ (∀ b sl, (b, sl) ≠ d.handle → t.owner? b sl = s.owner? b sl) ∧
    (∀ b, b ≠ d.bin.toNat → t.freeList b = s.freeList b ∧ t.inUse b = s.inUse b) ∧
    t.flags = (if ok then s.flags else { s.flags with drvFail := true }) ∧
    t.out = s.out ++ [.txData bytes] ++ responseEvents s.env.active (if ok then .ok else .driverFailure) 0 0 ∧
    (∀ v r, s.env.verdicts = v :: r → ok = v ∧ t.env = { s.env.retire with verdicts := r }) ∧
    (s.env.verdicts = [] → t.env = { s.env.retire with draws := t.env.draws })

/-- `START` sets `started` and nothing else, `tick_cnt` as it was; no operation but `RST` clears it: "there is no stop operation" (R217). -/
def Obligations.StartSetsStarted : Prop :=
  decode 0x4000000000000000#64 = .ok .start ∧
    (∀ s : State, s.fatal = false →
      exec .start s =
        .next { s with started := true, out := s.out ++ responseEvents s.env.active .ok 0 0, env := s.env.retire }) ∧
    ∀ (i : Instr) (s t : State), exec i s = .next t → s.started = true → i ≠ .rst → t.started = true

/-- `TICK` before `START` counts nothing and activates nothing: `E_NOT_STARTED`, code 0x07, on a command port, silence on `TICK_IN` (R222,
R253). -/
def Obligations.TickBeforeStartIgnored : Prop :=
  Status.code .notStarted = 0x07 ∧
    ∀ s : State, s.fatal = false → s.started = false →
      exec .tick s =
        .next { s with out := s.out ++ responseEvents s.env.active .notStarted 0 0, env := s.env.retire }

/-- `TICK` counts modulo `2^32`, then activates the groups whose divisor divides the new count, in ascending order, each consumer in
registration order with its token; at count 0 none (R219 to R221, R223). -/
def Obligations.TickActivatesDividingGroups : Prop := ∀ (s : State) (n : Nat),
  s.fatal = false → s.started = true → n = (s.tickCnt.toNat + 1) % 2 ^ 32 →
  exec .tick s =
    .next { s with
      tickCnt := BitVec.ofNat 32 n
      out := s.out ++
        (if n = 0 then []
          else s.conf.groups.zipIdx.flatMap fun gk =>
            if n % gk.1.div = 0 then gk.1.ctx.zipIdx.map fun ci => .act gk.2 ci.2 ci.1 else []) ++
        responseEvents s.env.active .ok 0 0
      env := s.env.retire }

/-- "configuring a group with divisor D and ticking N times activates that group exactly floor(N/D) times": every consumer of group `g` is
invoked exactly `N / D` times by `N < 2^32` ticks from count 0 (R220, R221, testable property 7). The ticks come with no other operation
between them (log 13). -/
def Obligations.TicksActivateFloorTimes : Prop := ∀ (s : State) (n g i : Nat) (k : GroupCfg) (ctx : Quad),
  s.fatal = false → s.started = true → s.tickCnt = 0 → n < 2 ^ 32 → s.conf.groups[g]? = some k → k.ctx[i]? = some ctx →
  ∃ t, runOps (ticks n) s = .next t ∧ t.tickCnt.toNat = n ∧
    (t.out.drop s.out.length).count (.act g i ctx) = n / k.div

/-! ## System operations (46_system.md) -/

/-- `NOP`, the all-zero word, only answers, with the all-zero response; after a fatal fault it has no step (R231). -/
def Obligations.NopOnlyAnswers : Prop :=
  decode 0#64 = .ok .nop ∧ responseWord .ok 0 0 = 0#64 ∧
    ∀ s : State,
      (s.fatal = false →
        exec .nop s = .next { s with out := s.out ++ responseEvents s.env.active .ok 0 0, env := s.env.retire }) ∧
      (s.fatal = true → s.enabledOp (.ok .nop) = false)

/-- `RDCSR` of a register of the table answers its value, halted or not, and changes nothing else (R53, R56, R233, R263). -/
def Obligations.RdcsrAnswersRegister : Prop := ∀ (s : State) (csr : Half) (v : Quad),
  ((csr = 0x0001 ∧ v = BitVec.ofNat 16 s.rx.len ++ BitVec.ofNat 16 s.rx.cnt) ∨ (csr = 0x0002 ∧ v = s.tickCnt) ∨
      (csr = 0x0003 ∧ v = s.faultInfo) ∨
      (∃ b k, csr.toNat = 0x0100 + b ∧ b < 256 ∧ s.conf.bins[b]? = some k ∧ v.toNat = k.count * 2 ^ 16 + k.size) ∨
      (∃ b, csr.toNat = 0x0200 + b ∧ b < s.conf.bins.length ∧
        v = BitVec.ofNat 16 (s.freeList b).length ++ BitVec.ofNat 16 (s.inUse b)) ∨
      (∃ q k, csr.toNat = 0x0300 + q ∧ q < 256 ∧ s.conf.queues[q]? = some k ∧ v.toNat = k.depth * 2 ^ 8 + k.prio) ∨
      (∃ q, csr.toNat = 0x0400 + q ∧ q < s.conf.queues.length ∧ v.toNat = s.qCnt q % 2 ^ 16) ∨
      (∃ g k, csr.toNat = 0x0500 + g ∧ g < 256 ∧ s.conf.groups[g]? = some k ∧ v.toNat = k.div) ∨
      ∃ g k, csr.toNat = 0x0600 + g ∧ g < 256 ∧ s.conf.groups[g]? = some k ∧ v.toNat = k.ctx.length) →
  exec (.rdcsr csr) s = .next { s with out := s.out ++ responseEvents s.env.active .ok 0 v, env := s.env.retire }

/-- `RDCSR` of `STATUS` answers its bits (R54), the states of the Deframer by the numbers 0 to 4 of R39, halted or not, and changes nothing else (R56, R263). -/
def Obligations.StatusRegisterBits : Prop := ∀ s : State, ∃ v,
  exec (.rdcsr 0x0000) s = .next { s with out := s.out ++ responseEvents s.env.active .ok 0 v, env := s.env.retire } ∧
    v.getLsbD 0 = s.ready ∧ v.getLsbD 1 = s.started ∧ v.getLsbD 2 = s.fatal ∧ v.getLsbD 3 = false ∧
    (s.rx.st = .seekingSync → v.extractLsb' 4 3 = 0) ∧ (s.rx.st = .readingLength → v.extractLsb' 4 3 = 1) ∧
    (s.rx.st = .readingPayload → v.extractLsb' 4 3 = 2) ∧ (s.rx.st = .readingChecksum → v.extractLsb' 4 3 = 3) ∧
    (s.rx.st = .dispatchReady → v.extractLsb' 4 3 = 4) ∧ v.getLsbD 7 = false ∧ v.getLsbD 8 = s.flags.chk ∧ v.getLsbD 9 = s.flags.len ∧
    v.getLsbD 10 = s.flags.noBuf ∧ v.getLsbD 11 = s.flags.txDrop ∧ v.getLsbD 12 = s.flags.drvFail ∧ v.extractLsb' 13 3 = 0 ∧
    v.extractLsb' 16 8 = s.faultCode ∧ v.extractLsb' 24 8 = 0

/-- `RDCSR` of `CODECCFG`, `SYNC0`, `SYNC1` and `GEOM` answers the configuration, halted or not, and changes nothing else (R53, R55, R56). -/
def Obligations.RdcsrAnswersConfiguration : Prop := ∀ (s : State) (csr : Half) (v : Quad),
  ((csr = 0x0004 ∧
      v.toNat = s.conf.sync.length + s.conf.lenW * 2 ^ 4 + s.conf.chkW * 2 ^ 8 + (if s.conf.order = .little then 2 ^ 12 else 0) +
        (if s.conf.syncRetest then 2 ^ 13 else 0) + (if s.conf.chkAlg = .sum then 0 else 2 ^ 14) + s.conf.maxPayload * 2 ^ 16) ∨
      (csr = 0x0005 ∧ ∀ i < 4, v.extractLsb' (8 * i) 8 = s.conf.sync.getD i 0) ∨
      (csr = 0x0006 ∧ ∀ i < 4, v.extractLsb' (8 * i) 8 = s.conf.sync.getD (4 + i) 0) ∨
      csr = 0x0007 ∧ v.toNat = (s.conf.bins.length - 1) + (s.conf.queues.length - 1) * 2 ^ 8 + s.conf.groups.length * 2 ^ 16) →
  exec (.rdcsr csr) s = .next { s with out := s.out ++ responseEvents s.env.active .ok 0 v, env := s.env.retire }

/-- `RDCSR` of a number not in the table answers `E_BAD_CSR`, code 0x09, and changes nothing, the block not halted by it (R234, R255). -/
def Obligations.RdcsrRejectsUnknownNumber : Prop :=
  decode 0x5000010200000000#64 = .ok (.rdcsr 0x0102) ∧ State.reset.csr? 0x0102 = none ∧
    responseWord .badCsr 0 0 = 0x0900000000000000#64 ∧
    ∀ (s : State) (csr : Half),
      0x0008 ≤ csr.toNat →
      (∀ b < s.conf.bins.length, csr.toNat ≠ 0x0100 + b ∧ csr.toNat ≠ 0x0200 + b) →
      (∀ q < s.conf.queues.length, csr.toNat ≠ 0x0300 + q ∧ csr.toNat ≠ 0x0400 + q) →
      (∀ g < s.conf.groups.length, csr.toNat ≠ 0x0500 + g ∧ csr.toNat ≠ 0x0600 + g) →
      exec (.rdcsr csr) s = .next { s with out := s.out ++ responseEvents s.env.active .badCsr 0 0, env := s.env.retire }

/-- `CLRSTS` clears all five sticky flags at once and nothing else (R236). -/
def Obligations.ClrstsClearsFlags : Prop :=
  decode 0x5100000000000000#64 = .ok .clrsts ∧
    ∀ s : State, s.fatal = false →
      exec .clrsts s =
        .next { s with
          flags := ⟨false, false, false, false, false⟩, out := s.out ++ responseEvents s.env.active .ok 0 0, env := s.env.retire }

/-! ## Rules about the whole machine -/

/-- Only `RELEASE`, `BUFWR`, `BUFRD`, `ENQ`, `FRAME` and `SUBMIT` can halt the block, and the operation that does changes nothing but the fault
registers and `out`: the fault is precise (R260, R262, R267). A step that halts the block executes the operation of a command port: no
event port can halt it (R260). -/
def Obligations.OnlyDescriptorOperationsHalt : Prop :=
  (∀ s t : State, step s = .next t → s.fatal = false → t.fatal = true → ∃ k s', s.grant = some (.cmd k, s')) ∧
  ∀ (i : Instr) (s t : State), exec i s = .next t → s.fatal = false → t.fatal = true →
  (∃ d, i = .release d ∨ (∃ data off, i = .bufwr data off d) ∨ (∃ off, i = .bufrd off d) ∨ (∃ prio, i = .enq prio d) ∨
      i = .frame d ∨ i = .submit d) ∧
    t = { s with fatal := true, faultCode := t.faultCode, faultInfo := t.faultInfo, out := t.out, env := t.env }

/-- "`RST` is the only exit" from a fatal fault, and until then its cause is kept (R263, R264). -/
def Obligations.OnlyResetLeavesHalt : Prop := ∀ (i : Instr) (s t : State),
  exec i s = .next t → s.fatal = true →
  i = .rst ∨ (t.fatal = true ∧ t.faultCode = s.faultCode ∧ t.faultInfo = s.faultInfo)

/-- No operation writes the configuration, and the output history only grows (R7, R50, R240). -/
def Obligations.StepKeepsConfigurationAndHistory : Prop := ∀ s t : State, step s = .next t → t.cfg = s.cfg ∧ s.out <+: t.out

/-- "No operation's result depends on a sticky flag": with any other flags an operation but `RDCSR` gives the same state up to the flags
(R52, R57). -/
def Obligations.StickyFlagsInfluenceNothing : Prop := ∀ (i : Instr) (s t : State) (f : Sticky),
  (∀ csr, i ≠ .rdcsr csr) → exec i s = .next t →
  ∃ f', exec i { s with flags := f } = .next { t with flags := f' }

/-- The Deframer never reads `ready`: `RXB` does the same whatever it is (R194). -/
def Obligations.DeframerIgnoresReadiness : Prop := ∀ (d : Byte) (s t : State) (r : Bool),
  exec (.rxb d) s = .next t → exec (.rxb d) { s with ready := r } = .next { t with ready := r }

/-- THE INVARIANTS OF THE SPEC ARE KEPT BY EVERY STEP: the pool, queue, deframer and halt invariants, canonical slot memory, from every
state that has them (R27, R35, R36, R39 to R44, R51). -/
def Obligations.StepKeepsInvariants : Prop := ∀ s t : State, s.Inv → step s = .next t → t.Inv

/-- From a state with the invariants a step always answers a next state: no operation is refused and none of the model's faults is
reached (R244, R279). That a held operation answers the same state is the model's choice (log 8), the faults are the model's (log 10). -/
def Obligations.StepNeverStops : Prop := ∀ s : State, s.Inv → ∃ t, step s = .next t

/-- "the deframer state after a byte stream depends only on the state before, the bytes, and the answers of `pool_take`" (R188), byte by byte:
in two states alike in the configuration, the Deframer, the bytes `rx_buf` reads as and, at the last byte of a valid length, the slot
`pool_take` answers, whatever else differs, the same byte gives the same Deframer and the same `DISPATCH` events. -/
def Obligations.RxbDependsOnlyOnDeframerAndPool : Prop := ∀ (d : Byte) (s s' t : State),
  s.fatal = false → s'.fatal = false → s'.cfg = s.cfg → s'.rx = s.rx →
  (∀ b sl i, s.rx.buf = some (b, sl) → i < s.rx.len → s'.readByte b sl i = s.readByte b sl i) →
  (∀ len, s.rx.st = .readingLength → s.rx.cnt + 1 = s.conf.lenW → len ≤ s.conf.maxPayload →
    s.conf.dec (((s.rx.scr ++ [d]).drop s.conf.sync.length).take s.conf.lenW) = len →
    (s'.poolTake len).map (fun r => (r.1, r.2.1)) = (s.poolTake len).map fun r => (r.1, r.2.1)) →
  exec (.rxb d) s = .next t →
  ∃ t', exec (.rxb d) s' = .next t' ∧ t'.rx = t.rx ∧
    dispatched (t'.out.drop s'.out.length) = dispatched (t.out.drop s.out.length) ∧
    ∀ D P, .dispatch D P ∈ t'.out.drop s'.out.length ↔ .dispatch D P ∈ t.out.drop s.out.length

/-- ROUND TRIP: the bytes of a payload's frame, fed to a Deframer in `SEEKING_SYNC` with nothing matched while the pool has a slot for the
payload, dispatch exactly that payload in that slot and leave the Deframer as it was (R167, R190 (a), testable property 4). No other
operation comes between the bytes (log 13). -/
def Obligations.DeframeInvertsFrame : Prop := ∀ (s : State) (P : List Byte) (b sl : Nat) (rest : List Nat) (k : BinCfg),
  s.Inv → s.fatal = false → s.rx.st = .seekingSync → s.rx.cnt = 0 → P.length ≤ s.conf.maxPayload →
  s.conf.bins[b]? = some k → P.length ≤ k.size → (∀ b' < b, ∀ k', s.conf.bins[b']? = some k' → k'.size < P.length) →
  s.freeList b = sl :: rest →
  ∃ t, runOps (rxs (s.conf.sync ++ s.conf.enc P.length s.conf.lenW ++ P ++ s.conf.chk (s.conf.enc P.length s.conf.lenW ++ P))) s =
      .next t ∧
    deframe (s.conf.sync ++ s.conf.enc P.length s.conf.lenW ++ P ++ s.conf.chk (s.conf.enc P.length s.conf.lenW ++ P)) s =
      some [P] ∧
    .dispatch (mkDesc b sl P.length) P ∈ t.out.drop s.out.length ∧ t.owner? b sl = some .ext ∧
    t.rx.st = .seekingSync ∧ t.rx.cnt = 0 ∧ t.flags = s.flags

/-- Every frame in reception ends: whatever bytes arrive, the Deframer is back in `SEEKING_SYNC` with nothing matched after at most
`LEN_W + MAX_PAYLOAD + CHK_W` bytes beyond the sync pattern (R190 (b), R189), no other operation coming between them (log 13). -/
def Obligations.ReceptionEndsInBoundedBytes : Prop := ∀ (s : State) (bytes : List Byte),
  s.Inv → s.fatal = false → s.rx.st ≠ .seekingSync → s.conf.lenW + s.conf.maxPayload + s.conf.chkW ≤ bytes.length →
  ∃ n t, n ≤ s.conf.lenW + s.conf.maxPayload + s.conf.chkW ∧ runOps (rxs (bytes.take n)) s = .next t ∧
    t.rx.st = .seekingSync ∧ t.rx.cnt = 0
end

