-- ==== Sys2Proof/Laws/Config.lean ====
section
/-! SUPPORT. What a well-formed configuration says (R8), the best-fit bin (R120), `qidx` (R37) and the scan order (R38). -/

namespace Sys2Proof

/-- The checks of R8, one by one. -/
theorem Cfg.wf_iff (c : Cfg) : c.wf = true ↔
    c.binRanges = true ∧ c.binsAscending = true ∧ c.queueRanges = true ∧ c.priosDistinct = true ∧ c.codecWidths = true ∧
      c.maxPayloadFits = true ∧ c.frameFits = true ∧ c.groupRanges = true ∧ c.hasPort = true := by
  simp [Cfg.wf, and_assoc]

theorem Cfg.bin_ranges {c : Cfg} (h : c.wf = true) {k : BinCfg} (hk : k ∈ c.bins) :
    1 ≤ k.size ∧ k.size ≤ 65535 ∧ 1 ≤ k.count ∧ k.count ≤ 256 := by
  have := ((Cfg.wf_iff c).1 h).1
  simp only [Cfg.binRanges, Bool.and_eq_true, decide_eq_true_eq, List.all_eq_true] at this
  have := this.2 k hk
  omega

theorem Cfg.bins_length {c : Cfg} (h : c.wf = true) : 1 ≤ c.bins.length ∧ c.bins.length ≤ 256 := by
  have := ((Cfg.wf_iff c).1 h).1
  simp only [Cfg.binRanges, Bool.and_eq_true, decide_eq_true_eq] at this
  exact this.1

theorem Cfg.bins_ascending {c : Cfg} (h : c.wf = true) : c.bins.Pairwise fun a b => a.size < b.size := by
  simpa [Cfg.binsAscending] using ((Cfg.wf_iff c).1 h).2.1

theorem Cfg.prios_distinct {c : Cfg} (h : c.wf = true) : c.queues.Pairwise fun a b => a.prio ≠ b.prio := by
  simpa [Cfg.priosDistinct] using ((Cfg.wf_iff c).1 h).2.2.2.1

theorem Cfg.queue_ranges {c : Cfg} (h : c.wf = true) {k : QueueCfg} (hk : k ∈ c.queues) : k.prio ≤ 255 ∧ k.depth ≤ 65535 := by
  have := ((Cfg.wf_iff c).1 h).2.2.1
  simp only [Cfg.queueRanges, Bool.and_eq_true, decide_eq_true_eq, List.all_eq_true] at this
  exact this.2 k hk

theorem Cfg.codec_widths {c : Cfg} (h : c.wf = true) :
    1 ≤ c.sync.length ∧ c.sync.length ≤ 8 ∧ 1 ≤ c.lenW ∧ c.lenW ≤ 4 ∧ 1 ≤ c.chkW ∧ c.chkW ≤ 4 := by
  have := ((Cfg.wf_iff c).1 h).2.2.2.2.1
  simpa [Cfg.codecWidths, and_assoc] using this

theorem Cfg.max_payload {c : Cfg} (h : c.wf = true) :
    c.maxPayload < 2 ^ (8 * c.lenW) ∧ c.sync.length + c.lenW + c.maxPayload + c.chkW ≤ 65535 := by
  obtain ⟨-, -, -, -, -, h1, h2, -⟩ := (Cfg.wf_iff c).1 h
  exact ⟨by simpa [Cfg.maxPayloadFits] using h1, by simpa [Cfg.frameFits] using h2⟩

theorem Cfg.group_ranges {c : Cfg} (h : c.wf = true) {k : GroupCfg} (hk : k ∈ c.groups) :
    1 ≤ k.div ∧ k.div < 2 ^ 32 ∧ k.ctx.length ≤ 256 := by
  have := ((Cfg.wf_iff c).1 h).2.2.2.2.2.2.2.1
  simp only [Cfg.groupRanges, Bool.and_eq_true, decide_eq_true_eq, List.all_eq_true] at this
  have := this.2 k hk
  omega

theorem Cfg.groups_length {c : Cfg} (h : c.wf = true) : c.groups.length ≤ 256 := by
  have := ((Cfg.wf_iff c).1 h).2.2.2.2.2.2.2.1
  simp only [Cfg.groupRanges, Bool.and_eq_true, decide_eq_true_eq] at this
  exact this.1

/-! ## Bins -/

theorem Cfg.binSize_eq {c : Cfg} {b : Nat} {k : BinCfg} (h : c.bins[b]? = some k) : c.binSize b = k.size := by
  simp [Cfg.binSize, h]

theorem Cfg.binCount_eq {c : Cfg} {b : Nat} {k : BinCfg} (h : c.bins[b]? = some k) : c.binCount b = k.count := by
  simp [Cfg.binCount, h]

theorem Cfg.binSize_lt {c : Cfg} (h : c.wf = true) (b : Nat) : c.binSize b < 65536 := by
  unfold Cfg.binSize
  split
  · next k hk => have := Cfg.bin_ranges h (List.mem_of_getElem? hk); omega
  · omega

theorem Cfg.binCount_le {c : Cfg} (h : c.wf = true) (b : Nat) : c.binCount b ≤ 256 := by
  unfold Cfg.binCount
  split
  · next k hk => have := Cfg.bin_ranges h (List.mem_of_getElem? hk); omega
  · omega

/-- `best_bin(n)` is the smallest index whose size is enough (R120). -/
theorem Cfg.bestBin_eq_some {c : Cfg} {n b : Nat} : c.bestBin n = some b ↔
    ∃ k, c.bins[b]? = some k ∧ n ≤ k.size ∧ ∀ b' < b, ∀ k', c.bins[b']? = some k' → k'.size < n := by
  simp only [Cfg.bestBin, List.findIdx?_eq_some_iff_getElem, decide_eq_true_eq, not_le]
  constructor
  · rintro ⟨h, h1, h2⟩
    refine ⟨c.bins[b], List.getElem?_eq_getElem h, h1, fun b' hb k' hk' => ?_⟩
    have := h2 b' hb
    rw [List.getElem?_eq_getElem (hb.trans h)] at hk'
    cases hk'; exact this
  · rintro ⟨k, hk, h1, h2⟩
    obtain ⟨hb, rfl⟩ := List.getElem?_eq_some_iff.1 hk
    exact ⟨hb, h1, fun j hj => h2 j hj _ (List.getElem?_eq_getElem (hj.trans hb))⟩

/-- The best-fit bin exists and holds a request of the size. -/
theorem Cfg.le_binSize_of_bestBin {c : Cfg} {n b : Nat} (h : c.bestBin n = some b) : b < c.bins.length ∧ n ≤ c.binSize b := by
  obtain ⟨k, hk, h1, -⟩ := Cfg.bestBin_eq_some.1 h
  exact ⟨(List.getElem?_eq_some_iff.1 hk).1, by rwa [Cfg.binSize_eq hk]⟩

/-! ## Sub-queues -/

theorem Cfg.qPrio_eq {c : Cfg} {q : Nat} {k : QueueCfg} (h : c.queues[q]? = some k) : c.qPrio q = k.prio := by
  simp [Cfg.qPrio, h]

theorem Cfg.qDepth_eq {c : Cfg} {q : Nat} {k : QueueCfg} (h : c.queues[q]? = some k) : c.qDepth q = k.depth := by
  simp [Cfg.qDepth, h]

/-- A priority that no sub-queue serves has no index (R37). -/
theorem Cfg.qidx_eq_none {c : Cfg} {p : Nat} : c.qidx p = none ↔ ∀ k ∈ c.queues, k.prio ≠ p := by
  simp [Cfg.qidx, List.findIdx?_eq_none_iff]

/-- `qidx(p)` is the one sub-queue of priority `p` (R37). -/
theorem Cfg.qidx_eq_some {c : Cfg} (hwf : c.wf = true) {p q : Nat} :
    c.qidx p = some q ↔ ∃ k, c.queues[q]? = some k ∧ k.prio = p := by
  simp only [Cfg.qidx, List.findIdx?_eq_some_iff_getElem, decide_eq_true_eq]
  constructor
  · rintro ⟨h, h1, -⟩; exact ⟨_, List.getElem?_eq_getElem h, h1⟩
  · rintro ⟨k, hk, h1⟩
    obtain ⟨hq, rfl⟩ := List.getElem?_eq_some_iff.1 hk
    refine ⟨hq, h1, fun j hj => ?_⟩
    have := List.pairwise_iff_getElem.1 (Cfg.prios_distinct hwf) j q (hj.trans hq) hq hj
    simpa [h1] using this

/-- The scan order lists every sub-queue. -/
theorem Cfg.mem_scanOrder {c : Cfg} {q : Nat} : q ∈ c.scanOrder ↔ q < c.queues.length := by
  rw [Cfg.scanOrder, List.mem_insertionSort, List.mem_range]

/-- The scan order is by ascending priority number (R38). -/
theorem Cfg.scanOrder_sorted (c : Cfg) : c.scanOrder.Pairwise fun a b => c.qPrio a ≤ c.qPrio b := by
  have ht : IsTrans Nat fun a b => c.qPrio a ≤ c.qPrio b := ⟨fun _ _ _ => le_trans⟩
  have hl : Std.Total fun a b => c.qPrio a ≤ c.qPrio b := ⟨fun _ _ => le_total _ _⟩
  exact List.pairwise_insertionSort _ _

end Sys2Proof
end

