-- ==== Sys2Proof/Laws/Codec.lean ====
section
/-! SUPPORT. The integer encoding (R104, R105), the checksum (R106, R107) and the frame (R100, R101). -/

namespace Sys2Proof

@[simp] theorem length_littleBytes (v w : Nat) : (littleBytes v w).length = w := by
  induction w generalizing v with
  | zero => rfl
  | succ w ih => simp [littleBytes, ih]

/-- Reading the low bytes of a value back, least significant first. -/
theorem littleValue_littleBytes (v w : Nat) : littleValue (littleBytes v w) = v % 2 ^ (8 * w) := by
  induction w generalizing v with
  | zero => simp [littleBytes, littleValue, Nat.mod_one]
  | succ w ih =>
    have e : 2 ^ (8 * (w + 1)) = 256 * 2 ^ (8 * w) := by rw [Nat.mul_add, Nat.pow_add, Nat.mul_comm]
    rw [littleBytes, littleValue, ih, BitVec.toNat_ofNat, e, Nat.mod_mul]

/-- The value of a byte list is below what its width can hold. -/
theorem littleValue_lt (l : List Byte) : littleValue l < 2 ^ (8 * l.length) := by
  induction l with
  | nil => simp [littleValue]
  | cons b l ih =>
    have h := b.isLt
    have e : 2 ^ (8 * (l.length + 1)) = 256 * 2 ^ (8 * l.length) := by rw [Nat.mul_add, Nat.pow_add, Nat.mul_comm]
    rw [littleValue, List.length_cons, e]
    omega

@[simp] theorem Cfg.length_enc (c : Cfg) (v w : Nat) : (c.enc v w).length = w := by
  unfold Cfg.enc; split <;> simp

/-- `dec` reads back what `enc` wrote, modulo the width. -/
theorem Cfg.dec_enc_mod (c : Cfg) (v w : Nat) : c.dec (c.enc v w) = v % 2 ^ (8 * w) := by
  unfold Cfg.dec Cfg.enc; split <;> simp [littleValue_littleBytes]

theorem Cfg.dec_lt (c : Cfg) (l : List Byte) : c.dec l < 2 ^ (8 * l.length) := by
  unfold Cfg.dec; split
  · simpa using littleValue_lt l.reverse
  · exact littleValue_lt l

/-- A checksum has exactly `CHK_W` bytes (R106). -/
@[simp] theorem Cfg.length_chk (c : Cfg) (l : List Byte) : (c.chk l).length = c.chkW := by
  unfold Cfg.chk; split <;> simp

/-- A frame has `N + LEN_W + L + CHK_W` bytes (R101). -/
@[simp] theorem Cfg.length_frameOf (c : Cfg) (payload : List Byte) : (c.frameOf payload).length = c.frameSize payload.length := by
  simp [Cfg.frameOf, Cfg.frameSize]; omega

end Sys2Proof
end

