-- ==== Sys2Proof/Laws/Encoding.lean ====
section
/-! SUPPORT. Words and descriptors as numbers, and the fields of a word built from its fields (R85, R90). -/

namespace Sys2Proof

/-- The word with given fields, as a number (R85). -/
theorem toNat_wordOf (opc aux : Byte) (imm : Half) (desc : Quad) :
    (wordOf opc aux imm desc).toNat = opc.toNat * 2 ^ 56 + aux.toNat * 2 ^ 48 + imm.toNat * 2 ^ 32 + desc.toNat := by
  have h1 := aux.isLt
  have h2 := imm.isLt
  have h3 := desc.isLt
  have e : (wordOf opc aux imm desc).toNat =
      (((opc.toNat <<< 8 ||| aux.toNat) <<< 16 ||| imm.toNat) <<< 32) ||| desc.toNat := by
    rw [wordOf]
    erw [BitVec.toNat_append, BitVec.toNat_append, BitVec.toNat_append]
  rw [e, ← Nat.shiftLeft_add_eq_or_of_lt h1, ← Nat.shiftLeft_add_eq_or_of_lt h2, ← Nat.shiftLeft_add_eq_or_of_lt h3]
  simp only [Nat.shiftLeft_eq]
  omega

@[simp] theorem opcOf_wordOf (opc aux : Byte) (imm : Half) (desc : Quad) : opcOf (wordOf opc aux imm desc) = opc := by
  have h1 := aux.isLt
  have h2 := imm.isLt
  have h3 := desc.isLt
  have h4 := opc.isLt
  apply BitVec.eq_of_toNat_eq
  simp only [opcOf, BitVec.extractLsb'_toNat, toNat_wordOf, Nat.shiftRight_eq_div_pow]
  omega

@[simp] theorem auxOf_wordOf (opc aux : Byte) (imm : Half) (desc : Quad) : auxOf (wordOf opc aux imm desc) = aux := by
  have h1 := aux.isLt
  have h2 := imm.isLt
  have h3 := desc.isLt
  apply BitVec.eq_of_toNat_eq
  simp only [auxOf, BitVec.extractLsb'_toNat, toNat_wordOf, Nat.shiftRight_eq_div_pow]
  omega

@[simp] theorem immOf_wordOf (opc aux : Byte) (imm : Half) (desc : Quad) : immOf (wordOf opc aux imm desc) = imm := by
  have h2 := imm.isLt
  have h3 := desc.isLt
  apply BitVec.eq_of_toNat_eq
  simp only [immOf, BitVec.extractLsb'_toNat, toNat_wordOf, Nat.shiftRight_eq_div_pow]
  omega

@[simp] theorem descFieldOf_wordOf (opc aux : Byte) (imm : Half) (desc : Quad) : descFieldOf (wordOf opc aux imm desc) = desc := by
  have h3 := desc.isLt
  apply BitVec.eq_of_toNat_eq
  simp only [descFieldOf, BitVec.extractLsb'_toNat, toNat_wordOf, Nat.shiftRight_eq_div_pow]
  omega

/-- A packed descriptor, as a number (R90). -/
theorem Desc.toNat_pack (d : Desc) : d.pack.toNat = d.bin.toNat * 2 ^ 24 + d.slot.toNat * 2 ^ 16 + d.len.toNat := by
  have h1 := d.slot.isLt
  have h2 := d.len.isLt
  have e : d.pack.toNat = ((d.bin.toNat <<< 8 ||| d.slot.toNat) <<< 16) ||| d.len.toNat := by
    rw [Desc.pack]
    erw [BitVec.toNat_append, BitVec.toNat_append]
  rw [e, ← Nat.shiftLeft_add_eq_or_of_lt h1, ← Nat.shiftLeft_add_eq_or_of_lt h2]
  simp only [Nat.shiftLeft_eq]
  omega

end Sys2Proof
end

