-- ==== Sys2Proof/Laws/State.lean ====
section
/-! SUPPORT. What each named update of the state does to each field, so that no proof unfolds a record update. -/

namespace Sys2Proof.Machine

variable (s : State)

@[simp] theorem State.raiseChk_cfg : s.raiseChk.cfg = s.cfg := rfl
@[simp] theorem State.raiseChk_conf : s.raiseChk.conf = s.conf := rfl
@[simp] theorem State.raiseChk_pool : s.raiseChk.pool = s.pool := rfl
@[simp] theorem State.raiseChk_mem : s.raiseChk.mem = s.mem := rfl
@[simp] theorem State.raiseChk_queues : s.raiseChk.queues = s.queues := rfl
@[simp] theorem State.raiseChk_rx : s.raiseChk.rx = s.rx := rfl
@[simp] theorem State.raiseChk_ready : s.raiseChk.ready = s.ready := rfl
@[simp] theorem State.raiseChk_started : s.raiseChk.started = s.started := rfl
@[simp] theorem State.raiseChk_tickCnt : s.raiseChk.tickCnt = s.tickCnt := rfl
@[simp] theorem State.raiseChk_out : s.raiseChk.out = s.out := rfl
@[simp] theorem State.raiseChk_fatal : s.raiseChk.fatal = s.fatal := rfl
@[simp] theorem State.raiseChk_faultCode : s.raiseChk.faultCode = s.faultCode := rfl
@[simp] theorem State.raiseChk_faultInfo : s.raiseChk.faultInfo = s.faultInfo := rfl
@[simp] theorem State.raiseChk_flags : s.raiseChk.flags = { s.flags with chk := true } := rfl
@[simp] theorem State.raiseChk_env : s.raiseChk.env = s.env := rfl

@[simp] theorem State.raiseLen_cfg : s.raiseLen.cfg = s.cfg := rfl
@[simp] theorem State.raiseLen_conf : s.raiseLen.conf = s.conf := rfl
@[simp] theorem State.raiseLen_pool : s.raiseLen.pool = s.pool := rfl
@[simp] theorem State.raiseLen_mem : s.raiseLen.mem = s.mem := rfl
@[simp] theorem State.raiseLen_queues : s.raiseLen.queues = s.queues := rfl
@[simp] theorem State.raiseLen_rx : s.raiseLen.rx = s.rx := rfl
@[simp] theorem State.raiseLen_ready : s.raiseLen.ready = s.ready := rfl
@[simp] theorem State.raiseLen_started : s.raiseLen.started = s.started := rfl
@[simp] theorem State.raiseLen_tickCnt : s.raiseLen.tickCnt = s.tickCnt := rfl
@[simp] theorem State.raiseLen_out : s.raiseLen.out = s.out := rfl
@[simp] theorem State.raiseLen_fatal : s.raiseLen.fatal = s.fatal := rfl
@[simp] theorem State.raiseLen_faultCode : s.raiseLen.faultCode = s.faultCode := rfl
@[simp] theorem State.raiseLen_faultInfo : s.raiseLen.faultInfo = s.faultInfo := rfl
@[simp] theorem State.raiseLen_flags : s.raiseLen.flags = { s.flags with len := true } := rfl
@[simp] theorem State.raiseLen_env : s.raiseLen.env = s.env := rfl

@[simp] theorem State.raiseNoBuf_cfg : s.raiseNoBuf.cfg = s.cfg := rfl
@[simp] theorem State.raiseNoBuf_conf : s.raiseNoBuf.conf = s.conf := rfl
@[simp] theorem State.raiseNoBuf_pool : s.raiseNoBuf.pool = s.pool := rfl
@[simp] theorem State.raiseNoBuf_mem : s.raiseNoBuf.mem = s.mem := rfl
@[simp] theorem State.raiseNoBuf_queues : s.raiseNoBuf.queues = s.queues := rfl
@[simp] theorem State.raiseNoBuf_rx : s.raiseNoBuf.rx = s.rx := rfl
@[simp] theorem State.raiseNoBuf_ready : s.raiseNoBuf.ready = s.ready := rfl
@[simp] theorem State.raiseNoBuf_started : s.raiseNoBuf.started = s.started := rfl
@[simp] theorem State.raiseNoBuf_tickCnt : s.raiseNoBuf.tickCnt = s.tickCnt := rfl
@[simp] theorem State.raiseNoBuf_out : s.raiseNoBuf.out = s.out := rfl
@[simp] theorem State.raiseNoBuf_fatal : s.raiseNoBuf.fatal = s.fatal := rfl
@[simp] theorem State.raiseNoBuf_faultCode : s.raiseNoBuf.faultCode = s.faultCode := rfl
@[simp] theorem State.raiseNoBuf_faultInfo : s.raiseNoBuf.faultInfo = s.faultInfo := rfl
@[simp] theorem State.raiseNoBuf_flags : s.raiseNoBuf.flags = { s.flags with noBuf := true } := rfl
@[simp] theorem State.raiseNoBuf_env : s.raiseNoBuf.env = s.env := rfl

@[simp] theorem State.raiseTxDrop_cfg : s.raiseTxDrop.cfg = s.cfg := rfl
@[simp] theorem State.raiseTxDrop_conf : s.raiseTxDrop.conf = s.conf := rfl
@[simp] theorem State.raiseTxDrop_pool : s.raiseTxDrop.pool = s.pool := rfl
@[simp] theorem State.raiseTxDrop_mem : s.raiseTxDrop.mem = s.mem := rfl
@[simp] theorem State.raiseTxDrop_queues : s.raiseTxDrop.queues = s.queues := rfl
@[simp] theorem State.raiseTxDrop_rx : s.raiseTxDrop.rx = s.rx := rfl
@[simp] theorem State.raiseTxDrop_ready : s.raiseTxDrop.ready = s.ready := rfl
@[simp] theorem State.raiseTxDrop_started : s.raiseTxDrop.started = s.started := rfl
@[simp] theorem State.raiseTxDrop_tickCnt : s.raiseTxDrop.tickCnt = s.tickCnt := rfl
@[simp] theorem State.raiseTxDrop_out : s.raiseTxDrop.out = s.out := rfl
@[simp] theorem State.raiseTxDrop_fatal : s.raiseTxDrop.fatal = s.fatal := rfl
@[simp] theorem State.raiseTxDrop_faultCode : s.raiseTxDrop.faultCode = s.faultCode := rfl
@[simp] theorem State.raiseTxDrop_faultInfo : s.raiseTxDrop.faultInfo = s.faultInfo := rfl
@[simp] theorem State.raiseTxDrop_flags : s.raiseTxDrop.flags = { s.flags with txDrop := true } := rfl
@[simp] theorem State.raiseTxDrop_env : s.raiseTxDrop.env = s.env := rfl

@[simp] theorem State.raiseDrvFail_cfg : s.raiseDrvFail.cfg = s.cfg := rfl
@[simp] theorem State.raiseDrvFail_conf : s.raiseDrvFail.conf = s.conf := rfl
@[simp] theorem State.raiseDrvFail_pool : s.raiseDrvFail.pool = s.pool := rfl
@[simp] theorem State.raiseDrvFail_mem : s.raiseDrvFail.mem = s.mem := rfl
@[simp] theorem State.raiseDrvFail_queues : s.raiseDrvFail.queues = s.queues := rfl
@[simp] theorem State.raiseDrvFail_rx : s.raiseDrvFail.rx = s.rx := rfl
@[simp] theorem State.raiseDrvFail_ready : s.raiseDrvFail.ready = s.ready := rfl
@[simp] theorem State.raiseDrvFail_started : s.raiseDrvFail.started = s.started := rfl
@[simp] theorem State.raiseDrvFail_tickCnt : s.raiseDrvFail.tickCnt = s.tickCnt := rfl
@[simp] theorem State.raiseDrvFail_out : s.raiseDrvFail.out = s.out := rfl
@[simp] theorem State.raiseDrvFail_fatal : s.raiseDrvFail.fatal = s.fatal := rfl
@[simp] theorem State.raiseDrvFail_faultCode : s.raiseDrvFail.faultCode = s.faultCode := rfl
@[simp] theorem State.raiseDrvFail_faultInfo : s.raiseDrvFail.faultInfo = s.faultInfo := rfl
@[simp] theorem State.raiseDrvFail_flags : s.raiseDrvFail.flags = { s.flags with drvFail := true } := rfl
@[simp] theorem State.raiseDrvFail_env : s.raiseDrvFail.env = s.env := rfl

@[simp] theorem State.clearSticky_cfg : s.clearSticky.cfg = s.cfg := rfl
@[simp] theorem State.clearSticky_conf : s.clearSticky.conf = s.conf := rfl
@[simp] theorem State.clearSticky_pool : s.clearSticky.pool = s.pool := rfl
@[simp] theorem State.clearSticky_mem : s.clearSticky.mem = s.mem := rfl
@[simp] theorem State.clearSticky_queues : s.clearSticky.queues = s.queues := rfl
@[simp] theorem State.clearSticky_rx : s.clearSticky.rx = s.rx := rfl
@[simp] theorem State.clearSticky_ready : s.clearSticky.ready = s.ready := rfl
@[simp] theorem State.clearSticky_started : s.clearSticky.started = s.started := rfl
@[simp] theorem State.clearSticky_tickCnt : s.clearSticky.tickCnt = s.tickCnt := rfl
@[simp] theorem State.clearSticky_out : s.clearSticky.out = s.out := rfl
@[simp] theorem State.clearSticky_fatal : s.clearSticky.fatal = s.fatal := rfl
@[simp] theorem State.clearSticky_faultCode : s.clearSticky.faultCode = s.faultCode := rfl
@[simp] theorem State.clearSticky_faultInfo : s.clearSticky.faultInfo = s.faultInfo := rfl
@[simp] theorem State.clearSticky_flags : s.clearSticky.flags = Sticky.none := rfl
@[simp] theorem State.clearSticky_env : s.clearSticky.env = s.env := rfl

@[simp] theorem State.writeByte_cfg (b sl o : Nat) (v : Byte) : (s.writeByte b sl o v).cfg = s.cfg := rfl
@[simp] theorem State.writeByte_conf (b sl o : Nat) (v : Byte) : (s.writeByte b sl o v).conf = s.conf := rfl
@[simp] theorem State.writeByte_pool (b sl o : Nat) (v : Byte) : (s.writeByte b sl o v).pool = s.pool := rfl
@[simp] theorem State.writeByte_mem (b sl o : Nat) (v : Byte) : (s.writeByte b sl o v).mem = Memory.write s.mem (slotKey b sl o) v := rfl
@[simp] theorem State.writeByte_queues (b sl o : Nat) (v : Byte) : (s.writeByte b sl o v).queues = s.queues := rfl
@[simp] theorem State.writeByte_rx (b sl o : Nat) (v : Byte) : (s.writeByte b sl o v).rx = s.rx := rfl
@[simp] theorem State.writeByte_ready (b sl o : Nat) (v : Byte) : (s.writeByte b sl o v).ready = s.ready := rfl
@[simp] theorem State.writeByte_started (b sl o : Nat) (v : Byte) : (s.writeByte b sl o v).started = s.started := rfl
@[simp] theorem State.writeByte_tickCnt (b sl o : Nat) (v : Byte) : (s.writeByte b sl o v).tickCnt = s.tickCnt := rfl
@[simp] theorem State.writeByte_out (b sl o : Nat) (v : Byte) : (s.writeByte b sl o v).out = s.out := rfl
@[simp] theorem State.writeByte_fatal (b sl o : Nat) (v : Byte) : (s.writeByte b sl o v).fatal = s.fatal := rfl
@[simp] theorem State.writeByte_faultCode (b sl o : Nat) (v : Byte) : (s.writeByte b sl o v).faultCode = s.faultCode := rfl
@[simp] theorem State.writeByte_faultInfo (b sl o : Nat) (v : Byte) : (s.writeByte b sl o v).faultInfo = s.faultInfo := rfl
@[simp] theorem State.writeByte_flags (b sl o : Nat) (v : Byte) : (s.writeByte b sl o v).flags = s.flags := rfl
@[simp] theorem State.writeByte_env (b sl o : Nat) (v : Byte) : (s.writeByte b sl o v).env = s.env := rfl

@[simp] theorem State.writeBytes_cfg (b sl : Nat) (l : List Byte) : (s.writeBytes b sl l).cfg = s.cfg := rfl
@[simp] theorem State.writeBytes_conf (b sl : Nat) (l : List Byte) : (s.writeBytes b sl l).conf = s.conf := rfl
@[simp] theorem State.writeBytes_pool (b sl : Nat) (l : List Byte) : (s.writeBytes b sl l).pool = s.pool := rfl
@[simp] theorem State.writeBytes_mem (b sl : Nat) (l : List Byte) : (s.writeBytes b sl l).mem = Memory.writeList s.mem (slotKey b sl 0) l := rfl
@[simp] theorem State.writeBytes_queues (b sl : Nat) (l : List Byte) : (s.writeBytes b sl l).queues = s.queues := rfl
@[simp] theorem State.writeBytes_rx (b sl : Nat) (l : List Byte) : (s.writeBytes b sl l).rx = s.rx := rfl
@[simp] theorem State.writeBytes_ready (b sl : Nat) (l : List Byte) : (s.writeBytes b sl l).ready = s.ready := rfl
@[simp] theorem State.writeBytes_started (b sl : Nat) (l : List Byte) : (s.writeBytes b sl l).started = s.started := rfl
@[simp] theorem State.writeBytes_tickCnt (b sl : Nat) (l : List Byte) : (s.writeBytes b sl l).tickCnt = s.tickCnt := rfl
@[simp] theorem State.writeBytes_out (b sl : Nat) (l : List Byte) : (s.writeBytes b sl l).out = s.out := rfl
@[simp] theorem State.writeBytes_fatal (b sl : Nat) (l : List Byte) : (s.writeBytes b sl l).fatal = s.fatal := rfl
@[simp] theorem State.writeBytes_faultCode (b sl : Nat) (l : List Byte) : (s.writeBytes b sl l).faultCode = s.faultCode := rfl
@[simp] theorem State.writeBytes_faultInfo (b sl : Nat) (l : List Byte) : (s.writeBytes b sl l).faultInfo = s.faultInfo := rfl
@[simp] theorem State.writeBytes_flags (b sl : Nat) (l : List Byte) : (s.writeBytes b sl l).flags = s.flags := rfl
@[simp] theorem State.writeBytes_env (b sl : Nat) (l : List Byte) : (s.writeBytes b sl l).env = s.env := rfl

@[simp] theorem State.emit_cfg (evs : List Event) : (s.emit evs).cfg = s.cfg := rfl
@[simp] theorem State.emit_conf (evs : List Event) : (s.emit evs).conf = s.conf := rfl
@[simp] theorem State.emit_pool (evs : List Event) : (s.emit evs).pool = s.pool := rfl
@[simp] theorem State.emit_mem (evs : List Event) : (s.emit evs).mem = s.mem := rfl
@[simp] theorem State.emit_queues (evs : List Event) : (s.emit evs).queues = s.queues := rfl
@[simp] theorem State.emit_rx (evs : List Event) : (s.emit evs).rx = s.rx := rfl
@[simp] theorem State.emit_ready (evs : List Event) : (s.emit evs).ready = s.ready := rfl
@[simp] theorem State.emit_started (evs : List Event) : (s.emit evs).started = s.started := rfl
@[simp] theorem State.emit_tickCnt (evs : List Event) : (s.emit evs).tickCnt = s.tickCnt := rfl
@[simp] theorem State.emit_out (evs : List Event) : (s.emit evs).out = s.out ++ evs := rfl
@[simp] theorem State.emit_fatal (evs : List Event) : (s.emit evs).fatal = s.fatal := rfl
@[simp] theorem State.emit_faultCode (evs : List Event) : (s.emit evs).faultCode = s.faultCode := rfl
@[simp] theorem State.emit_faultInfo (evs : List Event) : (s.emit evs).faultInfo = s.faultInfo := rfl
@[simp] theorem State.emit_flags (evs : List Event) : (s.emit evs).flags = s.flags := rfl
@[simp] theorem State.emit_env (evs : List Event) : (s.emit evs).env = s.env := rfl

@[simp] theorem State.complete_cfg (st : Status) (aux : Byte) (data : Quad) : (s.complete st aux data).cfg = s.cfg := rfl
@[simp] theorem State.complete_conf (st : Status) (aux : Byte) (data : Quad) : (s.complete st aux data).conf = s.conf := rfl
@[simp] theorem State.complete_pool (st : Status) (aux : Byte) (data : Quad) : (s.complete st aux data).pool = s.pool := rfl
@[simp] theorem State.complete_mem (st : Status) (aux : Byte) (data : Quad) : (s.complete st aux data).mem = s.mem := rfl
@[simp] theorem State.complete_queues (st : Status) (aux : Byte) (data : Quad) : (s.complete st aux data).queues = s.queues := rfl
@[simp] theorem State.complete_rx (st : Status) (aux : Byte) (data : Quad) : (s.complete st aux data).rx = s.rx := rfl
@[simp] theorem State.complete_ready (st : Status) (aux : Byte) (data : Quad) : (s.complete st aux data).ready = s.ready := rfl
@[simp] theorem State.complete_started (st : Status) (aux : Byte) (data : Quad) : (s.complete st aux data).started = s.started := rfl
@[simp] theorem State.complete_tickCnt (st : Status) (aux : Byte) (data : Quad) : (s.complete st aux data).tickCnt = s.tickCnt := rfl
@[simp] theorem State.complete_out (st : Status) (aux : Byte) (data : Quad) : (s.complete st aux data).out = s.out ++ responseEvents s.env.active st aux data := rfl
@[simp] theorem State.complete_fatal (st : Status) (aux : Byte) (data : Quad) : (s.complete st aux data).fatal = s.fatal := rfl
@[simp] theorem State.complete_faultCode (st : Status) (aux : Byte) (data : Quad) : (s.complete st aux data).faultCode = s.faultCode := rfl
@[simp] theorem State.complete_faultInfo (st : Status) (aux : Byte) (data : Quad) : (s.complete st aux data).faultInfo = s.faultInfo := rfl
@[simp] theorem State.complete_flags (st : Status) (aux : Byte) (data : Quad) : (s.complete st aux data).flags = s.flags := rfl
@[simp] theorem State.complete_env (st : Status) (aux : Byte) (data : Quad) : (s.complete st aux data).env = s.env.retire := rfl

@[simp] theorem State.halt_cfg (st : Status) (d : Desc) : (s.halt st d).cfg = s.cfg := rfl
@[simp] theorem State.halt_conf (st : Status) (d : Desc) : (s.halt st d).conf = s.conf := rfl
@[simp] theorem State.halt_pool (st : Status) (d : Desc) : (s.halt st d).pool = s.pool := rfl
@[simp] theorem State.halt_mem (st : Status) (d : Desc) : (s.halt st d).mem = s.mem := rfl
@[simp] theorem State.halt_queues (st : Status) (d : Desc) : (s.halt st d).queues = s.queues := rfl
@[simp] theorem State.halt_rx (st : Status) (d : Desc) : (s.halt st d).rx = s.rx := rfl
@[simp] theorem State.halt_ready (st : Status) (d : Desc) : (s.halt st d).ready = s.ready := rfl
@[simp] theorem State.halt_started (st : Status) (d : Desc) : (s.halt st d).started = s.started := rfl
@[simp] theorem State.halt_tickCnt (st : Status) (d : Desc) : (s.halt st d).tickCnt = s.tickCnt := rfl
@[simp] theorem State.halt_out (st : Status) (d : Desc) : (s.halt st d).out = s.out ++ [.halt st.code d.pack] := rfl
@[simp] theorem State.halt_fatal (st : Status) (d : Desc) : (s.halt st d).fatal = true := rfl
@[simp] theorem State.halt_faultCode (st : Status) (d : Desc) : (s.halt st d).faultCode = st.code := rfl
@[simp] theorem State.halt_faultInfo (st : Status) (d : Desc) : (s.halt st d).faultInfo = d.pack := rfl
@[simp] theorem State.halt_flags (st : Status) (d : Desc) : (s.halt st d).flags = s.flags := rfl
@[simp] theorem State.halt_env (st : Status) (d : Desc) : (s.halt st d).env = s.env := rfl

@[simp] theorem State.modifyBin_cfg (b : Nat) (f : Bin → Bin) : (s.modifyBin b f).cfg = s.cfg := rfl
@[simp] theorem State.modifyBin_conf (b : Nat) (f : Bin → Bin) : (s.modifyBin b f).conf = s.conf := rfl
@[simp] theorem State.modifyBin_pool (b : Nat) (f : Bin → Bin) : (s.modifyBin b f).pool = s.pool.modify b f := rfl
@[simp] theorem State.modifyBin_mem (b : Nat) (f : Bin → Bin) : (s.modifyBin b f).mem = s.mem := rfl
@[simp] theorem State.modifyBin_queues (b : Nat) (f : Bin → Bin) : (s.modifyBin b f).queues = s.queues := rfl
@[simp] theorem State.modifyBin_rx (b : Nat) (f : Bin → Bin) : (s.modifyBin b f).rx = s.rx := rfl
@[simp] theorem State.modifyBin_ready (b : Nat) (f : Bin → Bin) : (s.modifyBin b f).ready = s.ready := rfl
@[simp] theorem State.modifyBin_started (b : Nat) (f : Bin → Bin) : (s.modifyBin b f).started = s.started := rfl
@[simp] theorem State.modifyBin_tickCnt (b : Nat) (f : Bin → Bin) : (s.modifyBin b f).tickCnt = s.tickCnt := rfl
@[simp] theorem State.modifyBin_out (b : Nat) (f : Bin → Bin) : (s.modifyBin b f).out = s.out := rfl
@[simp] theorem State.modifyBin_fatal (b : Nat) (f : Bin → Bin) : (s.modifyBin b f).fatal = s.fatal := rfl
@[simp] theorem State.modifyBin_faultCode (b : Nat) (f : Bin → Bin) : (s.modifyBin b f).faultCode = s.faultCode := rfl
@[simp] theorem State.modifyBin_faultInfo (b : Nat) (f : Bin → Bin) : (s.modifyBin b f).faultInfo = s.faultInfo := rfl
@[simp] theorem State.modifyBin_flags (b : Nat) (f : Bin → Bin) : (s.modifyBin b f).flags = s.flags := rfl
@[simp] theorem State.modifyBin_env (b : Nat) (f : Bin → Bin) : (s.modifyBin b f).env = s.env := rfl

@[simp] theorem State.setOwner_cfg (b sl : Nat) (o : Owner) : (s.setOwner b sl o).cfg = s.cfg := rfl
@[simp] theorem State.setOwner_conf (b sl : Nat) (o : Owner) : (s.setOwner b sl o).conf = s.conf := rfl
@[simp] theorem State.setOwner_pool (b sl : Nat) (o : Owner) : (s.setOwner b sl o).pool = s.pool.modify b fun B => { B with owner := B.owner.set sl o } := rfl
@[simp] theorem State.setOwner_mem (b sl : Nat) (o : Owner) : (s.setOwner b sl o).mem = s.mem := rfl
@[simp] theorem State.setOwner_queues (b sl : Nat) (o : Owner) : (s.setOwner b sl o).queues = s.queues := rfl
@[simp] theorem State.setOwner_rx (b sl : Nat) (o : Owner) : (s.setOwner b sl o).rx = s.rx := rfl
@[simp] theorem State.setOwner_ready (b sl : Nat) (o : Owner) : (s.setOwner b sl o).ready = s.ready := rfl
@[simp] theorem State.setOwner_started (b sl : Nat) (o : Owner) : (s.setOwner b sl o).started = s.started := rfl
@[simp] theorem State.setOwner_tickCnt (b sl : Nat) (o : Owner) : (s.setOwner b sl o).tickCnt = s.tickCnt := rfl
@[simp] theorem State.setOwner_out (b sl : Nat) (o : Owner) : (s.setOwner b sl o).out = s.out := rfl
@[simp] theorem State.setOwner_fatal (b sl : Nat) (o : Owner) : (s.setOwner b sl o).fatal = s.fatal := rfl
@[simp] theorem State.setOwner_faultCode (b sl : Nat) (o : Owner) : (s.setOwner b sl o).faultCode = s.faultCode := rfl
@[simp] theorem State.setOwner_faultInfo (b sl : Nat) (o : Owner) : (s.setOwner b sl o).faultInfo = s.faultInfo := rfl
@[simp] theorem State.setOwner_flags (b sl : Nat) (o : Owner) : (s.setOwner b sl o).flags = s.flags := rfl
@[simp] theorem State.setOwner_env (b sl : Nat) (o : Owner) : (s.setOwner b sl o).env = s.env := rfl

@[simp] theorem State.takeSlot_cfg (b sl : Nat) (rest : List Nat) : (s.takeSlot b sl rest).cfg = s.cfg := rfl
@[simp] theorem State.takeSlot_conf (b sl : Nat) (rest : List Nat) : (s.takeSlot b sl rest).conf = s.conf := rfl
@[simp] theorem State.takeSlot_pool (b sl : Nat) (rest : List Nat) : (s.takeSlot b sl rest).pool = s.pool.modify b fun B => B.take rest := rfl
@[simp] theorem State.takeSlot_mem (b sl : Nat) (rest : List Nat) : (s.takeSlot b sl rest).mem = Memory.erase s.mem (slotKey b sl 0) (s.conf.binSize b) := rfl
@[simp] theorem State.takeSlot_queues (b sl : Nat) (rest : List Nat) : (s.takeSlot b sl rest).queues = s.queues := rfl
@[simp] theorem State.takeSlot_rx (b sl : Nat) (rest : List Nat) : (s.takeSlot b sl rest).rx = s.rx := rfl
@[simp] theorem State.takeSlot_ready (b sl : Nat) (rest : List Nat) : (s.takeSlot b sl rest).ready = s.ready := rfl
@[simp] theorem State.takeSlot_started (b sl : Nat) (rest : List Nat) : (s.takeSlot b sl rest).started = s.started := rfl
@[simp] theorem State.takeSlot_tickCnt (b sl : Nat) (rest : List Nat) : (s.takeSlot b sl rest).tickCnt = s.tickCnt := rfl
@[simp] theorem State.takeSlot_out (b sl : Nat) (rest : List Nat) : (s.takeSlot b sl rest).out = s.out := rfl
@[simp] theorem State.takeSlot_fatal (b sl : Nat) (rest : List Nat) : (s.takeSlot b sl rest).fatal = s.fatal := rfl
@[simp] theorem State.takeSlot_faultCode (b sl : Nat) (rest : List Nat) : (s.takeSlot b sl rest).faultCode = s.faultCode := rfl
@[simp] theorem State.takeSlot_faultInfo (b sl : Nat) (rest : List Nat) : (s.takeSlot b sl rest).faultInfo = s.faultInfo := rfl
@[simp] theorem State.takeSlot_flags (b sl : Nat) (rest : List Nat) : (s.takeSlot b sl rest).flags = s.flags := rfl
@[simp] theorem State.takeSlot_env (b sl : Nat) (rest : List Nat) : (s.takeSlot b sl rest).env = s.env.drawFill b sl := rfl

@[simp] theorem State.poolGive_cfg (b sl : Nat) : (s.poolGive b sl).cfg = s.cfg := rfl
@[simp] theorem State.poolGive_conf (b sl : Nat) : (s.poolGive b sl).conf = s.conf := rfl
@[simp] theorem State.poolGive_pool (b sl : Nat) : (s.poolGive b sl).pool = s.pool.modify b fun B => B.give sl := rfl
@[simp] theorem State.poolGive_mem (b sl : Nat) : (s.poolGive b sl).mem = s.mem := rfl
@[simp] theorem State.poolGive_queues (b sl : Nat) : (s.poolGive b sl).queues = s.queues := rfl
@[simp] theorem State.poolGive_rx (b sl : Nat) : (s.poolGive b sl).rx = s.rx := rfl
@[simp] theorem State.poolGive_ready (b sl : Nat) : (s.poolGive b sl).ready = s.ready := rfl
@[simp] theorem State.poolGive_started (b sl : Nat) : (s.poolGive b sl).started = s.started := rfl
@[simp] theorem State.poolGive_tickCnt (b sl : Nat) : (s.poolGive b sl).tickCnt = s.tickCnt := rfl
@[simp] theorem State.poolGive_out (b sl : Nat) : (s.poolGive b sl).out = s.out := rfl
@[simp] theorem State.poolGive_fatal (b sl : Nat) : (s.poolGive b sl).fatal = s.fatal := rfl
@[simp] theorem State.poolGive_faultCode (b sl : Nat) : (s.poolGive b sl).faultCode = s.faultCode := rfl
@[simp] theorem State.poolGive_faultInfo (b sl : Nat) : (s.poolGive b sl).faultInfo = s.faultInfo := rfl
@[simp] theorem State.poolGive_flags (b sl : Nat) : (s.poolGive b sl).flags = s.flags := rfl
@[simp] theorem State.poolGive_env (b sl : Nat) : (s.poolGive b sl).env = s.env := rfl

@[simp] theorem State.pushQueue_cfg (q : Nat) (d : Desc) : (s.pushQueue q d).cfg = s.cfg := rfl
@[simp] theorem State.pushQueue_conf (q : Nat) (d : Desc) : (s.pushQueue q d).conf = s.conf := rfl
@[simp] theorem State.pushQueue_pool (q : Nat) (d : Desc) : (s.pushQueue q d).pool = s.pool := rfl
@[simp] theorem State.pushQueue_mem (q : Nat) (d : Desc) : (s.pushQueue q d).mem = s.mem := rfl
@[simp] theorem State.pushQueue_queues (q : Nat) (d : Desc) : (s.pushQueue q d).queues = s.queues.modify q fun Q => { Q with fifo := Q.fifo ++ [d], cnt := Q.cnt + 1 } := rfl
@[simp] theorem State.pushQueue_rx (q : Nat) (d : Desc) : (s.pushQueue q d).rx = s.rx := rfl
@[simp] theorem State.pushQueue_ready (q : Nat) (d : Desc) : (s.pushQueue q d).ready = s.ready := rfl
@[simp] theorem State.pushQueue_started (q : Nat) (d : Desc) : (s.pushQueue q d).started = s.started := rfl
@[simp] theorem State.pushQueue_tickCnt (q : Nat) (d : Desc) : (s.pushQueue q d).tickCnt = s.tickCnt := rfl
@[simp] theorem State.pushQueue_out (q : Nat) (d : Desc) : (s.pushQueue q d).out = s.out := rfl
@[simp] theorem State.pushQueue_fatal (q : Nat) (d : Desc) : (s.pushQueue q d).fatal = s.fatal := rfl
@[simp] theorem State.pushQueue_faultCode (q : Nat) (d : Desc) : (s.pushQueue q d).faultCode = s.faultCode := rfl
@[simp] theorem State.pushQueue_faultInfo (q : Nat) (d : Desc) : (s.pushQueue q d).faultInfo = s.faultInfo := rfl
@[simp] theorem State.pushQueue_flags (q : Nat) (d : Desc) : (s.pushQueue q d).flags = s.flags := rfl
@[simp] theorem State.pushQueue_env (q : Nat) (d : Desc) : (s.pushQueue q d).env = s.env := rfl

@[simp] theorem State.popQueue_cfg (q : Nat) : (s.popQueue q).cfg = s.cfg := rfl
@[simp] theorem State.popQueue_conf (q : Nat) : (s.popQueue q).conf = s.conf := rfl
@[simp] theorem State.popQueue_pool (q : Nat) : (s.popQueue q).pool = s.pool := rfl
@[simp] theorem State.popQueue_mem (q : Nat) : (s.popQueue q).mem = s.mem := rfl
@[simp] theorem State.popQueue_queues (q : Nat) : (s.popQueue q).queues = s.queues.modify q fun Q => { Q with fifo := Q.fifo.tail, cnt := Q.cnt - 1 } := rfl
@[simp] theorem State.popQueue_rx (q : Nat) : (s.popQueue q).rx = s.rx := rfl
@[simp] theorem State.popQueue_ready (q : Nat) : (s.popQueue q).ready = s.ready := rfl
@[simp] theorem State.popQueue_started (q : Nat) : (s.popQueue q).started = s.started := rfl
@[simp] theorem State.popQueue_tickCnt (q : Nat) : (s.popQueue q).tickCnt = s.tickCnt := rfl
@[simp] theorem State.popQueue_out (q : Nat) : (s.popQueue q).out = s.out := rfl
@[simp] theorem State.popQueue_fatal (q : Nat) : (s.popQueue q).fatal = s.fatal := rfl
@[simp] theorem State.popQueue_faultCode (q : Nat) : (s.popQueue q).faultCode = s.faultCode := rfl
@[simp] theorem State.popQueue_faultInfo (q : Nat) : (s.popQueue q).faultInfo = s.faultInfo := rfl
@[simp] theorem State.popQueue_flags (q : Nat) : (s.popQueue q).flags = s.flags := rfl
@[simp] theorem State.popQueue_env (q : Nat) : (s.popQueue q).env = s.env := rfl

@[simp] theorem State.rxClear_cfg : s.rxClear.cfg = s.cfg := rfl
@[simp] theorem State.rxClear_conf : s.rxClear.conf = s.conf := rfl
@[simp] theorem State.rxClear_pool : s.rxClear.pool = s.pool := rfl
@[simp] theorem State.rxClear_mem : s.rxClear.mem = s.mem := rfl
@[simp] theorem State.rxClear_queues : s.rxClear.queues = s.queues := rfl
@[simp] theorem State.rxClear_rx : s.rxClear.rx = Deframer.fresh := rfl
@[simp] theorem State.rxClear_ready : s.rxClear.ready = s.ready := rfl
@[simp] theorem State.rxClear_started : s.rxClear.started = s.started := rfl
@[simp] theorem State.rxClear_tickCnt : s.rxClear.tickCnt = s.tickCnt := rfl
@[simp] theorem State.rxClear_out : s.rxClear.out = s.out := rfl
@[simp] theorem State.rxClear_fatal : s.rxClear.fatal = s.fatal := rfl
@[simp] theorem State.rxClear_faultCode : s.rxClear.faultCode = s.faultCode := rfl
@[simp] theorem State.rxClear_faultInfo : s.rxClear.faultInfo = s.faultInfo := rfl
@[simp] theorem State.rxClear_flags : s.rxClear.flags = s.flags := rfl
@[simp] theorem State.rxClear_env : s.rxClear.env = s.env := rfl

end Sys2Proof.Machine
end

