-- ==== Sys2Proof/Laws/Memory.lean ====
section
/-! SUPPORT. Slot memory: what a byte reads as after a write or an erase, and that every operation keeps the canonical form. -/

namespace Sys2Proof.Machine

/-! ## Reading one key -/

@[simp] theorem Memory.read?_nil (a : Nat) : Memory.read? [] a = none := rfl

theorem Memory.read?_cons (k : Nat) (v : Byte) (m : Memory) (a : Nat) :
    Memory.read? ((k, v) :: m) a = if k = a then some v else Memory.read? m a := rfl

/-- A read after a write: the byte written at its key, every other byte as before. -/
theorem Memory.read?_write (m : Memory) (a : Nat) (v : Byte) (x : Nat) :
    Memory.read? (Memory.write m a v) x = if x = a then some v else Memory.read? m x := by
  induction m with
  | nil => simp [Memory.write, Memory.read?_cons, eq_comm]
  | cons c m ih =>
    obtain ⟨k, w⟩ := c
    simp only [Memory.write]
    split
    · simp only [Memory.read?_cons, eq_comm (a := a)]
    · split
      · next h =>
        subst h
        simp only [Memory.read?_cons, eq_comm (a := a)]
        split <;> rfl
      · simp only [Memory.read?_cons, ih]
        split
        · next h1 h2 => subst h2; rw [if_neg (fun h => h1 h.symm)]
        · rfl

/-- A read after an erase: undefined inside the erased keys, as before outside. -/
theorem Memory.read?_erase (m : Memory) (lo n x : Nat) :
    Memory.read? (Memory.erase m lo n) x = if lo ≤ x ∧ x < lo + n then none else Memory.read? m x := by
  induction m with
  | nil => simp [Memory.erase]
  | cons c m ih =>
    obtain ⟨k, w⟩ := c
    simp only [Memory.erase, List.filter_cons] at ih ⊢
    by_cases hk : lo ≤ k ∧ k < lo + n
    · simp only [hk, decide_true, Bool.and_self, Bool.not_true, Bool.false_eq_true, if_false, ih, Memory.read?_cons]
      by_cases hx : k = x
      · subst hx; simp [hk]
      · simp [hx]
    · have : (!(decide (lo ≤ k) && decide (k < lo + n))) = true := by simp; omega
      simp only [this, if_true, Memory.read?_cons, ih]
      by_cases hx : k = x
      · subst hx; simp [hk]
      · simp [hx]

/-- A read after writing a list: its bytes at their keys, every other byte as before. -/
theorem Memory.read?_writeList (l : List Byte) : ∀ (m : Memory) (a x : Nat),
    Memory.read? (Memory.writeList m a l) x = if a ≤ x ∧ x < a + l.length then l[x - a]? else Memory.read? m x := by
  induction l with
  | nil => intro m a x; simp [Memory.writeList]
  | cons v l ih =>
    intro m a x
    rw [Memory.writeList, ih, Memory.read?_write]
    by_cases h1 : x = a
    · subst h1; simp
    · by_cases h2 : a ≤ x ∧ x < a + (v :: l).length
      · have h3 : a + 1 ≤ x ∧ x < a + 1 + l.length := by
          simp only [List.length_cons] at h2; omega
        have h4 : x - a = (x - (a + 1)) + 1 := by omega
        rw [if_pos h3, if_pos h2, h4, List.getElem?_cons_succ]
      · have h3 : ¬(a + 1 ≤ x ∧ x < a + 1 + l.length) := by
          simp only [List.length_cons] at h2; omega
        rw [if_neg h3, if_neg h2, if_neg h1]

/-! ## The canonical form -/

theorem Memory.wf_iff (m : Memory) : Memory.wf m = true ↔ m.Pairwise fun a b => a.1 < b.1 := by
  simp [Memory.wf]

/-- Every key of a memory after a write is the key written or was there before. -/
theorem Memory.mem_write {m : Memory} {a : Nat} {v : Byte} {c : Host.Cell} (h : c ∈ Memory.write m a v) :
    c = (a, v) ∨ c ∈ m := by
  induction m with
  | nil => simpa [Memory.write] using h
  | cons d m ih =>
    obtain ⟨k, w⟩ := d
    simp only [Memory.write] at h
    split at h
    · simpa using h
    · split at h
      · rcases List.mem_cons.1 h with h | h
        · exact .inl h
        · exact .inr (List.mem_cons_of_mem _ h)
      · rcases List.mem_cons.1 h with h | h
        · exact .inr (h ▸ List.mem_cons_self)
        · exact (ih h).imp_right (List.mem_cons_of_mem _)

/-- A write keeps the canonical form. -/
theorem Memory.wf_write {m : Memory} (h : Memory.wf m = true) (a : Nat) (v : Byte) : Memory.wf (Memory.write m a v) = true := by
  rw [Memory.wf_iff] at h ⊢
  induction m with
  | nil => simp [Memory.write]
  | cons c m ih =>
    obtain ⟨k, w⟩ := c
    obtain ⟨hk, hm⟩ := List.pairwise_cons.1 h
    simp only [Memory.write]
    split
    · next hlt =>
      refine List.pairwise_cons.2 ⟨fun d hd => ?_, h⟩
      rcases List.mem_cons.1 hd with rfl | hd
      · exact hlt
      · exact hlt.trans (hk d hd)
    · split
      · next heq => subst heq; exact List.pairwise_cons.2 ⟨hk, hm⟩
      · refine List.pairwise_cons.2 ⟨fun d hd => ?_, ih hm⟩
        rcases Memory.mem_write hd with rfl | hd
        · show k < a; omega
        · exact hk d hd

/-- An erase keeps the canonical form. -/
theorem Memory.wf_erase {m : Memory} (h : Memory.wf m = true) (lo n : Nat) : Memory.wf (Memory.erase m lo n) = true := by
  rw [Memory.wf_iff] at h ⊢
  exact h.filter _

/-- Writing a list keeps the canonical form. -/
theorem Memory.wf_writeList (l : List Byte) : ∀ {m : Memory}, Memory.wf m = true → ∀ a, Memory.wf (Memory.writeList m a l) = true := by
  induction l with
  | nil => intro m h _; exact h
  | cons v l ih => intro m h a; exact ih (Memory.wf_write h a v) (a + 1)

/-! ## Slot bytes -/

/-- Distinct bytes of slot memory have distinct keys: slots do not overlap (R30). -/
theorem slotKey_inj {b sl o b' sl' o' : Nat} (h1 : sl < 256) (h2 : o < 65536) (h3 : sl' < 256) (h4 : o' < 65536) :
    slotKey b sl o = slotKey b' sl' o' ↔ b = b' ∧ sl = sl' ∧ o = o' := by
  unfold slotKey; omega

theorem State.slotByte?_congr {s t : State} (h : t.mem = s.mem) (b sl o : Nat) : t.slotByte? b sl o = s.slotByte? b sl o := by
  rw [State.slotByte?, State.slotByte?, h]

/-- What `MemWrite` changes: one byte (R62). -/
theorem State.slotByte?_writeByte (s : State) {b sl o : Nat} (v : Byte) {b' sl' o' : Nat} (h1 : sl < 256) (h2 : o < 65536)
    (h3 : sl' < 256) (h4 : o' < 65536) :
    (s.writeByte b sl o v).slotByte? b' sl' o' = if b' = b ∧ sl' = sl ∧ o' = o then some v else s.slotByte? b' sl' o' := by
  simp only [State.slotByte?, State.writeByte_mem, Memory.read?_write, slotKey_inj h3 h4 h1 h2]

/-- What storing a list in a slot changes: the slot's bytes from offset 0 up. -/
theorem State.slotByte?_writeBytes (s : State) {b sl : Nat} {l : List Byte} {b' sl' o' : Nat} (h1 : sl < 256)
    (h2 : l.length < 65536) (h3 : sl' < 256) (h4 : o' < 65536) :
    (s.writeBytes b sl l).slotByte? b' sl' o' =
      if b' = b ∧ sl' = sl ∧ o' < l.length then l[o']? else s.slotByte? b' sl' o' := by
  have hk : (slotKey b sl 0 ≤ slotKey b' sl' o' ∧ slotKey b' sl' o' < slotKey b sl 0 + l.length) ↔
      (b' = b ∧ sl' = sl ∧ o' < l.length) := by
    unfold slotKey; omega
  simp only [State.slotByte?, State.writeBytes_mem, Memory.read?_writeList, hk]
  by_cases hc : b' = b ∧ sl' = sl ∧ o' < l.length
  · have : slotKey b' sl' o' - slotKey b sl 0 = o' := by unfold slotKey; omega
    rw [if_pos hc, if_pos hc, this]
  · rw [if_neg hc, if_neg hc]

/-- What `pool_take` does to slot memory: the bytes of the slot taken become undefined (R123). -/
theorem State.slotByte?_takeSlot (s : State) {b sl : Nat} (rest : List Nat) {b' sl' o' : Nat} (h1 : sl < 256)
    (h2 : s.conf.binSize b < 65536) (h3 : sl' < 256) (h4 : o' < 65536) :
    (s.takeSlot b sl rest).slotByte? b' sl' o' =
      if b' = b ∧ sl' = sl ∧ o' < s.conf.binSize b then none else s.slotByte? b' sl' o' := by
  have hk : (slotKey b sl 0 ≤ slotKey b' sl' o' ∧ slotKey b' sl' o' < slotKey b sl 0 + s.conf.binSize b) ↔
      (b' = b ∧ sl' = sl ∧ o' < s.conf.binSize b) := by
    unfold slotKey; omega
  simp only [State.slotByte?, State.takeSlot_mem, Memory.read?_erase, hk]

/-- `MemRead` of a defined byte is that byte. -/
theorem State.readByte_of_defined {s : State} {b sl o : Nat} {v : Byte} (h : s.slotByte? b sl o = some v) :
    s.readByte b sl o = v := by
  simp [State.readByte, h]

@[simp] theorem State.length_readBytes (s : State) (b sl n : Nat) : (s.readBytes b sl n).length = n := by
  simp [State.readBytes]

/-- Each byte of a list read is the byte at its offset where that is defined. -/
theorem State.getElem?_readBytes {s : State} {b sl n i : Nat} {v : Byte} (hi : i < n) (h : s.slotByte? b sl i = some v) :
    (s.readBytes b sl n)[i]? = some v := by
  simp [State.readBytes, hi, State.readByte_of_defined h]

end Sys2Proof.Machine
end

