-- ==== Sys2Proof/Laws/Pool.lean ====
section
/-! SUPPORT. The pool: what `slot_owner`, `free_list` and `in_use` are after each operation, what `pool_take` answers, and that the pool
invariant of R27 is kept. -/

namespace Sys2Proof.Machine

/-! ## Looking at the pool -/

theorem State.owner?_congr {s t : State} (h : t.pool = s.pool) (b sl : Nat) : t.owner? b sl = s.owner? b sl := by
  simp only [State.owner?, h]

theorem State.freeList_congr {s t : State} (h : t.pool = s.pool) (b : Nat) : t.freeList b = s.freeList b := by
  simp only [State.freeList, h]

theorem State.inUse_congr {s t : State} (h : t.pool = s.pool) (b : Nat) : t.inUse b = s.inUse b := by
  simp only [State.inUse, h]

theorem State.owner?_eq {s : State} {b sl : Nat} {B : Bin} (h : s.pool[b]? = some B) : s.owner? b sl = B.owner[sl]? := by
  simp only [State.owner?, h]

theorem State.freeList_eq {s : State} {b : Nat} {B : Bin} (h : s.pool[b]? = some B) : s.freeList b = B.free := by
  simp only [State.freeList, h]

theorem State.inUse_eq {s : State} {b : Nat} {B : Bin} (h : s.pool[b]? = some B) : s.inUse b = B.inUse := by
  simp only [State.inUse, h]

/-- A slot that has an owner is a slot of a bin. -/
theorem State.exists_bin_of_owner {s : State} {b sl : Nat} {o : Owner} (h : s.owner? b sl = some o) :
    ∃ B, s.pool[b]? = some B ∧ B.owner[sl]? = some o ∧ sl < B.owner.length := by
  unfold State.owner? at h
  split at h
  · next B hB => exact ⟨B, hB, h, (List.getElem?_eq_some_iff.1 h).1⟩
  · cases h

/-- `valid_ext` says the handle is in range, the slot is an external agent's, the length is within the slot (R33). -/
theorem State.validExt_iff {s : State} {d : Desc} : s.validExt d = true ↔
    d.bin.toNat < s.conf.bins.length ∧ d.slot.toNat < s.conf.binCount d.bin.toNat ∧
      s.owner? d.bin.toNat d.slot.toNat = some .ext ∧ d.len.toNat ≤ s.conf.binSize d.bin.toNat := by
  simp [State.validExt, State.validHandle, State.ownedExt, and_assoc]

/-! ## A bin changed in place -/

theorem State.pool_modifyBin_self {s : State} {b : Nat} {B : Bin} (f : Bin → Bin) (h : s.pool[b]? = some B) :
    (s.modifyBin b f).pool[b]? = some (f B) := by
  simp [h]

theorem State.pool_modifyBin_ne (s : State) {b b' : Nat} (f : Bin → Bin) (h : b' ≠ b) :
    (s.modifyBin b f).pool[b']? = s.pool[b']? := by
  simp [h.symm]

theorem State.owner?_modifyBin_ne (s : State) {b b' : Nat} (f : Bin → Bin) (sl : Nat) (h : b' ≠ b) :
    (s.modifyBin b f).owner? b' sl = s.owner? b' sl := by
  simp only [State.owner?, State.pool_modifyBin_ne s f h]

theorem State.freeList_modifyBin_ne (s : State) {b b' : Nat} (f : Bin → Bin) (h : b' ≠ b) :
    (s.modifyBin b f).freeList b' = s.freeList b' := by
  simp only [State.freeList, State.pool_modifyBin_ne s f h]

theorem State.inUse_modifyBin_ne (s : State) {b b' : Nat} (f : Bin → Bin) (h : b' ≠ b) :
    (s.modifyBin b f).inUse b' = s.inUse b' := by
  simp only [State.inUse, State.pool_modifyBin_ne s f h]

/-! ## Owner tags -/

/-- What setting an owner tag does to owner tags. -/
theorem State.owner?_setOwner {s : State} {b sl : Nat} (o : Owner) (h : s.owner? b sl ≠ none) (b' sl' : Nat) :
    (s.setOwner b sl o).owner? b' sl' = if b' = b ∧ sl' = sl then some o else s.owner? b' sl' := by
  obtain ⟨o0, h⟩ := Option.ne_none_iff_exists'.1 h
  obtain ⟨B, hB, -, hlt⟩ := State.exists_bin_of_owner h
  by_cases hb : b' = b
  · subst hb
    rw [State.setOwner, State.owner?_eq (State.pool_modifyBin_self _ hB), State.owner?_eq hB]
    by_cases hsl : sl' = sl
    · subst hsl; simp [hlt]
    · simp [hsl, Ne.symm hsl]
  · rw [State.setOwner, State.owner?_modifyBin_ne s _ _ hb]; simp [hb]

@[simp] theorem State.freeList_setOwner (s : State) (b sl : Nat) (o : Owner) (b' : Nat) :
    (s.setOwner b sl o).freeList b' = s.freeList b' := by
  by_cases hb : b' = b
  · subst hb
    cases h : s.pool[b']? with
    | none => simp [State.freeList, h]
    | some B => rw [State.setOwner, State.freeList_eq (State.pool_modifyBin_self _ h), State.freeList_eq h]
  · exact State.freeList_modifyBin_ne s _ hb

@[simp] theorem State.inUse_setOwner (s : State) (b sl : Nat) (o : Owner) (b' : Nat) :
    (s.setOwner b sl o).inUse b' = s.inUse b' := by
  by_cases hb : b' = b
  · subst hb
    cases h : s.pool[b']? with
    | none => simp [State.inUse, h]
    | some B => rw [State.setOwner, State.inUse_eq (State.pool_modifyBin_self _ h), State.inUse_eq h]
  · exact State.inUse_modifyBin_ne s _ hb

/-! ## Taking a slot -/

/-- A bin with a free slot is a bin of the pool. -/
theorem State.exists_bin_of_freeList {s : State} {b sl : Nat} {rest : List Nat} (h : s.freeList b = sl :: rest) :
    ∃ B, s.pool[b]? = some B ∧ B.free = sl :: rest := by
  unfold State.freeList at h
  split at h
  · next B hB => exact ⟨B, hB, h⟩
  · cases h

@[simp] theorem State.owner?_takeSlot (s : State) (b sl : Nat) (rest : List Nat) (b' sl' : Nat) :
    (s.takeSlot b sl rest).owner? b' sl' = s.owner? b' sl' := by
  by_cases hb : b' = b
  · subst hb
    cases h : s.pool[b']? with
    | none => simp [State.owner?, h]
    | some B => simp [State.owner?, h, Bin.take]
  · simp [State.owner?, Ne.symm hb]

theorem State.freeList_takeSlot {s : State} {b : Nat} {B : Bin} (h : s.pool[b]? = some B) (sl : Nat) (rest : List Nat) (b' : Nat) :
    (s.takeSlot b sl rest).freeList b' = if b' = b then rest else s.freeList b' := by
  by_cases hb : b' = b
  · subst hb; simp [State.freeList, h, Bin.take]
  · simp [State.freeList, hb, Ne.symm hb]

theorem State.inUse_takeSlot {s : State} {b : Nat} {B : Bin} (h : s.pool[b]? = some B) (sl : Nat) (rest : List Nat) (b' : Nat) :
    (s.takeSlot b sl rest).inUse b' = if b' = b then s.inUse b + 1 else s.inUse b' := by
  by_cases hb : b' = b
  · subst hb; simp [State.inUse, h, Bin.take]
  · simp [State.inUse, hb, Ne.symm hb]

/-- Everything `pool_take` can answer: a slot at the head of the free list of the best-fit bin, or `None` when that bin does not exist or
is empty (R123). -/
theorem State.poolTake_eq_some {s : State} {n b sl : Nat} {s' : State} : s.poolTake n = some (b, sl, s') ↔
    s.conf.bestBin n = some b ∧ ∃ rest, s.freeList b = sl :: rest ∧ s' = s.takeSlot b sl rest := by
  unfold State.poolTake
  cases h : s.conf.bestBin n with
  | none => simp
  | some b0 =>
    cases h2 : s.freeList b0 with
    | nil =>
      simp only [h2, reduceCtorEq, Option.some.injEq, false_iff, not_and]
      rintro rfl ⟨rest, hr, -⟩
      rw [h2] at hr; cases hr
    | cons x xs =>
      simp only [h2, Option.some.injEq, Prod.mk.injEq]
      constructor
      · rintro ⟨rfl, rfl, rfl⟩; exact ⟨rfl, xs, h2, rfl⟩
      · rintro ⟨rfl, rest, hr, rfl⟩
        rw [h2] at hr; cases hr
        exact ⟨rfl, rfl, rfl⟩

theorem State.poolTake_eq_none {s : State} {n : Nat} :
    s.poolTake n = none ↔ ∀ b, s.conf.bestBin n = some b → s.freeList b = [] := by
  unfold State.poolTake
  cases h : s.conf.bestBin n with
  | none => simp
  | some b0 => cases h2 : s.freeList b0 <;> simp [h2]

/-! ## Giving a slot back -/

theorem State.owner?_poolGive {s : State} {b sl : Nat} (h : s.owner? b sl ≠ none) (b' sl' : Nat) :
    (s.poolGive b sl).owner? b' sl' = if b' = b ∧ sl' = sl then some .free else s.owner? b' sl' := by
  rw [← State.owner?_setOwner .free h]
  obtain ⟨o0, h⟩ := Option.ne_none_iff_exists'.1 h
  obtain ⟨B, hB, -⟩ := State.exists_bin_of_owner h
  by_cases hb : b' = b
  · subst hb
    rw [State.poolGive, State.setOwner, State.owner?_eq (State.pool_modifyBin_self _ hB), State.owner?_eq (State.pool_modifyBin_self _ hB)]
    rfl
  · rw [State.setOwner, State.poolGive, State.owner?_modifyBin_ne s _ _ hb, State.owner?_modifyBin_ne s _ _ hb]

theorem State.freeList_poolGive {s : State} {b : Nat} {B : Bin} (h : s.pool[b]? = some B) (sl b' : Nat) :
    (s.poolGive b sl).freeList b' = if b' = b then sl :: s.freeList b else s.freeList b' := by
  by_cases hb : b' = b
  · subst hb; simp [State.freeList, h, Bin.give]
  · simp [State.freeList, hb, Ne.symm hb]

theorem State.inUse_poolGive {s : State} {b : Nat} {B : Bin} (h : s.pool[b]? = some B) (sl b' : Nat) :
    (s.poolGive b sl).inUse b' = if b' = b then s.inUse b - 1 else s.inUse b' := by
  by_cases hb : b' = b
  · subst hb; simp [State.inUse, h, Bin.give]
  · simp [State.inUse, hb, Ne.symm hb]

/-! ## The pool invariant -/

/-- The bin of a bin index, with its invariant. -/
theorem State.PoolInv.bin {s : State} (h : s.PoolInv) {b : Nat} {B : Bin} (hB : s.pool[b]? = some B) :
    b < s.conf.bins.length ∧ B.Ok (s.conf.binCount b) := by
  obtain ⟨hb, rfl⟩ := List.getElem?_eq_some_iff.1 hB
  exact ⟨h.1 ▸ hb, h.2 b hb⟩

theorem State.PoolInv.exists_bin {s : State} (h : s.PoolInv) {b : Nat} (hb : b < s.conf.bins.length) :
    ∃ B, s.pool[b]? = some B ∧ B.Ok (s.conf.binCount b) := by
  have hb' : b < s.pool.length := h.1 ▸ hb
  exact ⟨_, List.getElem?_eq_getElem hb', h.2 b hb'⟩

/-- The slot at the head of a free list exists, is `FREE`, and is on the list once. -/
theorem State.PoolInv.head {s : State} (h : s.PoolInv) {b sl : Nat} {rest : List Nat} (hf : s.freeList b = sl :: rest) :
    s.owner? b sl = some .free ∧ sl < s.conf.binCount b ∧ sl < 256 ∧ b < s.conf.bins.length := by
  obtain ⟨B, hB, hfree⟩ := State.exists_bin_of_freeList hf
  obtain ⟨hb, hlen, -, -, hown, -⟩ := h.bin hB
  have := hown sl (by simp [hfree])
  have hlt := (List.getElem?_eq_some_iff.1 this).1
  have hle := Cfg.binCount_le s.cfg.property b
  refine ⟨by rw [State.owner?_eq hB, this], by omega, ?_, hb⟩
  change s.conf.binCount b ≤ 256 at hle
  omega

/-- The pool invariant is kept when one bin is replaced by another that satisfies it. -/
theorem State.PoolInv.of_modifyBin {s : State} (h : s.PoolInv) (b : Nat) (f : Bin → Bin)
    (hf : ∀ B, s.pool[b]? = some B → B.Ok (s.conf.binCount b) → (f B).Ok (s.conf.binCount b)) : (s.modifyBin b f).PoolInv := by
  refine ⟨by simpa using h.1, fun b' hb' => ?_⟩
  simp only [State.modifyBin_pool, List.length_modify] at hb'
  simp only [State.modifyBin_pool, State.modifyBin_conf, List.getElem_modify]
  split
  · next he => subst he; exact hf _ (List.getElem?_eq_getElem hb') (h.2 _ hb')
  · exact h.2 _ hb'

theorem State.PoolInv.congr {s t : State} (hp : t.pool = s.pool) (hc : t.cfg = s.cfg) (h : s.PoolInv) : t.PoolInv := by
  have hcf : t.conf = s.conf := by rw [State.conf, State.conf, hc]
  refine ⟨by rw [hp, hcf]; exact h.1, fun b hb => ?_⟩
  have hb' : b < s.pool.length := hp ▸ hb
  have : t.pool[b] = s.pool[b] := by simp only [hp]
  rw [this, hcf]
  exact h.2 b hb'

/-- A bin with a taken slot's owner set keeps its invariant: `pool_take` and the caller's write of the owner together (R27, R123). -/
theorem Bin.Ok.take {count : Nat} {B : Bin} (h : B.Ok count) {sl : Nat} {rest : List Nat} (hf : B.free = sl :: rest)
    {o : Owner} (ho : o ≠ .free) : Bin.Ok count { B.take rest with owner := B.owner.set sl o } := by
  obtain ⟨h1, h3, h4, h5, h6⟩ := h
  rw [hf] at h3 h4 h5 h6
  obtain ⟨hn1, hn2⟩ := List.nodup_cons.1 h4
  simp only [List.length_cons] at h3
  refine ⟨by simpa [Bin.take] using h1, by simp only [Bin.take]; omega, hn2, ?_, ?_⟩
  · intro x hx
    have hne : sl ≠ x := fun he => hn1 (he ▸ hx)
    simpa [Bin.take, List.getElem?_set, hne] using h5 x (List.mem_cons_of_mem _ hx)
  · intro x hx hox
    by_cases hne : sl = x
    · subst hne
      have hlt : sl < B.owner.length := h1 ▸ hx
      simp [hlt, ho] at hox
    · simp only [List.getElem?_set, hne, if_false] at hox
      rcases List.mem_cons.1 (h6 x hx hox) with h | h
      · exact absurd h.symm hne
      · exact h

/-- A bin given back a slot that is not free keeps its invariant (R27, R127). -/
theorem Bin.Ok.give {count : Nat} {B : Bin} (h : B.Ok count) {sl : Nat} {o : Owner} (hs : B.owner[sl]? = some o) (ho : o ≠ .free) :
    (B.give sl).Ok count := by
  obtain ⟨h1, h3, h4, h5, h6⟩ := h
  have hlt : sl < B.owner.length := (List.getElem?_eq_some_iff.1 hs).1
  have hnot : sl ∉ B.free := fun hm => ho (by simpa [hs] using h5 sl hm)
  have hpos : B.free.length < count := by
    have hsub : (sl :: B.free) ⊆ List.range count := by
      intro x hx
      rcases List.mem_cons.1 hx with rfl | hx
      · simpa using h1 ▸ hlt
      · simpa using h1 ▸ (List.getElem?_eq_some_iff.1 (h5 x hx)).1
    have := ((List.nodup_cons.2 ⟨hnot, h4⟩).subperm hsub).length_le
    simpa using this
  refine ⟨by simpa [Bin.give] using h1, ?_, List.nodup_cons.2 ⟨hnot, h4⟩, ?_, ?_⟩
  · simp only [Bin.give, List.length_cons]; omega
  · intro x hx
    by_cases hne : sl = x
    · subst hne; simp [Bin.give, hlt]
    · have := h5 x ((List.mem_cons.1 hx).resolve_left (Ne.symm hne))
      simpa [Bin.give, List.getElem?_set, hne] using this
  · intro x hx hox
    by_cases hne : sl = x
    · subst hne; exact List.mem_cons_self
    · simp only [Bin.give, List.getElem?_set, hne, if_false] at hox
      exact List.mem_cons_of_mem _ (h6 x hx hox)

/-- A bin with an owner tag changed between two values that are not `FREE` keeps its invariant. -/
theorem Bin.Ok.setOwner {count : Nat} {B : Bin} (h : B.Ok count) {sl : Nat} {o o' : Owner} (hs : B.owner[sl]? = some o) (ho : o ≠ .free)
    (ho' : o' ≠ .free) : Bin.Ok count { B with owner := B.owner.set sl o' } := by
  obtain ⟨h1, h3, h4, h5, h6⟩ := h
  have hlt : sl < B.owner.length := (List.getElem?_eq_some_iff.1 hs).1
  have hnot : sl ∉ B.free := fun hm => ho (by simpa [hs] using h5 sl hm)
  refine ⟨by simpa using h1, h3, h4, ?_, ?_⟩
  · intro x hx
    have hne : sl ≠ x := fun he => hnot (he ▸ hx)
    simpa [List.getElem?_set, hne] using h5 x hx
  · intro x hx hox
    by_cases hne : sl = x
    · subst hne; simp [hlt, ho'] at hox
    · simp only [List.getElem?_set, hne, if_false] at hox
      exact h6 x hx hox

/-- Setting the owner of a slot that is not free, to a value that is not `FREE`, keeps the pool invariant. -/
theorem State.PoolInv.setOwner {s : State} (h : s.PoolInv) {b sl : Nat} {o o' : Owner} (hs : s.owner? b sl = some o) (ho : o ≠ .free)
    (ho' : o' ≠ .free) : (s.setOwner b sl o').PoolInv := by
  refine h.of_modifyBin b _ fun B hB hok => hok.setOwner (o := o) ?_ ho ho'
  rwa [State.owner?_eq hB] at hs

/-- `pool_give` of a slot that is not free keeps the pool invariant (R27, R127). -/
theorem State.PoolInv.poolGive {s : State} (h : s.PoolInv) {b sl : Nat} {o : Owner} (hs : s.owner? b sl = some o) (ho : o ≠ .free) :
    (s.poolGive b sl).PoolInv := by
  refine h.of_modifyBin b _ fun B hB hok => hok.give (o := o) ?_ ho
  rwa [State.owner?_eq hB] at hs

/-- `pool_take` followed by the caller's write of the owner keeps the pool invariant (R27, R123). -/
theorem State.PoolInv.take {s : State} (h : s.PoolInv) {b sl : Nat} {rest : List Nat} (hf : s.freeList b = sl :: rest) {o : Owner}
    (ho : o ≠ .free) : ((s.takeSlot b sl rest).setOwner b sl o).PoolInv := by
  obtain ⟨B, hB, hfree⟩ := State.exists_bin_of_freeList hf
  have hp : ((s.takeSlot b sl rest).setOwner b sl o).pool =
      (s.modifyBin b fun B => { B.take rest with owner := B.owner.set sl o }).pool := by
    simp only [State.setOwner_pool, State.takeSlot_pool, State.modifyBin_pool, List.modify_modify_eq, Function.comp_def, Bin.take]
  refine State.PoolInv.congr hp rfl (h.of_modifyBin b _ fun B' hB' hok => ?_)
  rw [hB] at hB'; cases hB'
  exact hok.take hfree ho

/-! ## What taking and giving do, said once -/

/-- `pool_take` by the words of R120 and R123: the head of the free list of the smallest bin that fits. -/
theorem State.poolTake_of_bestFit {s : State} {n b sl : Nat} {rest : List Nat} {k : BinCfg} (h1 : s.conf.bins[b]? = some k)
    (h2 : n ≤ k.size) (h3 : ∀ b' < b, ∀ k', s.conf.bins[b']? = some k' → k'.size < n) (h4 : s.freeList b = sl :: rest) :
    s.poolTake n = some (b, sl, s.takeSlot b sl rest) :=
  State.poolTake_eq_some.2 ⟨Cfg.bestBin_eq_some.2 ⟨k, h1, h2, h3⟩, rest, h4, rfl⟩

/-- `pool_take` answers `None` when the smallest bin that fits, if there is one, has no free slot (R121). -/
theorem State.poolTake_of_noFit {s : State} {n : Nat} (h : ∀ b k, s.conf.bins[b]? = some k → n ≤ k.size →
    (∀ b' < b, ∀ k', s.conf.bins[b']? = some k' → k'.size < n) → s.freeList b = []) : s.poolTake n = none :=
  State.poolTake_eq_none.2 fun b hb => by
    obtain ⟨k, h1, h2, h3⟩ := Cfg.bestBin_eq_some.1 hb
    exact h b k h1 h2 h3

/-- Everything taking a slot and setting its owner does: to owners, free lists, counts and slot memory (R123, R27, R28). -/
theorem State.takeSlot_setOwner_spec {s : State} (hp : s.PoolInv) {b sl : Nat} {rest : List Nat} (hf : s.freeList b = sl :: rest)
    (o : Owner) :
    let t := (s.takeSlot b sl rest).setOwner b sl o
    t.owner? b sl = some o ∧ t.freeList b = rest ∧ t.inUse b = s.inUse b + 1 ∧
      (∀ b' sl', (b', sl') ≠ (b, sl) → t.owner? b' sl' = s.owner? b' sl') ∧
      (∀ b', b' ≠ b → t.freeList b' = s.freeList b' ∧ t.inUse b' = s.inUse b') ∧
      (∀ x < s.conf.binSize b, t.slotByte? b sl x = none) ∧
      ∀ b' sl' x, sl' < 256 → x < 65536 → (b', sl') ≠ (b, sl) → t.slotByte? b' sl' x = s.slotByte? b' sl' x := by
  obtain ⟨h1, -, h3, -⟩ := hp.head hf
  obtain ⟨B, hB, -⟩ := State.exists_bin_of_freeList hf
  have hne : (s.takeSlot b sl rest).owner? b sl ≠ none := by simp [h1]
  have hsz := Cfg.binSize_lt s.cfg.property b
  intro t
  refine ⟨?_, ?_, ?_, ?_, ?_, ?_, ?_⟩
  · simp [t, State.owner?_setOwner o hne]
  · simp [t, State.freeList_takeSlot hB]
  · simp [t, State.inUse_takeSlot hB]
  · intro b' sl' h
    have : ¬(b' = b ∧ sl' = sl) := by simpa using h
    simp [t, State.owner?_setOwner o hne, this]
  · intro b' h
    simp [t, State.freeList_takeSlot hB, State.inUse_takeSlot hB, h]
  · intro x hx
    show (s.takeSlot b sl rest).slotByte? b sl x = _
    rw [State.slotByte?_takeSlot s rest h3 hsz h3 (by change _ < Cfg.binSize s.cfg.val b at hx; omega)]
    simp [hx]
  · intro b' sl' x h5 h6 h
    show (s.takeSlot b sl rest).slotByte? b' sl' x = _
    rw [State.slotByte?_takeSlot s rest h3 hsz h5 h6, if_neg]
    have : ¬(b' = b ∧ sl' = sl) := by simpa using h
    tauto

/-- Everything `pool_give` does: to owners, free lists and counts (R127). -/
theorem State.poolGive_spec {s : State} {b sl : Nat} {B : Bin} {o : Owner} (hB : s.pool[b]? = some B) (ho : B.owner[sl]? = some o) :
    (s.poolGive b sl).owner? b sl = some .free ∧ (s.poolGive b sl).freeList b = sl :: B.free ∧
      (s.poolGive b sl).inUse b = B.inUse - 1 ∧
      (∀ b' sl', (b', sl') ≠ (b, sl) → (s.poolGive b sl).owner? b' sl' = s.owner? b' sl') ∧
      ∀ b', b' ≠ b → (s.poolGive b sl).freeList b' = s.freeList b' ∧ (s.poolGive b sl).inUse b' = s.inUse b' := by
  have hne : s.owner? b sl ≠ none := by rw [State.owner?_eq hB, ho]; simp
  refine ⟨by simp [State.owner?_poolGive hne], by simp [State.freeList_poolGive hB, State.freeList_eq hB],
    by simp [State.inUse_poolGive hB, State.inUse_eq hB], ?_, ?_⟩
  · intro b' sl' h
    have : ¬(b' = b ∧ sl' = sl) := by simpa using h
    simp [State.owner?_poolGive hne, this]
  · intro b' h
    simp [State.freeList_poolGive hB, State.inUse_poolGive hB, h]

/-- A slot with an owner is a slot of the configuration, and its number fits in a byte. -/
theorem State.PoolInv.slot_lt {s : State} (h : s.PoolInv) {b sl : Nat} {o : Owner} (ho : s.owner? b sl = some o) :
    b < s.conf.bins.length ∧ sl < s.conf.binCount b ∧ sl < 256 := by
  obtain ⟨B, hB, -, hlt⟩ := State.exists_bin_of_owner ho
  obtain ⟨h1, h2⟩ := h.bin hB
  have := Cfg.binCount_le s.cfg.property b
  rw [h2.1] at hlt
  exact ⟨h1, hlt, by change s.conf.binCount b ≤ 256 at this; omega⟩

end Sys2Proof.Machine
end

