-- ==== Sys2Proof/Laws/Ops.lean ====
section
/-! SUPPORT. What the shared operations can do: halting, responses, the ports and the arbiter. -/

namespace Sys2Proof.Machine

/-! ## Halting and answering -/

@[simp] theorem State.unlessHalted_of_running {s : State} (h : s.fatal = false) (r : Result) : s.unlessHalted r = r := by
  simp [State.unlessHalted, h]

@[simp] theorem State.unlessHalted_of_halted {s : State} (h : s.fatal = true) (r : Result) : s.unlessHalted r = .next s := by
  simp [State.unlessHalted, h, State.hold]

/-- Everything an operation under `unlessHalted` can do: nothing while the block is halted, its own effect otherwise (R263). -/
theorem State.unlessHalted_eq_next {s t : State} {r : Result} (h : s.unlessHalted r = .next t) :
    (s.fatal = true ∧ t = s) ∨ (s.fatal = false ∧ r = .next t) := by
  cases hf : s.fatal with
  | true => rw [State.unlessHalted_of_halted hf] at h; cases h; exact .inl ⟨rfl, rfl⟩
  | false => rw [State.unlessHalted_of_running hf] at h; exact .inr ⟨rfl, h⟩

/-- `return` always answers a next state, that of `complete` (R11, R92). -/
theorem State.respond_eq_next {s t : State} {st : Status} {aux : Byte} {data : Quad} :
    s.respond st aux data = .next t ↔ t = s.complete st aux data := by
  simp [State.respond, eq_comm]

/-- Taking the fatal fault always answers a next state: halted, answered with the fault's code (R262). -/
theorem State.raiseFatal_eq_next {s t : State} {st : Status} {d : Desc} :
    s.raiseFatal st d = .next t ↔ t = (s.halt st d).complete st 0 0 := by
  simp [State.raiseFatal, State.respond, eq_comm]

/-! ## The ports -/

@[simp] theorem Env.length_drop_cmd (e : Env) (p : Port) : (e.drop p).cmd.length = e.cmd.length := by
  cases p <;> simp [Env.drop, dropHead]

@[simp] theorem Env.length_retire_cmd (e : Env) : e.retire.cmd.length = e.cmd.length := Env.length_drop_cmd e e.active

@[simp] theorem Env.drop_active (e : Env) (p : Port) : (e.drop p).active = e.active := by cases p <;> rfl
@[simp] theorem Env.drop_turns (e : Env) (p : Port) : (e.drop p).turns = e.turns := by cases p <;> rfl
@[simp] theorem Env.drop_verdicts (e : Env) (p : Port) : (e.drop p).verdicts = e.verdicts := by cases p <;> rfl
@[simp] theorem Env.drop_draws (e : Env) (p : Port) : (e.drop p).draws = e.draws := by cases p <;> rfl

@[simp] theorem Env.drop_fills (e : Env) (p : Port) : (e.drop p).fills = e.fills := by cases p <;> rfl

/-- Discarding an operation and drawing for a taken slot do not meet. -/
theorem Env.drop_drawFill (e : Env) (b sl : Nat) (p : Port) : (e.drawFill b sl).drop p = (e.drop p).drawFill b sl := by cases p <;> rfl
@[simp] theorem Env.retire_drawFill (e : Env) (b sl : Nat) : (e.drawFill b sl).retire = e.retire.drawFill b sl := Env.drop_drawFill e b sl _

/-- Completing an operation that took a slot: as without the draw, but for the draw counter and the draws that stand for undefined bytes. -/
theorem Env.retire_drawFill_eq (e : Env) (b sl : Nat) :
    (e.drawFill b sl).retire = { e.retire with draws := (e.drawFill b sl).retire.draws, fills := (e.drawFill b sl).retire.fills } := by
  rw [Env.retire_drawFill]; rfl

@[simp] theorem Env.drawFill_active (e : Env) (b sl : Nat) : (e.drawFill b sl).active = e.active := rfl
@[simp] theorem Env.drawFill_cmd (e : Env) (b sl : Nat) : (e.drawFill b sl).cmd = e.cmd := rfl
@[simp] theorem Env.drawFill_ser (e : Env) (b sl : Nat) : (e.drawFill b sl).ser = e.ser := rfl
@[simp] theorem Env.drawFill_trdy (e : Env) (b sl : Nat) : (e.drawFill b sl).trdy = e.trdy := rfl
@[simp] theorem Env.drawFill_tick (e : Env) (b sl : Nat) : (e.drawFill b sl).tick = e.tick := rfl
@[simp] theorem Env.drawFill_rst (e : Env) (b sl : Nat) : (e.drawFill b sl).rst = e.rst := rfl
@[simp] theorem Env.drawFill_turns (e : Env) (b sl : Nat) : (e.drawFill b sl).turns = e.turns := rfl
@[simp] theorem Env.drawFill_verdicts (e : Env) (b sl : Nat) : (e.drawFill b sl).verdicts = e.verdicts := rfl

/-- A draw made by the operation and its end do not disturb one another. -/
theorem Env.retire_with_draws (e : Env) (n : Nat) : Env.retire { e with draws := n } = { e.retire with draws := n } := by
  have h : ∀ p, Env.drop { e with draws := n } p = { e.drop p with draws := n } := by intro p; cases p <;> rfl
  exact h e.active

/-- A verdict used by the operation and its end do not disturb one another. -/
theorem Env.retire_with_verdicts (e : Env) (l : List Bool) : Env.retire { e with verdicts := l } = { e.retire with verdicts := l } := by
  have h : ∀ p, Env.drop { e with verdicts := l } p = { e.drop p with verdicts := l } := by intro p; cases p <;> rfl
  exact h e.active

/-- What an operation's end leaves of each command port (R92). -/
theorem Env.getElem?_drop_cmd (e : Env) (p : Port) (j : Nat) :
    (e.drop p).cmd[j]? = if p = .cmd j then e.cmd[j]?.map List.tail else e.cmd[j]? := by
  cases p with
  | cmd k =>
    by_cases h : k = j
    · subst h; simp [Env.drop, dropHead]
    · simp [Env.drop, dropHead, h]
  | _ => simp [Env.drop]

theorem Env.drop_ser (e : Env) (p : Port) : (e.drop p).ser = if p = .serRx then e.ser.tail else e.ser := by cases p <;> simp [Env.drop]
theorem Env.drop_trdy (e : Env) (p : Port) : (e.drop p).trdy = if p = .trdyIn then e.trdy - 1 else e.trdy := by
  cases p <;> simp [Env.drop]
theorem Env.drop_tick (e : Env) (p : Port) : (e.drop p).tick = if p = .tickIn then e.tick - 1 else e.tick := by
  cases p <;> simp [Env.drop]
theorem Env.drop_rst (e : Env) (p : Port) : (e.drop p).rst = if p = .rstIn then e.rst - 1 else e.rst := by cases p <;> simp [Env.drop]

/-- The four event ports are ports of the block; a command port is one when it exists (R97). -/
theorem State.mem_ports {s : State} {p : Port} : p ∈ s.ports ↔ ∀ k, p = .cmd k → k < s.env.cmd.length := by
  cases p <;> simp [State.ports]

/-- Only an existing port has an outstanding operation. -/
theorem State.mem_ports_of_headOp {s : State} {p : Port} (h : s.headOp p ≠ none) : p ∈ s.ports := by
  rw [State.mem_ports]
  rintro k rfl
  by_contra hk
  exact h (by simp [State.headOp, List.getElem?_eq_none (Nat.le_of_not_lt hk)])

@[simp] theorem Env.afterChoice_cmd (e : Env) (n : Nat) (p : Port) : (e.afterChoice n p).cmd = e.cmd := by
  unfold Env.afterChoice; split <;> (try split) <;> rfl
@[simp] theorem Env.afterChoice_ser (e : Env) (n : Nat) (p : Port) : (e.afterChoice n p).ser = e.ser := by
  unfold Env.afterChoice; split <;> (try split) <;> rfl
@[simp] theorem Env.afterChoice_trdy (e : Env) (n : Nat) (p : Port) : (e.afterChoice n p).trdy = e.trdy := by
  unfold Env.afterChoice; split <;> (try split) <;> rfl
@[simp] theorem Env.afterChoice_tick (e : Env) (n : Nat) (p : Port) : (e.afterChoice n p).tick = e.tick := by
  unfold Env.afterChoice; split <;> (try split) <;> rfl
@[simp] theorem Env.afterChoice_rst (e : Env) (n : Nat) (p : Port) : (e.afterChoice n p).rst = e.rst := by
  unfold Env.afterChoice; split <;> (try split) <;> rfl
@[simp] theorem Env.afterChoice_verdicts (e : Env) (n : Nat) (p : Port) : (e.afterChoice n p).verdicts = e.verdicts := by
  unfold Env.afterChoice; split <;> (try split) <;> rfl
@[simp] theorem Env.afterChoice_active (e : Env) (n : Nat) (p : Port) : (e.afterChoice n p).active = p := by
  unfold Env.afterChoice; split <;> (try split) <;> rfl

@[simp] theorem State.length_ports (s : State) : s.ports.length = s.env.cmd.length + 4 := by simp [State.ports]

/-- No port is listed twice. -/
theorem State.nodup_ports (s : State) : s.ports.Nodup := by
  refine List.nodup_append.2 ⟨?_, by decide, ?_⟩
  · exact List.nodup_range.map fun a b h => by cases h; rfl
  · rintro a ha b hb rfl
    simp only [List.mem_map] at ha
    obtain ⟨k, -, rfl⟩ := ha
    simp at hb

/-! ## Discarding held operations -/

@[simp] theorem State.dropHeld_active (s : State) (l : List Port) : ∀ e, (s.dropHeld e l).active = e.active := by
  induction l with
  | nil => intro e; rfl
  | cons p ps ih => intro e; rw [State.dropHeld, ih]; split <;> simp

@[simp] theorem State.length_dropHeld_cmd (s : State) (l : List Port) : ∀ e, (s.dropHeld e l).cmd.length = e.cmd.length := by
  induction l with
  | nil => intro e; rfl
  | cons p ps ih => intro e; rw [State.dropHeld, ih]; split <;> simp

/-- A projection of the ports that only discards at port `q` change, in `dropHeld`: it changes once, if the port's operation is held. -/
theorem State.dropHeld_proj {α : Type} (s : State) (q : Port) (f : Env → α) (g : α → α)
    (hf : ∀ e p, f (e.drop p) = if p = q then g (f e) else f e) (l : List Port) (hl : l.Nodup) : ∀ e,
    f (s.dropHeld e l) = if q ∈ l ∧ s.heldPort q = true ∧ q ≠ s.env.active then g (f e) else f e := by
  induction l with
  | nil => intro e; simp [State.dropHeld]
  | cons p ps ih =>
    intro e
    obtain ⟨h1, h2⟩ := List.nodup_cons.1 hl
    rw [State.dropHeld, ih h2]
    by_cases hp : p = q
    · subst hp
      by_cases hc : (s.heldPort p && decide (p ≠ s.env.active)) = true
      · have hc' : s.heldPort p = true ∧ p ≠ s.env.active := by simpa using hc
        simp [h1, hc', hf]
      · have hc' : ¬(s.heldPort p = true ∧ p ≠ s.env.active) := by simpa using hc
        simp [h1, hc']
    · have e1 : f (if (s.heldPort p && decide (p ≠ s.env.active)) = true then e.drop p else e) = f e := by
        split
        · rw [hf, if_neg hp]
        · rfl
      rw [e1]
      simp [Ne.symm hp]

/-! ## The arbiter -/

/-- The arbiter's choice is one of the alternatives. -/
theorem Env.choice_lt (e : Env) {n : Nat} (h : 0 < n) : e.choice n < n := by
  unfold Env.choice
  split
  · exact Nat.mod_lt _ h
  · split
    · exact h
    · exact Nat.mod_lt _ h

/-- Everything a grant can be: an enabled port of the block, and the state with only the arbiter's own fields changed (R72). -/
theorem State.grant_eq_some {s s' : State} {p : Port} (h : s.grant = some (p, s')) :
    p ∈ s.ports ∧ s.enabledPort p = true ∧ ∃ n, s' = { s with env := s.env.afterChoice n p } := by
  unfold State.grant at h
  split at h
  · cases h
  · next x xs hx =>
    simp only [Option.some.injEq, Prod.mk.injEq] at h
    obtain ⟨rfl, rfl⟩ := h
    have hlt : s.env.choice (xs.length + 1) < (x :: xs).length := Env.choice_lt _ (Nat.succ_pos _)
    have hm : (x :: xs).getD (s.env.choice (xs.length + 1)) x ∈ x :: xs := by
      rw [List.getD_eq_getElem _ _ hlt]; exact List.getElem_mem hlt
    generalize (x :: xs).getD (s.env.choice (xs.length + 1)) x = y at hm ⊢
    rw [← hx, List.mem_filter] at hm
    exact ⟨hm.1, hm.2, _, rfl⟩

/-- There is no grant exactly when no port has an operation with a step. -/
theorem State.grant_eq_none {s : State} : s.grant = none ↔ ∀ p ∈ s.ports, s.enabledPort p = false := by
  unfold State.grant
  split
  · next h => simpa [List.filter_eq_nil_iff] using h
  · next p ps h =>
    simp only [reduceCtorEq, false_iff, not_forall]
    have := List.mem_filter.1 (h ▸ List.mem_cons_self : p ∈ s.ports.filter s.enabledPort)
    exact ⟨p, this.1, by simp [this.2]⟩

/-- A granted port has an outstanding operation, and it has a step. -/
theorem State.headOp_of_enabledPort {s : State} {p : Port} (h : s.enabledPort p = true) :
    ∃ o, s.headOp p = some o ∧ s.enabledOp o = true := by
  unfold State.enabledPort at h
  split at h
  · next o ho => exact ⟨o, ho, h⟩
  · cases h

end Sys2Proof.Machine
end

