-- ==== Sys2Proof/Laws/Queue.lean ====
section
/-! SUPPORT. The priority queue: which sub-queue `DEQ` serves, and the queued handles after a push and a pop. -/

namespace Sys2Proof.Machine

/-- `DEQ` picks the one non-empty sub-queue whose priority no other non-empty one precedes (R146, R147). -/
theorem State.nextQueue_eq_some {s : State} {q : Nat} {k : QueueCfg} (hk : s.conf.queues[q]? = some k) (hc : 0 < s.qCnt q)
    (h : ∀ j k', s.conf.queues[j]? = some k' → k'.prio < k.prio → s.qCnt j = 0) : s.nextQueue = some q := by
  have hm : q ∈ s.conf.scanOrder := Cfg.mem_scanOrder.2 (List.getElem?_eq_some_iff.1 hk).1
  rw [State.nextQueue, List.find?_eq_some_iff_append]
  obtain ⟨as, bs, he⟩ := List.append_of_mem hm
  refine ⟨by simpa using hc, as, bs, he, fun j hj => ?_⟩
  have hs := Cfg.scanOrder_sorted s.conf
  have hnd : s.conf.scanOrder.Nodup := by
    rw [Cfg.scanOrder, (List.perm_insertionSort _ _).nodup_iff]; exact List.nodup_range
  rw [he] at hs hnd
  have h1 : s.conf.qPrio j ≤ s.conf.qPrio q := (List.pairwise_append.1 hs).2.2 j hj q (by simp)
  have h2 : j ≠ q := (List.nodup_append.1 hnd).2.2 j hj q (by simp)
  have hjl : j < s.conf.queues.length := Cfg.mem_scanOrder.1 (he ▸ by simp [hj])
  have hj' := List.getElem?_eq_getElem hjl
  rw [Cfg.qPrio_eq hk, Cfg.qPrio_eq hj'] at h1
  have hne : s.conf.queues[j].prio ≠ k.prio := by
    intro he
    have a := (Cfg.qidx_eq_some s.cfg.property (p := k.prio)).2 ⟨_, hj', he⟩
    have b := (Cfg.qidx_eq_some s.cfg.property (p := k.prio)).2 ⟨_, hk, rfl⟩
    exact h2 (Option.some.inj (a.symm.trans b))
  have := h j _ hj' (by omega)
  simp [this]

/-- Pushing adds one handle to the queued ones. -/
theorem flatMap_pushQueue (l : List SubQueue) (q : Nat) (d : Desc) (hq : q < l.length) :
    List.Perm ((l.modify q fun Q => { Q with fifo := Q.fifo ++ [d], cnt := Q.cnt + 1 }).flatMap fun Q => Q.fifo.map Desc.handle)
      (d.handle :: l.flatMap fun Q => Q.fifo.map Desc.handle) := by
  induction l generalizing q with
  | nil => simp at hq
  | cons a l ih =>
    cases q with
    | zero =>
      simp only [List.modify_zero_cons, List.flatMap_cons, List.map_append, List.map_cons, List.map_nil, List.append_assoc,
        List.singleton_append]
      exact List.perm_middle
    | succ q =>
      simp only [List.modify_succ_cons, List.flatMap_cons]
      exact ((ih q (by simpa using hq)).append_left _).trans List.perm_middle

/-- Popping removes one handle from the queued ones. -/
theorem flatMap_popQueue (l : List SubQueue) (q : Nat) (Q : SubQueue) (d : Desc) (r : List Desc) (hq : l[q]? = some Q)
    (hQ : Q.fifo = d :: r) :
    List.Perm (l.flatMap fun Q => Q.fifo.map Desc.handle)
      (d.handle :: (l.modify q fun Q => { Q with fifo := Q.fifo.tail, cnt := Q.cnt - 1 }).flatMap fun Q => Q.fifo.map Desc.handle) := by
  induction l generalizing q with
  | nil => simp at hq
  | cons a l ih =>
    cases q with
    | zero =>
      simp at hq; subst hq
      simp [hQ]
    | succ q =>
      simp only [List.modify_succ_cons, List.flatMap_cons]
      exact ((ih q (by simpa using hq)).append_left _).trans List.perm_middle

end Sys2Proof.Machine
end

