-- ==== Sys2Proof/Laws/Invariants.lean ====
section
/-! SUPPORT. The invariants of `Safety.lean` under each shared update, one lemma per update. -/

namespace Sys2Proof.Machine

/-- The queue invariant sees the sub-queues and which slots are owned by the queue. -/
theorem State.QueueInv.congr {s t : State} (h : s.QueueInv) (hq : t.queues = s.queues) (hc : t.cfg = s.cfg)
    (ho : ∀ b sl, t.owner? b sl = some .queue ↔ s.owner? b sl = some .queue) : t.QueueInv := by
  have hcf : t.conf = s.conf := by rw [State.conf, State.conf, hc]
  obtain ⟨h1, h2, h3, h4, h5⟩ := h
  have hqd : t.queued = s.queued := by rw [State.queued, State.queued, hq]
  refine ⟨by rw [hq, hcf, h1], ?_, by rwa [hqd], ?_, ?_⟩
  · intro q hl
    have hl' : q < s.queues.length := hq ▸ hl
    have e : t.queues[q] = s.queues[q] := by simp only [hq]
    rw [e, hcf]; exact h2 q hl'
  · intro x hx; rw [ho]; exact h4 x (hqd ▸ hx)
  · intro b hb sl hsl hx; rw [hqd]; rw [hcf] at hb hsl; exact h5 b hb sl hsl ((ho b sl).1 hx)

/-- The deframer invariant sees the deframer, which slot it owns, and which bytes of that slot are stored. -/
theorem State.DeframerInv.congr {s t : State} (h : s.DeframerInv) (hr : t.rx = s.rx) (hc : t.cfg = s.cfg)
    (ho : ∀ b sl, t.owner? b sl = some .rxd ↔ s.owner? b sl = some .rxd)
    (hm : ∀ b sl, s.owner? b sl = some .rxd → ∀ o < s.rx.len, s.slotByte? b sl o ≠ none → t.slotByte? b sl o ≠ none) : t.DeframerInv := by
  have hcf : t.conf = s.conf := by rw [State.conf, State.conf, hc]
  obtain ⟨h1, h2, h3, h4, h5, h6, h7⟩ := h
  have hlb : t.lengthBytes = s.lengthBytes := by rw [State.lengthBytes, State.lengthBytes, hr, hcf]
  have hH : ∀ x n, n ≤ s.rx.len → s.Holds x n → t.Holds x n := by
    rintro x n hn ⟨a, b, c⟩
    exact ⟨(ho _ _).2 a, by rw [hr, hcf]; exact b, fun o hlt => hm _ _ a o (by omega) (c o hlt)⟩
  have hHd : s.HeaderOk → t.HeaderOk := by
    rintro ⟨a, b, c⟩
    exact ⟨by rw [hlb, hr, hcf]; exact a, by rw [hlb, hcf]; exact b, by rw [hlb, hr, hcf]; exact c⟩
  refine ⟨by rwa [hr], by rwa [hr, hcf], ?_, ?_, ?_, ?_, ?_⟩
  · intro h; rw [hr] at h
    obtain ⟨a, b, c⟩ := h3 h
    exact ⟨by rw [hr, hcf]; exact a, by rw [hr, hcf]; exact b, by rw [State.NoPayload, hr]; exact c⟩
  · intro h; rw [hr] at h
    obtain ⟨a, b, c, d⟩ := h4 h
    exact ⟨by rw [hr, hcf]; exact a, by rw [hlb, hr, hcf]; exact b, by rw [hlb, hr]; exact c, by rw [State.NoPayload, hr]; exact d⟩
  · intro h; rw [hr] at h
    obtain ⟨a, b, c, d, e⟩ := h5 h
    exact ⟨by rw [hr]; exact a, hHd b, by rw [hr]; exact c, by rw [hr]; exact d,
      fun x hx => by rw [hr] at hx ⊢; exact hH _ _ (le_of_lt a) (e x hx)⟩
  · intro h; rw [hr] at h
    obtain ⟨a, b, c, d, e⟩ := h6 h
    exact ⟨by rw [hr, hcf]; exact a, hHd b, by rw [hr]; exact c, by rw [hr]; exact d,
      fun x hx => by rw [hr] at hx ⊢; exact hH _ _ (le_refl _) (e x hx)⟩
  · intro b hb sl hsl hx; rw [hcf] at hb hsl; rw [hr]; exact h7 b hb sl hsl ((ho b sl).1 hx)

theorem State.HaltInv.congr {s t : State} (h : s.HaltInv) (h1 : t.fatal = s.fatal)
    (h2 : t.faultCode = s.faultCode) (h3 : t.faultInfo = s.faultInfo) : t.HaltInv := by
  rw [State.HaltInv, h1, h2, h3]; exact h

/-- An update of nothing the invariants look at keeps them. -/
theorem State.Inv.congr {s t : State} (h : s.Inv) (hc : t.cfg = s.cfg) (hp : t.pool = s.pool) (hm : t.mem = s.mem)
    (hq : t.queues = s.queues) (hr : t.rx = s.rx)
    (hf : t.fatal = s.fatal) (hfc : t.faultCode = s.faultCode) (hfi : t.faultInfo = s.faultInfo)
    (he : t.env.cmd.length = s.env.cmd.length) : t.Inv := by
  obtain ⟨h1, h2, h3, h4, h5, h6⟩ := h
  have ho : ∀ b sl, t.owner? b sl = s.owner? b sl := fun b sl => State.owner?_congr hp b sl
  exact ⟨State.PoolInv.congr hp hc h1, h2.congr hq hc (fun b sl => by rw [ho]),
    h3.congr hr hc (fun b sl => by rw [ho]) (fun b sl _ o _ h => by rwa [State.slotByte?_congr hm]),
    h4.congr hf hfc hfi, by rwa [hm], by rw [he, h6, State.conf, State.conf, hc]⟩

/-- A response keeps the invariants. -/
theorem State.Inv.respond {s t : State} {st : Status} {aux : Byte} {data : Quad} (h : s.Inv) (hr : s.respond st aux data = .next t) : t.Inv := by
  cases hr
  exact h.congr rfl rfl rfl rfl rfl rfl rfl rfl (by simp)

/-- The fatal fault keeps the invariants (R262). -/
theorem State.Inv.raiseFatal {s t : State} {st : Status} {d : Desc} (h : s.Inv) (hst : st = .invalidRelease ∨ st = .invalidBuffer)
    (hr : s.raiseFatal st d = .next t) : t.Inv := by
  cases hr
  obtain ⟨h1, h2, h3, h4, h5, h6⟩ := h
  exact ⟨State.PoolInv.congr (s := s) rfl rfl h1, h2.congr rfl rfl (fun _ _ => Iff.rfl), h3.congr rfl rfl (fun _ _ => Iff.rfl) (fun _ _ _ _ _ h => h),
    ⟨fun h => (by cases h), fun _ => hst.imp (fun h => by rw [← h]; rfl) (fun h => by rw [← h]; rfl)⟩, h5, (Env.length_retire_cmd _).trans h6⟩

/-- `pool_take` for an external agent keeps the invariants (R122, R123). -/
theorem State.Inv.take {s : State} (h : s.Inv) {b sl : Nat} {rest : List Nat} (hf : s.freeList b = sl :: rest) :
    let t := (s.takeSlot b sl rest).setOwner b sl .ext
    t.Inv := by
  intro t
  obtain ⟨h1, h2, h3, h4, h5, h6⟩ := h
  obtain ⟨g1, g2, g3, g4, g5, g6, g7⟩ := State.takeSlot_setOwner_spec h1 hf .ext
  obtain ⟨e1, e2, e3, e4⟩ := h1.head hf
  have ho : ∀ o', o' ≠ .free → o' ≠ .ext → ∀ b' sl', t.owner? b' sl' = some o' ↔ s.owner? b' sl' = some o' := by
    intro o' hn1 hn2 b' sl'
    by_cases hx : (b', sl') = (b, sl)
    · cases hx
      rw [e1, g1]; simp [hn1.symm, hn2.symm]
    · rw [g4 _ _ hx]
  have hmp := Cfg.max_payload s.cfg.property
  refine ⟨h1.take hf (by simp), h2.congr rfl rfl (ho _ (by simp) (by simp)), h3.congr rfl rfl (ho _ (by simp) (by simp)) ?_,
    h4.congr rfl rfl rfl, ?_, h6⟩
  · intro b' sl' hx o hol hs
    have hne : (b', sl') ≠ (b, sl) := by rintro h; cases h; rw [e1] at hx; cases hx
    have := h3.2.1
    change _ ≤ s.cfg.val.maxPayload at this
    rw [g7 _ _ _ (h1.slot_lt hx).2.2 (by omega) hne]; exact hs
  · exact Memory.wf_erase h5 _ _

/-- `pool_give` of an external agent's slot keeps the invariants (R127). -/
theorem State.Inv.give {s : State} (h : s.Inv) {b sl : Nat} (hx : s.owner? b sl = some .ext) : (s.poolGive b sl).Inv := by
  obtain ⟨h1, h2, h3, h4, h5, h6⟩ := h
  have hne : s.owner? b sl ≠ none := by simp [hx]
  have ho : ∀ o', o' ≠ .free → o' ≠ .ext → ∀ b' sl', (s.poolGive b sl).owner? b' sl' = some o' ↔ s.owner? b' sl' = some o' := by
    intro o' hn1 hn2 b' sl'
    rw [State.owner?_poolGive hne]
    split
    · next h => rw [h.1, h.2, hx]; simp [hn1.symm, hn2.symm]
    · rfl
  exact ⟨h1.poolGive hx (by simp), h2.congr rfl rfl (ho _ (by simp) (by simp)), h3.congr rfl rfl (ho _ (by simp) (by simp)) (fun _ _ _ _ _ h => h),
    h4.congr rfl rfl rfl, h5, h6⟩

/-- Storing in an external agent's slot keeps the invariants. -/
theorem State.Inv.store {s : State} (h : s.Inv) {b sl : Nat} (hx : s.owner? b sl = some .ext) (m : Memory) (hwf : Memory.wf m = true)
    (hm : ∀ b' sl' o, sl' < 256 → o < 65536 → (b', sl') ≠ (b, sl) →
      Memory.read? m (slotKey b' sl' o) = s.slotByte? b' sl' o) : ({ s with mem := m } : State).Inv := by
  obtain ⟨h1, h2, h3, h4, h5, h6⟩ := h
  have hmp := Cfg.max_payload s.cfg.property
  refine ⟨State.PoolInv.congr (s := s) rfl rfl h1, h2.congr rfl rfl (fun _ _ => Iff.rfl), h3.congr rfl rfl (fun _ _ => Iff.rfl) ?_,
    h4.congr rfl rfl rfl, hwf, h6⟩
  intro b' sl' hr o hol hs
  have hne : (b', sl') ≠ (b, sl) := by rintro h; cases h; rw [hx] at hr; cases hr
  have := h3.2.1
  change _ ≤ s.cfg.val.maxPayload at this
  show Memory.read? m _ ≠ none
  rw [hm _ _ _ (h1.slot_lt hr).2.2 (by omega) hne]; exact hs

/-- `ENQ`'s effect keeps the invariants (R142). -/
theorem State.Inv.push {s : State} (h : s.Inv) {q : Nat} {d : Desc} (hq : q < s.conf.queues.length) (hc : s.qCnt q < s.conf.qDepth q)
    (hv : s.validExt d = true) : ((s.pushQueue q d).setOwner d.bin.toNat d.slot.toNat .queue).Inv := by
  obtain ⟨h1, h2, h3, h4, h5, h6⟩ := h
  obtain ⟨v1, v2, v3, v4⟩ := State.validExt_iff.1 hv
  have hne : (s.pushQueue q d).owner? d.bin.toNat d.slot.toNat ≠ none := by
    rw [State.owner?_congr (t := s.pushQueue q d) (s := s) rfl]; simp [v3]
  have ho : ∀ b sl, ((s.pushQueue q d).setOwner d.bin.toNat d.slot.toNat .queue).owner? b sl =
      if b = d.bin.toNat ∧ sl = d.slot.toNat then some .queue else s.owner? b sl :=
    fun b sl => State.owner?_setOwner _ hne b sl
  refine ⟨?_, ?_, ?_, h4.congr rfl rfl rfl, h5, h6⟩
  · exact State.PoolInv.congr (s := s.setOwner d.bin.toNat d.slot.toNat .queue) rfl rfl (h1.setOwner v3 (by simp) (by simp))
  · obtain ⟨q1, q2, q3, q4, q5⟩ := h2
    have hql : q < s.queues.length := q1 ▸ hq
    have hp : List.Perm (State.queued ((s.pushQueue q d).setOwner d.bin.toNat d.slot.toNat .queue)) (d.handle :: s.queued) :=
      flatMap_pushQueue s.queues q d hql
    have hnm : d.handle ∉ s.queued := by intro hm; have := q4 _ hm; rw [Desc.handle, v3] at this; cases this
    refine ⟨by simpa using q1, ?_, hp.nodup_iff.2 (List.nodup_cons.2 ⟨hnm, q3⟩), ?_, ?_⟩
    · intro j hj
      simp only [State.setOwner_queues, State.pushQueue_queues, List.length_modify] at hj
      obtain ⟨r1, r2, r3⟩ := q2 j hj
      simp only [State.setOwner_queues, State.pushQueue_queues, List.getElem_modify]
      split
      · next he =>
        subst he
        have hcnt : s.qCnt q = s.queues[q].cnt := by simp [State.qCnt, hj]
        refine ⟨by simp [r1], by show _ ≤ s.conf.qDepth q; simp only; omega, ?_⟩
        intro x hx
        rcases List.mem_append.1 hx with hx | hx
        · exact r3 x hx
        · rw [List.mem_singleton] at hx; subst hx; exact v4
      · exact ⟨r1, r2, r3⟩
    · intro x hx
      rw [hp.mem_iff, List.mem_cons] at hx
      rw [ho]
      rcases hx with rfl | hx
      · simp [Desc.handle]
      · split
        · rfl
        · exact q4 x hx
    · intro b hb sl hsl hx
      rw [hp.mem_iff, List.mem_cons]
      rw [ho] at hx
      split at hx
      · next hc => left; rw [hc.1, hc.2]; rfl
      · right; exact q5 b hb sl hsl hx
  · refine h3.congr rfl rfl ?_ (fun _ _ _ _ _ h => h)
    intro b sl
    rw [ho]; split
    · next hc => rw [hc.1, hc.2, v3]; simp
    · rfl

/-- `DEQ`'s effect keeps the invariants (R146). -/
theorem State.Inv.pop {s : State} (h : s.Inv) {q : Nat} {d : Desc} {r : List Desc} (hf : s.qFifo q = d :: r) :
    ((s.popQueue q).setOwner d.bin.toNat d.slot.toNat .ext).Inv := by
  obtain ⟨h1, h2, h3, h4, h5, h6⟩ := h
  obtain ⟨q1, q2, q3, q4, q5⟩ := h2
  obtain ⟨Q, hQ, hQf⟩ : ∃ Q, s.queues[q]? = some Q ∧ Q.fifo = d :: r := by
    unfold State.qFifo at hf; split at hf
    · next Q h => exact ⟨Q, h, hf⟩
    · cases hf
  have hp := flatMap_popQueue s.queues q Q d r hQ hQf
  have hp : List.Perm s.queued (d.handle :: State.queued ((s.popQueue q).setOwner d.bin.toNat d.slot.toNat .ext)) := hp
  have v3 : s.owner? d.bin.toNat d.slot.toNat = some .queue := q4 d.handle (hp.mem_iff.2 (by simp))
  have hne : (s.popQueue q).owner? d.bin.toNat d.slot.toNat ≠ none := by
    rw [State.owner?_congr (t := s.popQueue q) (s := s) rfl]; simp [v3]
  have ho : ∀ b sl, ((s.popQueue q).setOwner d.bin.toNat d.slot.toNat .ext).owner? b sl =
      if b = d.bin.toNat ∧ sl = d.slot.toNat then some .ext else s.owner? b sl :=
    fun b sl => State.owner?_setOwner _ hne b sl
  have hnd := List.nodup_cons.1 (hp.nodup_iff.1 q3)
  refine ⟨?_, ?_, ?_, h4.congr rfl rfl rfl, h5, h6⟩
  · exact State.PoolInv.congr (s := s.setOwner d.bin.toNat d.slot.toNat .ext) rfl rfl (h1.setOwner v3 (by simp) (by simp))
  · refine ⟨by simpa using q1, ?_, hnd.2, ?_, ?_⟩
    · intro j hj
      simp only [State.setOwner_queues, State.popQueue_queues, List.length_modify] at hj
      obtain ⟨r1, r2, r3⟩ := q2 j hj
      simp only [State.setOwner_queues, State.popQueue_queues, List.getElem_modify]
      split
      · next he =>
        subst he
        refine ⟨by simp [r1], by show _ ≤ s.conf.qDepth q; simp only; omega, ?_⟩
        intro x hx
        exact r3 x (List.mem_of_mem_tail hx)
      · exact ⟨r1, r2, r3⟩
    · intro x hx
      rw [ho, if_neg]
      · exact q4 x (hp.mem_iff.2 (List.mem_cons_of_mem _ hx))
      · rintro ⟨a, b⟩
        apply hnd.1
        have : x = d.handle := Prod.ext a b
        rw [← this]; exact hx
    · intro b hb sl hsl hx
      rw [ho] at hx
      split at hx
      · cases hx
      · next hc =>
        have := hp.mem_iff.1 (q5 b hb sl hsl hx)
        rcases List.mem_cons.1 this with h | h
        · exact absurd ⟨(Prod.mk.injEq .. ▸ h).1, (Prod.mk.injEq .. ▸ h).2⟩ hc
        · exact h
  · refine h3.congr rfl rfl ?_ (fun _ _ _ _ _ h => h)
    intro b sl
    rw [ho]; split
    · next hc => rw [hc.1, hc.2, v3]; simp
    · rfl

/-- `FRAME`'s effect keeps the invariants (R157). -/
theorem State.Inv.frame {s : State} (h : s.Inv) {d : Desc} (hv : s.validExt d = true) {n b2 s2 : Nat} {s' : State}
    (hn : n = s.conf.frameSize d.len.toNat) (ht : s.poolTake n = some (b2, s2, s')) :
    (s'.storeFrame d b2 s2).Inv := by
  obtain ⟨hb, rest, hf, rfl⟩ := State.poolTake_eq_some.1 ht
  obtain ⟨-, -, v3, -⟩ := State.validExt_iff.1 hv
  have hi := h.take hf
  obtain ⟨e1, e2, e3, e4⟩ := h.1.head hf
  obtain ⟨g1, g2, g3, g4, g5, g6, g7⟩ := State.takeSlot_setOwner_spec h.1 hf .ext
  have hne : (d.bin.toNat, d.slot.toNat) ≠ (b2, s2) := by
    intro he
    simp only [Prod.mk.injEq] at he
    rw [← he.1, ← he.2, v3] at e1
    cases e1
  have hlt : n < 65536 := by
    have := (Cfg.le_binSize_of_bestBin hb).2
    have := Cfg.binSize_lt s.cfg.property b2
    change s.conf.binSize b2 < _ at this
    omega
  set P := (s.takeSlot b2 s2 rest).readBytes d.bin.toNat d.slot.toNat d.len.toNat with hP
  have hfl : (s.conf.frameOf P).length = n := by simp [hP, hn]
  have hst := hi.store g1 (Memory.writeList ((s.takeSlot b2 s2 rest).setOwner b2 s2 .ext).mem (slotKey b2 s2 0) (s.conf.frameOf P))
    (Memory.wf_writeList _ hi.2.2.2.2.1 _) (by
      intro b' sl' o h1 h2 h3
      have := State.slotByte?_writeBytes ((s.takeSlot b2 s2 rest).setOwner b2 s2 .ext) (b := b2) (sl := s2)
        (l := s.conf.frameOf P) (b' := b') (sl' := sl') (o' := o) e3 (by omega) h1 h2
      rw [if_neg] at this
      · exact this
      · rintro ⟨rfl, rfl, -⟩; exact h3 rfl)
  refine State.Inv.give (s := State.writeBytes ((s.takeSlot b2 s2 rest).setOwner b2 s2 .ext) b2 s2 (s.conf.frameOf P)) hst ?_
  show ((s.takeSlot b2 s2 rest).setOwner b2 s2 .ext).owner? _ _ = _
  rw [g4 _ _ hne, v3]

end Sys2Proof.Machine
end

