-- ==== Sys2Proof/Laws/PerInstr.lean ====
section
/-! SUPPORT. A statement about every operation as syntax, one lemma for each: the fields of its canonical word are those of the
syntax table R111, the operation code that of R88. -/

namespace Sys2Proof.Laws.EncodedFields

/-- The four fields of an operation word. -/
def fieldsOf (w : OpWord) : Byte × Byte × Half × Quad := (opcOf w, auxOf w, immOf w, descFieldOf w)

/-- The fields R88 and R111 give an operation: operation code, auxiliary byte, immediate, descriptor; 0 where it ignores the field. -/
def expected : Instr → Byte × Byte × Half × Quad
  | .nop => (0x00, 0, 0, 0)
  | .alloc size => (0x01, 0, size, 0)
  | .release d => (0x02, 0, 0, d.pack)
  | .bufwr data off d => (0x03, data, off, d.pack)
  | .bufrd off d => (0x04, 0, off, d.pack)
  | .enq prio d => (0x10, prio, 0, d.pack)
  | .deq => (0x11, 0, 0, 0)
  | .frame d => (0x20, 0, 0, d.pack)
  | .rxb data => (0x28, data, 0, 0)
  | .submit d => (0x30, 0, 0, d.pack)
  | .trdy => (0x31, 0, 0, 0)
  | .start => (0x40, 0, 0, 0)
  | .tick => (0x41, 0, 0, 0)
  | .rdcsr csr => (0x50, 0, csr, 0)
  | .clrsts => (0x51, 0, 0, 0)
  | .rst => (0x7F, 0, 0, 0)

/-- The canonical word of an operation has the fields R111 gives it. -/
def Statement (i : Instr) : Prop := fieldsOf (encode i) = expected i

theorem nop : Statement .nop := by simp [Statement, fieldsOf, expected, encode]
theorem alloc (size : Half) : Statement (.alloc size) := by simp [Statement, fieldsOf, expected, encode]
theorem release (d : Desc) : Statement (.release d) := by simp [Statement, fieldsOf, expected, encode]
theorem bufwr (data : Byte) (off : Half) (d : Desc) : Statement (.bufwr data off d) := by
  simp [Statement, fieldsOf, expected, encode]
theorem bufrd (off : Half) (d : Desc) : Statement (.bufrd off d) := by simp [Statement, fieldsOf, expected, encode]
theorem enq (prio : Byte) (d : Desc) : Statement (.enq prio d) := by simp [Statement, fieldsOf, expected, encode]
theorem deq : Statement .deq := by simp [Statement, fieldsOf, expected, encode]
theorem frame (d : Desc) : Statement (.frame d) := by simp [Statement, fieldsOf, expected, encode]
theorem rxb (data : Byte) : Statement (.rxb data) := by simp [Statement, fieldsOf, expected, encode]
theorem submit (d : Desc) : Statement (.submit d) := by simp [Statement, fieldsOf, expected, encode]
theorem trdy : Statement .trdy := by simp [Statement, fieldsOf, expected, encode]
theorem start : Statement .start := by simp [Statement, fieldsOf, expected, encode]
theorem tick : Statement .tick := by simp [Statement, fieldsOf, expected, encode]
theorem rdcsr (csr : Half) : Statement (.rdcsr csr) := by simp [Statement, fieldsOf, expected, encode]
theorem clrsts : Statement .clrsts := by simp [Statement, fieldsOf, expected, encode]
theorem rst : Statement .rst := by simp [Statement, fieldsOf, expected, encode]

end Sys2Proof.Laws.EncodedFields
end

