-- ==== Sys2Proof/Laws/Pseudo.lean ====
section
/-! SUPPORT. What the pseudo-operations can do: a sequence unfolds one operation at a time, an answer is the operation's own, and a halted
block frames and deframes nothing. -/

namespace Sys2Proof.Machine

@[simp] theorem runOps_nil (s : State) : runOps [] s = .next s := rfl

/-- An operation that has a step, and the rest of the sequence after it. -/
theorem runOps_cons {i : Instr} {l : List Instr} {s t : State} (h : s.enabledOp (.ok i) = true) (he : exec i s = .next t) :
    runOps (i :: l) s = runOps l t := by rw [runOps, if_pos h, he]

/-- The sequence waits at a held operation. -/
theorem runOps_held {i : Instr} {l : List Instr} {s : State} (h : s.enabledOp (.ok i) = false) : runOps (i :: l) s = .next s := by
  rw [runOps, if_neg (by simp [h])]; rfl

/-- An operation that changes nothing, such as a held one, has no answer, whatever stood in `out` before. -/
@[simp] theorem State.answer_self (s : State) : s.answer s = none := by simp [State.answer]

/-- A response just given is the answer. -/
theorem State.answer_rsp {s t : State} {evs : List Event} {k : Nat} {st : Status} {aux : Byte} {data : Quad}
    (h : t.out = s.out ++ (evs ++ [.rsp k st aux data])) : s.answer t = some (st, aux, data) := by
  simp [State.answer, h]

/-- All `performOk` can answer: the next state of `exec`, with the operation's own response `OK`. -/
theorem performOk_eq_some {i : Instr} {s t : State} {aux : Byte} {data : Quad} :
    performOk i s = some (aux, data, t) ↔ exec i s = .next t ∧ s.answer t = some (.ok, aux, data) := by
  unfold performOk
  split
  · next u hu =>
    rw [hu]
    split
    · next hs => constructor
                 · rintro h; cases h; exact ⟨rfl, hs⟩
                 · rintro ⟨h, h'⟩; cases h; rw [hs] at h'; cases h'; rfl
    · next hs => constructor
                 · intro h; cases h
                 · rintro ⟨h, h'⟩; cases h; exact (hs _ _ h').elim
  · next hs => constructor
               · intro h; cases h
               · rintro ⟨h, -⟩; exact (hs _ h).elim

/-- A held operation, whose `exec` answers the same state, is not answered `OK`. -/
theorem performOk_held {i : Instr} {s : State} (h : exec i s = .next s) : performOk i s = none := by
  simp [performOk, h]

/-- A halted block frames nothing: its `ALLOC` is held (R263). -/
theorem frame_of_halted {s : State} (h : s.fatal = true) (payload : List Byte) : frame payload s = none := by
  have ha : ∀ n, performOk (.alloc n) s = none := fun n => performOk_held (by rw [exec, execAlloc, State.unlessHalted_of_halted h])
  simp [frame, ha]

/-- A halted block deframes nothing: its `RXB`s are held (R263). -/
theorem deframe_of_halted {s : State} (h : s.fatal = true) (bytes : List Byte) : deframe bytes s = none := by simp [deframe, h]

end Sys2Proof.Machine
end

