-- ==== Sys2Proof/Tests/Slice0.lean ====
section
/-! SUPPORT. Tests: the checks of WellFormed, the decoding of every operation, one or two steps of every operation (expected values from
95_test_vectors.md, the row named beside each), and for every obligation with hypotheses a state and operands that meet them. -/

namespace Sys2Proof.Tests

open Sys2Proof Sys2Proof.Machine

/-! ## Helpers -/

/-- The state after some operations on command port 0. -/
def afterOps (l : List Instr) (s : State) : State :=
  match runOps l s with
  | .next t => t
  | _ => s

/-- The same from the reset state. -/
def afterReset (l : List Instr) : State := afterOps l State.reset

/-- `b.s:len` (R111). -/
def desc (b sl len : Nat) : Desc := mkDesc b sl len

/-- A list of byte values. -/
def bytes (l : List Nat) : List Byte := l.map (BitVec.ofNat 8)

/-- The 64-bit words of the responses in a list of events (R92). -/
def responses : List Event → List OpWord
  | [] => []
  | .rsp _ st aux data :: l => responseWord st aux data :: responses l
  | _ :: l => responses l

/-- The response to one more operation. -/
def answer (i : Instr) (s : State) : List OpWord := responses ((afterOps [i] s).out.drop s.out.length)

/-- Two-byte little-endian length and checksum with the re-test: the configuration of V5h and V5d together. -/
def wideCfg : Cfg := { Cfg.reference with lenW := 2, chkW := 2, order := .little, maxPayload := 300, syncRetest := true }

def wide : WfCfg := ⟨wideCfg, by decide⟩

/-- Operations outstanding on three ports: `NOP` on CMD[0] and CMD[1], one tick. -/
def busy (s : State) : State :=
  { s with env := { s.env with cmd := [[0x0000000000000000#64], [0x0000000000000000#64], []], tick := 1, trdy := 1, ser := [0xAA#8], rst := 1 } }

/-! ## WellFormed: every check refuses an ill-formed configuration -/

theorem test_reference_wf : Cfg.reference.wf = true := by decide
theorem test_wf_bin_ranges : Cfg.binRanges { Cfg.reference with bins := [⟨0, 2⟩] } = false := by decide
theorem test_wf_bins_ascending : Cfg.binsAscending { Cfg.reference with bins := [⟨64, 2⟩, ⟨64, 2⟩] } = false := by decide
theorem test_wf_queue_ranges : Cfg.queueRanges { Cfg.reference with queues := [⟨256, 2⟩] } = false := by decide
theorem test_wf_prios_distinct : Cfg.priosDistinct { Cfg.reference with queues := [⟨1, 2⟩, ⟨1, 3⟩] } = false := by decide
theorem test_wf_codec_widths : Cfg.codecWidths { Cfg.reference with sync := [] } = false := by decide
theorem test_wf_max_payload : Cfg.maxPayloadFits { Cfg.reference with maxPayload := 256 } = false := by decide
theorem test_wf_frame_fits : Cfg.frameFits { Cfg.reference with lenW := 2, maxPayload := 65531 } = false := by decide
theorem test_wf_group_ranges : Cfg.groupRanges { Cfg.reference with groups := [⟨0, []⟩] } = false := by decide
theorem test_wf_has_port : Cfg.hasPort { Cfg.reference with nport := 0 } = false := by decide
theorem test_wf_refuses_each :
    Cfg.wf { Cfg.reference with bins := [⟨0, 2⟩] } = false ∧ Cfg.wf { Cfg.reference with bins := [⟨64, 2⟩, ⟨64, 2⟩] } = false ∧
      Cfg.wf { Cfg.reference with queues := [⟨256, 2⟩] } = false ∧ Cfg.wf { Cfg.reference with queues := [⟨1, 2⟩, ⟨1, 3⟩] } = false ∧
      Cfg.wf { Cfg.reference with sync := [] } = false ∧ Cfg.wf { Cfg.reference with maxPayload := 256 } = false ∧
      Cfg.wf { Cfg.reference with lenW := 2, maxPayload := 65531 } = false ∧
      Cfg.wf { Cfg.reference with groups := [⟨0, []⟩] } = false ∧ Cfg.wf { Cfg.reference with nport := 0 } = false := by decide

/-! ## Decoding: a word for every operation, written from R85 to R90 (most are printed in 95_test_vectors.md) -/

theorem test_decode_nop : decode 0x0000000000000000#64 = .ok .nop := by decide
theorem test_decode_alloc : decode 0x0100001100000000#64 = .ok (.alloc 17) := by decide
theorem test_decode_release : decode 0x0200000000010004#64 = .ok (.release ⟨0, 1, 4⟩) := by decide
theorem test_decode_bufwr : decode 0x037E00030100000E#64 = .ok (.bufwr 0x7E 3 ⟨1, 0, 14⟩) := by decide
theorem test_decode_bufrd : decode 0x0400000D0001000E#64 = .ok (.bufrd 13 ⟨0, 1, 14⟩) := by decide
theorem test_decode_enq : decode 0x100700000000000A#64 = .ok (.enq 7 ⟨0, 0, 10⟩) := by decide
theorem test_decode_deq : decode 0x1100000000000000#64 = .ok .deq := by decide
theorem test_decode_frame : decode 0x200000000100003D#64 = .ok (.frame ⟨1, 0, 61⟩) := by decide
theorem test_decode_rxb : decode 0x28AA000000000000#64 = .ok (.rxb 0xAA) := by decide
theorem test_decode_submit : decode 0x3000000001000011#64 = .ok (.submit ⟨1, 0, 17⟩) := by decide
theorem test_decode_trdy : decode 0x3100000000000000#64 = .ok .trdy := by decide
theorem test_decode_start : decode 0x4000000000000000#64 = .ok .start := by decide
theorem test_decode_tick : decode 0x4100000000000000#64 = .ok .tick := by decide
theorem test_decode_rdcsr : decode 0x5000010200000000#64 = .ok (.rdcsr 0x0102) := by decide
theorem test_decode_clrsts : decode 0x5100000000000000#64 = .ok .clrsts := by decide
theorem test_decode_rst : decode 0x7F00000000000000#64 = .ok .rst := by decide
/-- Ignored fields: V8j row 3. -/
theorem test_decode_ignored : decode 0x01FF00400000FFFF#64 = .ok (.alloc 64) := by decide
theorem test_decode_illegal : decode 0x0500000000000000#64 = .error (.illegalOpcode 0x05) := by decide

/-! ## One step of each operation -/

/-- V9 row 2: the boundary size of bin 0. -/
theorem test_alloc_best_fit : answer (.alloc 16) (afterReset [.alloc 0]) = [0x0000000000010010#64] := by decide
/-- V9 row 3: bin 0 empty, no borrowing. -/
theorem test_alloc_no_borrow : answer (.alloc 1) (afterReset [.alloc 0, .alloc 16]) = [0x0100000000000000#64] := by decide
/-- V9 row 9: last released first. -/
theorem test_release_lifo : (afterReset [.alloc 0, .alloc 16, .release (desc 0 0 0), .release (desc 0 1 0)]).freeList 0 = [1, 0] := by decide
/-- R258: a double release. -/
theorem test_release_twice : answer (.release (desc 0 0 0)) State.reset = [0x8000000000000000#64] := by decide
/-- V8k rows 4 and 5. -/
theorem test_bufwr_bufrd : answer (.bufrd 0 (desc 0 0 10)) (afterReset [.alloc 8, .bufwr 0x77 0 (desc 0 0 8)]) =
    [0x0077000000000000#64] := by decide
/-- R131: the offset is checked against the slot, not the length. -/
theorem test_bufwr_offset : answer (.bufwr 1 16 (desc 0 0 8)) (afterReset [.alloc 8]) = [0x8100000000000000#64] := by decide
/-- V2b rows 5 and 10. -/
theorem test_enq_bad_priority : answer (.enq 7 (desc 0 0 10)) (afterReset [.alloc 10]) = [0x0600000000000000#64] := by decide
theorem test_enq_full : answer (.enq 1 (desc 1 0 20)) (afterReset [.alloc 10, .alloc 10, .alloc 20, .enq 1 (desc 0 0 10),
    .enq 1 (desc 0 1 10)]) = [0x0200000000000000#64] := by decide
/-- V2 rows 9 and 10. -/
theorem test_deq_strict : answer .deq (afterReset [.alloc 10, .alloc 20, .enq 1 (desc 0 0 10), .enq 0 (desc 1 0 20)]) =
    [0x0000000001000014#64] := by decide
theorem test_deq_fifo : answer .deq (afterReset [.alloc 10, .alloc 10, .enq 1 (desc 0 0 10), .enq 1 (desc 0 1 10)]) =
    [0x000100000000000A#64] := by decide
/-- V3b rows 6 and 9, and the bytes of the empty frame. -/
theorem test_frame_empty : (afterReset [.alloc 0, .frame (desc 0 0 0)]).readBytes 0 1 4 = bytes [0xAA, 0x55, 0x00, 0x00] := by decide
theorem test_frame_too_large : answer (.frame (desc 1 0 61)) (afterReset [.alloc 61]) = [0x0300000000000000#64] := by decide
/-- `frame(payload)` of R113: the frame printed in V3, R108 and R168, and fed back to the Deframer the payload (V4). -/
theorem test_frame_pseudo : (frame (bytes [1, 2, 3, 4, 5, 6, 7, 8, 9, 10]) State.reset).map Prod.fst =
    some (bytes [0xAA, 0x55, 0x0A, 1, 2, 3, 4, 5, 6, 7, 8, 9, 10, 0x41]) := by decide
theorem test_deframe_of_frame : ((frame (bytes [7, 8]) State.reset).bind fun r => deframe r.1 r.2) = some [bytes [7, 8]] := by decide
theorem test_frame_pseudo_fails : frame (bytes [1]) (afterReset [.alloc 1, .alloc 1]) = none := by decide
/-- Halted, an `OK` answer to `RDCSR` the last event: the `ALLOC` and the `RXB` are held (R263), so there is no frame and no payload. -/
theorem test_frame_pseudo_halted : frame (bytes [7]) (afterReset [.release (desc 0 0 0), .rdcsr 0]) = none ∧
    deframe (bytes [0xAA]) (afterReset [.release (desc 0 0 0), .rdcsr 0]) = none := by decide
theorem test_frame_of_wide : wideCfg.frameOf (bytes [1, 2, 3]) = bytes [0xAA, 0x55, 3, 0, 1, 2, 3, 9, 0] := by decide
/-- V4 rows 1 and 4: `STATUS` after the sync, and after a bad checksum. -/
theorem test_rxb_sync : (afterReset (rxs (bytes [0xAA, 0x55]))).statusReg = 0x00000010#32 := by decide
theorem test_rxb_bad_checksum : (afterReset (rxs (bytes [0xAA, 0x55, 0x01, 0x07, 0x09]))).statusReg = 0x00000100#32 := by decide
/-- V5d with and without the re-test, on a shorter stream. -/
theorem test_rxb_retest : (afterOps (rxs (bytes [0xAA, 0xAA])) (State.powerOn wide)).rx.cnt = 1 ∧
    (afterReset (rxs (bytes [0xAA, 0xAA]))).rx.cnt = 0 := by decide
/-- V6 rows 3 and on: not ready, ready, driver failure. -/
theorem test_submit_not_ready : answer (.submit (desc 0 0 4)) (afterReset [.alloc 4]) = [0x0400000000000000#64] := by decide
theorem test_submit_failure : answer (.submit (desc 0 0 0))
    { afterReset [.trdy, .alloc 0] with env := { State.reset.env with verdicts := [false] } } = [0x0500000000000000#64] := by decide
/-- `STATUS` bits 0 and 1 (R54). -/
theorem test_trdy : (afterReset [.trdy]).statusReg = 0x00000001#32 := by decide
theorem test_start : (afterReset [.start]).statusReg = 0x00000002#32 := by decide
/-- P4 row 6: the second tick. -/
theorem test_tick_groups : (afterReset [.start, .tick, .tick]).out.drop 3 =
    [.act 0 0 0x10, .act 1 0 0x20, .rsp 0 .ok 0 0] := by decide
theorem test_tick_not_started : answer .tick State.reset = [0x0700000000000000#64] := by decide
/-- V8j rows 4 and 6. -/
theorem test_rdcsr_bad : answer (.rdcsr 0x0102) State.reset = [0x0900000000000000#64] := by decide
theorem test_rdcsr_geom : answer (.rdcsr 0x0007) State.reset = [0x0000000000020101#64] := by decide
/-- P3 rows 6 and 7. -/
theorem test_clrsts : (afterOps [.clrsts] { State.reset with flags := ⟨true, true, true, true, true⟩ }).statusReg = 0 := by decide
theorem test_nop : answer .nop State.reset = [0x0000000000000000#64] := by decide
/-- The halted block shows its cause (V8), and `RST` leaves it. -/
theorem test_halt_status : (afterReset [.bufwr 0x78 1 (desc 0 0 8)]).statusReg = 0x00810004#32 := by decide
theorem test_rst : (afterReset [.trdy, .bufwr 0x78 1 (desc 0 0 8), .rst]).statusReg = 0 := by decide
/-- V8j row 2: an illegal word, through `step`. -/
theorem test_illegal_word : ∃ t, step (State.reset.withFetchWord 64 0xFF12345678ABCDEF) = .next t ∧
    responses t.out = [0x0800000000000000#64] := ⟨_, rfl, by decide⟩

/-! ## Witnesses: every hypothesis of every obligation can be met -/

/-- Bins of the reference configuration, for the hypotheses that quantify over bins. -/
theorem reference_first_fit (n : Nat) (h : 16 < n) : ∀ b' < 1, ∀ k', Cfg.reference.bins[b']? = some k' → k'.size < n := by
  intro b' hb k' hk
  obtain rfl : b' = 0 := by omega
  cases hk; exact h

theorem none_before (s : State) (n : Nat) : ∀ b' < 0, ∀ k', s.conf.bins[b']? = some k' → k'.size < n := by omega

/-- No bin is large enough for 65 bytes or more. -/
theorem reference_no_fit (s : State) (hc : s.conf = Cfg.reference) (n : Nat) (h : 64 < n) : ∀ b k, s.conf.bins[b]? = some k → n ≤ k.size →
    (∀ b' < b, ∀ k', s.conf.bins[b']? = some k' → k'.size < n) → s.freeList b = [] := by
  rw [hc]
  intro b k hk hn
  match b with
  | 0 => cases hk; simp only at hn; omega
  | 1 => cases hk; simp only at hn; omega
  | b + 2 => cases hk

/-- Bin 0 is empty and the request is for it. -/
theorem reference_bin0_empty (s : State) (hc : s.conf = Cfg.reference) (h0 : s.freeList 0 = []) (n : Nat) (h : n ≤ 16) :
    ∀ b k, s.conf.bins[b]? = some k → n ≤ k.size →
      (∀ b' < b, ∀ k', s.conf.bins[b']? = some k' → k'.size < n) → s.freeList b = [] := by
  rw [hc]
  intro b k hk _ hmin
  match b with
  | 0 => exact h0
  | 1 => have := hmin 0 (by omega) ⟨16, 2⟩ rfl; simp only at this; omega
  | b + 2 => cases hk

theorem witness_DecodeIgnoresUnreadFields : opcOf 0x01FF00400000FFFF#64 = opcOf 0x0100004000000000#64 ∧
    opcOf 0x01FF00400000FFFF#64 ∉ [0x03#8, 0x10#8, 0x28#8] ∧ immOf 0x01FF00400000FFFF#64 = immOf 0x0100004000000000#64 ∧
    opcOf 0x01FF00400000FFFF#64 ∉ [0x02#8, 0x03#8, 0x04#8, 0x10#8, 0x20#8, 0x30#8] := by decide
theorem witness_DecodeIsTotalByOpcode : opcOf 0x7F00000000000001#64 = 0x7F ∧ opcOf 0x05FFFFFFFFFFFFFF#64 = 0x05 := by decide
theorem witness_EncDecAndSumChecksum : 255 < 2 ^ (8 * 1) ∧ 0x0102 < 2 ^ (8 * 2) ∧ 0 < 2 ^ (8 * 0) ∧ Cfg.reference.order = .big ∧
    wideCfg.order = .little ∧ Cfg.reference.chkAlg = .sum := by decide
/-- R104's examples. -/
theorem test_enc : Cfg.reference.enc 0x0102 2 = [0x01, 0x02] ∧ wideCfg.enc 0x0102 2 = [0x02, 0x01] ∧ Cfg.reference.enc 10 1 = [0x0A] := by
  decide
theorem witness_StepExecutesGrantedOperation : ∃ s', (State.reset.withFetchWord 64 0x0100004000000000).grant = some (.cmd 0, s') ∧
    (State.reset.withFetchWord 64 0x0100004000000000).headOp (.cmd 0) = some (.ok (.alloc 64)) := ⟨_, rfl, by decide⟩
theorem witness_StepExecutes_outstanding : (busy State.reset).env.cmd[0]? = some [0x0000000000000000#64] ∧
    (busy State.reset).env.cmd[2]? = some [] ∧ (busy State.reset).env.cmd[3]? = none ∧ (busy State.reset).env.ser = 0xAA :: [] ∧
    0 < (busy State.reset).env.trdy ∧ 0 < (busy State.reset).env.tick ∧ 0 < (busy State.reset).env.rst ∧ State.reset.env.ser = [] ∧
    State.reset.env.trdy = 0 ∧ State.reset.env.tick = 0 ∧ State.reset.env.rst = 0 := by decide
theorem witness_GrantGoesToEnabledPort : (∃ x, (State.reset.withFetchWord 64 0).grant = some x) ∧ State.reset.grant = none := ⟨⟨_, rfl⟩, rfl⟩
/-- V2: `DEQ` has a step once something is queued, and none before. -/
theorem test_deq_enabled : (afterReset [.alloc 1, .enq 1 (desc 0 0 1)]).enabledOp (.ok .deq) = true ∧
    State.reset.enabledOp (.ok .deq) = false := by decide
theorem witness_AnyEnabledPortMayGoNext : ∀ p ∈ [Port.cmd 0, .cmd 1, .serRx, .trdyIn, .tickIn, .rstIn],
    p ∈ (busy State.reset).ports ∧ (busy State.reset).enabledPort p = true := by decide
theorem witness_StepWaitsWhenNothingEnabled : ∀ p ∈ State.reset.ports, State.reset.enabledPort p = false := by decide
theorem witness_StepWaits_heldDeq : ∀ p ∈ (State.reset.withFetchWord 64 0x1100000000000000).ports,
    (State.reset.withFetchWord 64 0x1100000000000000).enabledPort p = false := by decide
theorem witness_IllegalWordAnswered : ∃ s', State.reset.fatal = false ∧
    (State.reset.withFetchWord 64 0x0500000000000000).grant = some (.cmd 0, s') ∧
    (State.reset.withFetchWord 64 0x0500000000000000).env.cmd[0]? = some [0x0500000000000000#64] ∧
    decode 0x0500000000000000#64 = .error (.illegalOpcode 0x05) := ⟨_, by decide, rfl, by decide, by decide⟩
theorem witness_CompletionAnswersAndRetires : (busy State.reset).env.active = .cmd 0 ∧
    (busy State.reset).env.cmd[0]? = some [0x0000000000000000#64] ∧ (busy State.reset).env.ser = [0xAA#8] ∧
    (busy State.reset).env.tick = 0 + 1 ∧ (busy State.reset).env.trdy = 0 + 1 ∧ (busy State.reset).env.rst = 0 + 1 := by decide
theorem witness_Completion_ports : ∀ p ∈ [Port.serRx, .tickIn, .trdyIn, .rstIn],
    (State.env { busy State.reset with env := { (busy State.reset).env with active := p } }).active = p := by decide

/-- A block halted by a double release. -/
def halted : State := afterReset [.release (desc 0 0 0)]

theorem witness_HaltedBlockHoldsOperations : halted.fatal = true ∧ Instr.clrsts ≠ .rst ∧ ∀ csr, Instr.clrsts ≠ .rdcsr csr :=
  ⟨by decide, by decide, by simp⟩
theorem witness_OnlyResetLeavesHalt : halted.fatal = true ∧ (∃ t, exec .rst halted = .next t) ∧ ∃ t, exec (.rdcsr 3) halted = .next t :=
  ⟨by decide, ⟨_, rfl⟩, ⟨_, rfl⟩⟩
theorem witness_OnlyDescriptorOperationsHalt : ∃ t, exec (.release (desc 0 0 0)) State.reset = .next t ∧ State.reset.fatal = false ∧
    t.fatal = true := ⟨_, rfl, by decide, by decide⟩
theorem witness_OnlyDescriptor_step : ∃ t, step (State.reset.withFetchWord 64 0x0200000000000000) = .next t ∧
    (State.reset.withFetchWord 64 0x0200000000000000).fatal = false ∧ t.fatal = true := ⟨_, rfl, by decide, by decide⟩
theorem witness_StepKeepsConfigurationAndHistory : ∃ t, step (State.reset.withFetchWord 64 0) = .next t := ⟨_, rfl⟩
theorem witness_StickyFlagsInfluenceNothing : (∀ csr, Instr.clrsts ≠ .rdcsr csr) ∧ ∃ t, exec .clrsts State.reset = .next t :=
  ⟨by simp, _, rfl⟩
theorem witness_DeframerIgnoresReadiness : ∃ t, exec (.rxb 0xAA) State.reset = .next t := ⟨_, rfl⟩

/-! ### Pool -/

theorem witness_AllocTakesBestFitSlot : State.reset.fatal = false ∧ State.reset.PoolInv ∧
    State.reset.conf.bins[0]? = some ⟨16, 2⟩ ∧ (16 : Half).toNat ≤ 16 ∧ State.reset.freeList 0 = 0 :: [1] ∧
    State.reset.conf.bins[1]? = some ⟨64, 2⟩ ∧ (17 : Half).toNat ≤ 64 ∧ (64 : Half).toNat ≤ 64 ∧ State.reset.freeList 1 = 0 :: [1] := by
  decide
theorem witness_AllocTakes_first_fit : (∀ b' < 0, ∀ k', State.reset.conf.bins[b']? = some k' → k'.size < (16 : Half).toNat) ∧
    ∀ b' < 1, ∀ k', State.reset.conf.bins[b']? = some k' → k'.size < (17 : Half).toNat :=
  ⟨none_before _ _, reference_first_fit 17 (by decide)⟩
theorem witness_AllocNeverBorrows_empty : (afterReset [.alloc 0, .alloc 16]).fatal = false ∧
    ∀ b k, (afterReset [.alloc 0, .alloc 16]).conf.bins[b]? = some k → (16 : Half).toNat ≤ k.size →
      (∀ b' < b, ∀ k', (afterReset [.alloc 0, .alloc 16]).conf.bins[b']? = some k' → k'.size < (16 : Half).toNat) →
      (afterReset [.alloc 0, .alloc 16]).freeList b = [] :=
  ⟨by decide, reference_bin0_empty _ (by decide) (by decide) _ (by decide)⟩
theorem witness_AllocNeverBorrows_no_bin : State.reset.fatal = false ∧
    ∀ b k, State.reset.conf.bins[b]? = some k → (65 : Half).toNat ≤ k.size →
      (∀ b' < b, ∀ k', State.reset.conf.bins[b']? = some k' → k'.size < (65 : Half).toNat) → State.reset.freeList b = [] :=
  ⟨by decide, reference_no_fit _ rfl _ (by decide)⟩

/-- A state with slots 0.0, 0.1 and 1.0 owned by an external agent. -/
def threeBuffers : State := afterReset [.alloc 10, .alloc 10, .alloc 20]

theorem witness_ReleaseReturnsSlot : threeBuffers.fatal = false ∧ (desc 0 1 0).bin.toNat < threeBuffers.conf.bins.length ∧
    (desc 0 1 0).slot.toNat < threeBuffers.conf.binCount 0 ∧ (threeBuffers.pool[0]?.map fun B => B.owner[1]?) = some (some .ext) := by
  decide
theorem witness_BadReleaseHalts : threeBuffers.fatal = false ∧ threeBuffers.conf.bins.length ≤ (desc 2 0 0).bin.toNat ∧
    threeBuffers.conf.binCount (desc 0 2 0).bin.toNat ≤ (desc 0 2 0).slot.toNat ∧ threeBuffers.owner? 1 1 ≠ some .ext := by decide
theorem witness_BufwrStoresOneByte : threeBuffers.fatal = false ∧ threeBuffers.validExt (desc 0 0 10) = true ∧
    (15 : Half).toNat < threeBuffers.conf.binSize (desc 0 0 10).bin.toNat ∧
    (0 : Half).toNat < threeBuffers.conf.binSize (desc 0 0 10).bin.toNat := by decide
theorem witness_BufrdReadsOneByte : (afterOps [.bufwr 7 15 (desc 0 0 10)] threeBuffers).fatal = false ∧
    (afterOps [.bufwr 7 15 (desc 0 0 10)] threeBuffers).validExt (desc 0 0 10) = true ∧
    (15 : Half).toNat < threeBuffers.conf.binSize (desc 0 0 10).bin.toNat ∧
    (afterOps [.bufwr 7 15 (desc 0 0 10)] threeBuffers).slotByte? 0 0 15 = some 7 := by decide
theorem witness_InvalidBufferHalts : threeBuffers.fatal = false ∧ threeBuffers.conf.bins.length ≤ (desc 2 0 0).bin.toNat ∧
    threeBuffers.conf.binCount (desc 1 2 0).bin.toNat ≤ (desc 1 2 0).slot.toNat ∧ threeBuffers.owner? 1 1 ≠ some .ext ∧
    threeBuffers.conf.binSize (desc 0 0 17).bin.toNat < (desc 0 0 17).len.toNat := by decide
theorem witness_InvalidBuffer_offset : threeBuffers.conf.binSize (desc 0 0 10).bin.toNat ≤ (16 : Half).toNat ∧
    Instr.bufrd 16 (desc 0 0 10) = .bufrd 16 (desc 0 0 10) := by decide

/-! ### Queue -/

/-- Slot 0.0 queued with priority 1. -/
def oneQueued : State := afterOps [.enq 1 (desc 0 0 10)] threeBuffers

/-- Sub-queue 1 full. -/
def queueFull : State := afterOps [.enq 1 (desc 0 1 10)] oneQueued

theorem witness_EnqAppendsAtTail : oneQueued.fatal = false ∧ oneQueued.validExt (desc 0 1 10) = true ∧
    oneQueued.conf.queues[1]? = some ⟨1, 2⟩ ∧ (1 : Nat) = (1 : Byte).toNat ∧ oneQueued.queues[1]? = some ⟨[desc 0 0 10], 1⟩ ∧ 1 < 2 := by
  decide
theorem witness_EnqRejectsWithoutChange : queueFull.fatal = false ∧ queueFull.validExt (desc 1 0 20) = true ∧
    (∀ k ∈ queueFull.conf.queues, k.prio ≠ (7 : Byte).toNat) ∧ queueFull.conf.queues[1]? = some ⟨1, 2⟩ ∧
    (1 : Nat) = (1 : Byte).toNat ∧ 2 ≤ queueFull.qCnt 1 := by decide
theorem witness_DeqServesHighestPriority : queueFull.fatal = false ∧ queueFull.conf.queues[1]? = some ⟨1, 2⟩ ∧
    queueFull.queues[1]? = some ⟨desc 0 0 10 :: [desc 0 1 10], 1 + 1⟩ ∧ queueFull.owner? 0 0 = some .queue ∧
    ∀ j k', queueFull.conf.queues[j]? = some k' → k'.prio < 1 → queueFull.qCnt j = 0 := by
  refine ⟨by decide, by decide, by decide, by decide, fun j k' hk hp => ?_⟩
  match j with
  | 0 => decide
  | 1 =>
    have h : queueFull.conf.queues[1]? = some ⟨1, 2⟩ := by decide
    rw [h] at hk; cases hk; simp only at hp; omega
  | j + 2 =>
    have h : queueFull.conf.queues.length = 2 := by decide
    rw [List.getElem?_eq_none (by omega)] at hk; cases hk
theorem witness_DeqHeldWhileEmpty : ∀ q, State.reset.qCnt q = 0
  | 0 => rfl
  | 1 => rfl
  | _ + 2 => rfl

/-! ### Framer -/

theorem witness_FrameBuildsFrame_same_bin : (afterReset [.alloc 12]).fatal = false ∧ (afterReset [.alloc 12]).PoolInv ∧
    (afterReset [.alloc 12]).validExt (desc 0 0 12) = true ∧ (desc 0 0 12).len.toNat ≤ (afterReset [.alloc 12]).conf.maxPayload ∧
    (afterReset [.alloc 12]).conf.bins[0]? = some ⟨16, 2⟩ ∧
    (afterReset [.alloc 12]).conf.sync.length + (afterReset [.alloc 12]).conf.lenW + (desc 0 0 12).len.toNat +
      (afterReset [.alloc 12]).conf.chkW ≤ 16 ∧ (afterReset [.alloc 12]).freeList 0 = 1 :: [] := by decide
theorem witness_FrameBuildsFrame_other_bin : (afterReset [.alloc 16]).fatal = false ∧ (afterReset [.alloc 16]).PoolInv ∧
    (afterReset [.alloc 16]).validExt (desc 0 0 13) = true ∧ (desc 0 0 13).len.toNat ≤ (afterReset [.alloc 16]).conf.maxPayload ∧
    (afterReset [.alloc 16]).conf.bins[1]? = some ⟨64, 2⟩ ∧
    (afterReset [.alloc 16]).conf.sync.length + (afterReset [.alloc 16]).conf.lenW + (desc 0 0 13).len.toNat +
      (afterReset [.alloc 16]).conf.chkW ≤ 64 ∧ (afterReset [.alloc 16]).freeList 1 = 0 :: [1] := by decide
theorem witness_FrameBuilds_first_fit : ∀ b' < 1, ∀ k', Cfg.reference.bins[b']? = some k' →
    k'.size < Cfg.reference.sync.length + Cfg.reference.lenW + (desc 0 0 13).len.toNat + Cfg.reference.chkW :=
  reference_first_fit _ (by decide)
theorem witness_FrameRejects_length : (afterReset [.alloc 61]).fatal = false ∧ (afterReset [.alloc 61]).validExt (desc 1 0 61) = true ∧
    (afterReset [.alloc 61]).conf.maxPayload < (desc 1 0 61).len.toNat := by decide
theorem witness_FrameRejects_pool : threeBuffers.fatal = false ∧ threeBuffers.validExt (desc 0 0 10) = true ∧
    (desc 0 0 10).len.toNat ≤ threeBuffers.conf.maxPayload ∧
    ∀ b k, threeBuffers.conf.bins[b]? = some k →
      threeBuffers.conf.sync.length + threeBuffers.conf.lenW + (desc 0 0 10).len.toNat + threeBuffers.conf.chkW ≤ k.size →
      (∀ b' < b, ∀ k', threeBuffers.conf.bins[b']? = some k' →
        k'.size < threeBuffers.conf.sync.length + threeBuffers.conf.lenW + (desc 0 0 10).len.toNat + threeBuffers.conf.chkW) →
      threeBuffers.freeList b = [] :=
  ⟨by decide, by decide, by decide, reference_bin0_empty _ (by decide) (by decide) _ (by decide)⟩

/-! ### Deframer -/

/-- In `READING_LENGTH`, the next byte the last of its field. -/
def lengthNext : State := afterReset (rxs (bytes [0xAA, 0x55]))

theorem witness_RxbSeeksSync_match : State.reset.fatal = false ∧ State.reset.rx.st = .seekingSync ∧
    State.reset.conf.sync[State.reset.rx.cnt]? = some 0xAA ∧ State.reset.rx.cnt + 1 < State.reset.conf.sync.length ∧
    (afterReset [.rxb 0xAA]).conf.sync[(afterReset [.rxb 0xAA]).rx.cnt]? = some 0x55 ∧
    (afterReset [.rxb 0xAA]).rx.cnt + 1 = (afterReset [.rxb 0xAA]).conf.sync.length := by decide
theorem witness_RxbSeeksSync_mismatch : (0xAA : Byte) ≠ 0x55 ∧
    ¬((afterReset [.rxb 0xAA]).conf.syncRetest = true ∧ 0 < (afterReset [.rxb 0xAA]).rx.cnt ∧
      (afterReset [.rxb 0xAA]).conf.sync[0]? = some 0xAA) ∧
    (afterOps [.rxb 0xAA] (State.powerOn wide)).conf.syncRetest = true ∧ 0 < (afterOps [.rxb 0xAA] (State.powerOn wide)).rx.cnt ∧
    (afterOps [.rxb 0xAA] (State.powerOn wide)).conf.sync[0]? = some 0xAA ∧
    (afterOps [.rxb 0xAA] (State.powerOn wide)).rx.st = .seekingSync := by decide
theorem witness_RxbCollects_length : (afterOps (rxs (bytes [0xAA, 0x55])) (State.powerOn wide)).fatal = false ∧
    (afterOps (rxs (bytes [0xAA, 0x55])) (State.powerOn wide)).rx.st = .readingLength ∧
    (afterOps (rxs (bytes [0xAA, 0x55])) (State.powerOn wide)).rx.cnt + 1 < wideCfg.lenW := by decide
theorem witness_RxbCollects_checksum : (afterOps (rxs (bytes [0xAA, 0x55, 0, 0])) (State.powerOn wide)).fatal = false ∧
    (afterOps (rxs (bytes [0xAA, 0x55, 0, 0])) (State.powerOn wide)).rx.st = .readingChecksum ∧
    (afterOps (rxs (bytes [0xAA, 0x55, 0, 0])) (State.powerOn wide)).rx.buf ≠ none ∧
    (afterOps (rxs (bytes [0xAA, 0x55, 0, 0])) (State.powerOn wide)).rx.cnt + 1 < wideCfg.chkW := by decide
theorem witness_RxbDropsFrame_length : lengthNext.fatal = false ∧ lengthNext.rx.st = .readingLength ∧
    lengthNext.rx.cnt + 1 = lengthNext.conf.lenW ∧
    lengthNext.conf.dec (((lengthNext.rx.scr ++ [61#8]).drop lengthNext.conf.sync.length).take lengthNext.conf.lenW) = 61 ∧
    lengthNext.conf.maxPayload < 61 := by decide

/-- The same with bin 0 empty. -/
def lengthNextEmpty : State := afterOps (rxs (bytes [0xAA, 0x55])) (afterReset [.alloc 1, .alloc 1])

theorem witness_RxbDropsFrame_pool : lengthNextEmpty.fatal = false ∧ lengthNextEmpty.rx.st = .readingLength ∧
    lengthNextEmpty.rx.cnt + 1 = lengthNextEmpty.conf.lenW ∧
    lengthNextEmpty.conf.dec (((lengthNextEmpty.rx.scr ++ [2#8]).drop lengthNextEmpty.conf.sync.length).take
      lengthNextEmpty.conf.lenW) = 2 ∧ 2 ≤ lengthNextEmpty.conf.maxPayload ∧
    ∀ b k, lengthNextEmpty.conf.bins[b]? = some k → 2 ≤ k.size →
      (∀ b' < b, ∀ k', lengthNextEmpty.conf.bins[b']? = some k' → k'.size < 2) → lengthNextEmpty.freeList b = [] :=
  ⟨by decide, by decide, by decide, by decide, by decide, reference_bin0_empty _ (by decide) (by decide) _ (by decide)⟩
theorem witness_RxbTakesBuffer_empty_payload : lengthNext.fatal = false ∧ lengthNext.PoolInv ∧ lengthNext.rx.st = .readingLength ∧
    lengthNext.rx.cnt + 1 = lengthNext.conf.lenW ∧
    lengthNext.conf.dec (((lengthNext.rx.scr ++ [0#8]).drop lengthNext.conf.sync.length).take lengthNext.conf.lenW) = 0 ∧
    0 ≤ lengthNext.conf.maxPayload ∧ lengthNext.conf.bins[0]? = some ⟨16, 2⟩ ∧ lengthNext.freeList 0 = 0 :: [1] := by decide
theorem witness_RxbTakesBuffer_max_payload :
    lengthNext.conf.dec (((lengthNext.rx.scr ++ [60#8]).drop lengthNext.conf.sync.length).take lengthNext.conf.lenW) = 60 ∧
    60 ≤ lengthNext.conf.maxPayload ∧ lengthNext.conf.bins[1]? = some ⟨64, 2⟩ ∧ 60 ≤ 64 ∧ lengthNext.freeList 1 = 0 :: [1] := by decide
theorem witness_RxbTakesBuffer_first_fit : ∀ b' < 1, ∀ k', Cfg.reference.bins[b']? = some k' → k'.size < 60 :=
  reference_first_fit 60 (by decide)

/-- A two-byte payload expected; and its second byte. -/
def payloadNext : State := afterOps [.rxb 2] lengthNext
def payloadLast : State := afterOps [.rxb 0xDE] payloadNext

theorem witness_RxbStoresPayloadByte : payloadNext.fatal = false ∧ payloadNext.rx.st = .readingPayload ∧
    payloadNext.rx.buf = some (0, 0) ∧ payloadNext.rx.cnt < payloadNext.conf.binSize 0 ∧ payloadNext.rx.cnt + 1 ≠ payloadNext.rx.len ∧
    payloadLast.fatal = false ∧ payloadLast.rx.st = .readingPayload ∧ payloadLast.rx.buf = some (0, 0) ∧
    payloadLast.rx.cnt < payloadLast.conf.binSize 0 ∧ payloadLast.rx.cnt + 1 = payloadLast.rx.len := by decide

/-- The last checksum byte expected, `DE AD` stored. -/
def checksumLast : State := afterOps [.rxb 0xAD] payloadLast

theorem witness_RxbChecksChecksum : checksumLast.fatal = false ∧ checksumLast.rx.st = .readingChecksum ∧
    checksumLast.rx.buf = some (0, 0) ∧ checksumLast.rx.cnt + 1 = checksumLast.conf.chkW ∧
    (checksumLast.pool[0]?.map fun B => decide (0 < B.owner.length)) = some true ∧ (bytes [0xDE, 0xAD]).length = checksumLast.rx.len ∧
    ∀ i < checksumLast.rx.len, checksumLast.slotByte? 0 0 i = (bytes [0xDE, 0xAD])[i]? := by decide
/-- `8D` matches (V5a), `8C` does not. -/
theorem witness_RxbChecksChecksum_both :
    checksumLast.conf.chk ((checksumLast.rx.scr.drop checksumLast.conf.sync.length).take checksumLast.conf.lenW ++ bytes [0xDE, 0xAD]) =
        checksumLast.rx.chk ++ [0x8D#8] ∧
      checksumLast.conf.chk ((checksumLast.rx.scr.drop checksumLast.conf.sync.length).take checksumLast.conf.lenW ++ bytes [0xDE, 0xAD]) ≠
        checksumLast.rx.chk ++ [0x8C#8] := by decide

/-- The same Deframer in a block that differs in `ready`, `started` and `out`. -/
def elsewhere (s : State) : State := afterOps [.trdy, .start] s

theorem witness_RxbDependsOnly_checksum : checksumLast.fatal = false ∧ (elsewhere checksumLast).fatal = false ∧
    (elsewhere checksumLast).cfg = checksumLast.cfg ∧ (elsewhere checksumLast).rx = checksumLast.rx ∧ checksumLast.rx.buf = some (0, 0) ∧
    (∀ i < checksumLast.rx.len, (elsewhere checksumLast).readByte 0 0 i = checksumLast.readByte 0 0 i) ∧
    checksumLast.rx.st ≠ .readingLength ∧ ∃ t, exec (.rxb 0x8D) checksumLast = .next t :=
  ⟨by decide, by decide, by decide, by decide, by decide, by decide, by decide, _, rfl⟩
theorem witness_RxbDependsOnly_length : lengthNext.fatal = false ∧ (elsewhere lengthNext).fatal = false ∧
    (elsewhere lengthNext).cfg = lengthNext.cfg ∧ (elsewhere lengthNext).rx = lengthNext.rx ∧ lengthNext.rx.buf = none ∧
    lengthNext.rx.st = .readingLength ∧ lengthNext.rx.cnt + 1 = lengthNext.conf.lenW ∧
    lengthNext.conf.dec (((lengthNext.rx.scr ++ [2#8]).drop lengthNext.conf.sync.length).take lengthNext.conf.lenW) = 2 ∧
    ((elsewhere lengthNext).poolTake 2).map (fun r => (r.1, r.2.1)) = (lengthNext.poolTake 2).map (fun r => (r.1, r.2.1)) ∧
    ∃ t, exec (.rxb 2) lengthNext = .next t :=
  ⟨by decide, by decide, by decide, by decide, by decide, by decide, by decide, by decide, by decide, _, rfl⟩

/-! ### Transport, scheduler, system -/

theorem witness_SubmitDropsWhileNotReady : threeBuffers.fatal = false ∧ threeBuffers.ready = false ∧
    threeBuffers.validExt (desc 0 0 10) = true ∧ threeBuffers.pool[(desc 0 0 10).bin.toNat]? ≠ none := by decide

/-- Ready, with a verdict of each kind given, and with none. -/
def readyWith (l : List Bool) : State := { afterOps [.trdy] threeBuffers with env := { State.reset.env with verdicts := l } }

theorem witness_SubmitOffersBytes : (readyWith [false]).fatal = false ∧ (readyWith [false]).ready = true ∧
    (readyWith [false]).validExt (desc 0 0 10) = true ∧ (readyWith [false]).pool[(desc 0 0 10).bin.toNat]? ≠ none ∧
    (readyWith [false]).env.verdicts = false :: [] ∧ (readyWith [true]).env.verdicts = true :: [] ∧
    (readyWith []).env.verdicts = [] := by decide
theorem witness_TrdySetsReady : (∃ t, exec .nop (afterReset [.trdy]) = .next t ∧ (afterReset [.trdy]).ready = true ∧ Instr.nop ≠ .rst) ∧
    ∃ t, exec .trdy State.reset = .next t ∧ State.reset.ready = false ∧ t.ready = true :=
  ⟨⟨_, rfl, by decide, by decide⟩, _, rfl, by decide, by decide⟩
theorem witness_StartSetsStarted : ∃ t, exec .nop (afterReset [.start]) = .next t ∧ (afterReset [.start]).started = true ∧
    Instr.nop ≠ .rst := ⟨_, rfl, by decide, by decide⟩
theorem witness_running : State.reset.fatal = false ∧ State.reset.started = false := by decide

/-- Started, at the last count before the counter wraps. -/
def lastTick : State := { afterReset [.start] with tickCnt := 0xFFFFFFFF }

theorem witness_TickActivatesDividingGroups : (afterReset [.start]).fatal = false ∧ (afterReset [.start]).started = true ∧
    1 = ((afterReset [.start]).tickCnt.toNat + 1) % 2 ^ 32 ∧ lastTick.fatal = false ∧ lastTick.started = true ∧
    0 = (lastTick.tickCnt.toNat + 1) % 2 ^ 32 := by decide
theorem witness_TicksActivateFloorTimes : (afterReset [.start]).fatal = false ∧ (afterReset [.start]).started = true ∧
    (afterReset [.start]).tickCnt = 0 ∧ 4294967295 < 2 ^ 32 ∧ (afterReset [.start]).conf.groups[1]? = some ⟨2, [0x20]⟩ ∧
    ([0x20] : List Quad)[0]? = some 0x20 := by decide
theorem witness_RdcsrAnswersRegister : ((0x0101 : Half).toNat = 0x0100 + 1 ∧ State.reset.conf.bins[1]? = some ⟨64, 2⟩ ∧
      (0x00020040 : Quad).toNat = 2 * 2 ^ 16 + 64) ∧
    ((0x0201 : Half).toNat = 0x0200 + 1 ∧ 1 < State.reset.conf.bins.length) ∧
    ((0x0301 : Half).toNat = 0x0300 + 1 ∧ State.reset.conf.queues[1]? = some ⟨1, 2⟩ ∧ (0x00000201 : Quad).toNat = 2 * 2 ^ 8 + 1) ∧
    ((0x0401 : Half).toNat = 0x0400 + 1 ∧ 1 < State.reset.conf.queues.length ∧ (0 : Quad).toNat = State.reset.qCnt 1 % 2 ^ 16) ∧
    ((0x0501 : Half).toNat = 0x0500 + 1 ∧ State.reset.conf.groups[1]? = some ⟨2, [0x20]⟩ ∧ (2 : Quad).toNat = 2) ∧
    (0x0601 : Half).toNat = 0x0600 + 1 ∧ (1 : Quad).toNat = ([0x20] : List Quad).length := by decide
theorem witness_RdcsrAnswersConfiguration :
    (0x003C0112 : Quad).toNat = State.reset.conf.sync.length + State.reset.conf.lenW * 2 ^ 4 + State.reset.conf.chkW * 2 ^ 8 +
        (if State.reset.conf.order = .little then 2 ^ 12 else 0) + (if State.reset.conf.syncRetest then 2 ^ 13 else 0) +
        (if State.reset.conf.chkAlg = .sum then 0 else 2 ^ 14) + State.reset.conf.maxPayload * 2 ^ 16 ∧
      (∀ i < 4, (0x000055AA : Quad).extractLsb' (8 * i) 8 = State.reset.conf.sync.getD i 0) ∧
      (∀ i < 4, (0 : Quad).extractLsb' (8 * i) 8 = State.reset.conf.sync.getD (4 + i) 0) ∧
      (0x00020101 : Quad).toNat = (State.reset.conf.bins.length - 1) + (State.reset.conf.queues.length - 1) * 2 ^ 8 +
        State.reset.conf.groups.length * 2 ^ 16 := by decide
theorem witness_RdcsrRejectsUnknownNumber :
    0x0008 ≤ (0x0102 : Half).toNat ∧
      (∀ b < State.reset.conf.bins.length, (0x0102 : Half).toNat ≠ 0x0100 + b ∧ (0x0102 : Half).toNat ≠ 0x0200 + b) ∧
      (∀ q < State.reset.conf.queues.length, (0x0102 : Half).toNat ≠ 0x0300 + q ∧ (0x0102 : Half).toNat ≠ 0x0400 + q) ∧
      ∀ g < State.reset.conf.groups.length, (0x0102 : Half).toNat ≠ 0x0500 + g ∧ (0x0102 : Half).toNat ≠ 0x0600 + g := by decide

/-! ### Invariants and round trips -/

set_option synthInstance.maxSize 2000 in
set_option synthInstance.maxHeartbeats 400000 in
theorem witness_Inv_reset : State.reset.Inv := by decide

set_option synthInstance.maxSize 2000 in
set_option synthInstance.maxHeartbeats 400000 in
theorem witness_Inv_middle : (State.withFetchWord (afterOps [.rxb 0xAA, .rxb 0x55, .rxb 2, .rxb 0xDE] queueFull) 64 0).Inv := by decide

set_option synthInstance.maxSize 2000 in
set_option synthInstance.maxHeartbeats 400000 in
theorem witness_StepKeepsInvariants : (State.reset.withFetchWord 64 0x0100004000000000).Inv ∧
    ∃ t, step (State.reset.withFetchWord 64 0x0100004000000000) = .next t := ⟨by decide, _, rfl⟩
theorem witness_DeframeInvertsFrame : State.reset.Inv ∧ State.reset.fatal = false ∧ State.reset.rx.st = .seekingSync ∧ State.reset.rx.cnt = 0 ∧
    (bytes [0xDE, 0xAD]).length ≤ State.reset.conf.maxPayload ∧ State.reset.conf.bins[0]? = some ⟨16, 2⟩ ∧
    (bytes [0xDE, 0xAD]).length ≤ 16 ∧ State.reset.freeList 0 = 0 :: [1] := ⟨witness_Inv_reset, by decide⟩

set_option synthInstance.maxSize 2000 in
set_option synthInstance.maxHeartbeats 400000 in
theorem witness_ReceptionEndsInBoundedBytes : lengthNext.Inv ∧ lengthNext.fatal = false ∧ lengthNext.rx.st ≠ .seekingSync ∧
    lengthNext.conf.lenW + lengthNext.conf.maxPayload + lengthNext.conf.chkW ≤ (List.replicate 62 0#8).length := by decide

end Sys2Proof.Tests
end

section
/-! PROOF. The constant registers of the CSR file: CODECCFG, SYNC0, SYNC1 and GEOM (R53, R55) as numbers and bytes, and what
`RDCSR` answers for them. -/

namespace Sys2Proof

/-- `NQ` is 1 to 256 (R7). -/
theorem Cfg.queues_length {c : Cfg} (h : c.wf = true) : 1 ≤ c.queues.length ∧ c.queues.length ≤ 256 := by
  obtain ⟨-, -, hq, -⟩ := (Cfg.wf_iff c).1 h
  simp only [Cfg.queueRanges, Bool.and_eq_true, decide_eq_true_eq] at hq
  exact hq.1

end Sys2Proof

namespace Sys2Proof.Machine

/-! ## Registers as numbers and as bytes -/

/-- Fields side by side, the value of the upper one scaled by the width of the lower one. -/
theorem toNat_append_eq_add {m n : Nat} (x : BitVec m) (y : BitVec n) : (x ++ y).toNat = x.toNat * 2 ^ n + y.toNat := by
  rw [BitVec.toNat_append, ← Nat.shiftLeft_add_eq_or_of_lt y.isLt, Nat.shiftLeft_eq]

theorem toNat_bit (b : Bool) : (bit b).toNat = if b then 1 else 0 := by
  cases b <;> rfl

/-- A 32-bit value is made of its four bytes. -/
theorem eq_append_bytes (v : Quad) :
    v = v.extractLsb' 24 8 ++ v.extractLsb' 16 8 ++ v.extractLsb' 8 8 ++ v.extractLsb' 0 8 := by
  apply BitVec.eq_of_toNat_eq
  have hv := v.isLt
  simp only [toNat_append_eq_add, BitVec.extractLsb'_toNat, Nat.shiftRight_eq_div_pow]
  omega

/-- `CODECCFG` as a number: no field of a well-formed configuration is cut off (R8, R55). -/
theorem toNat_codecCfgReg {c : Cfg} (h : c.wf = true) : (codecCfgReg c).toNat =
    c.sync.length + c.lenW * 2 ^ 4 + c.chkW * 2 ^ 8 + (if c.order = .little then 2 ^ 12 else 0) +
      (if c.syncRetest then 2 ^ 13 else 0) + (if c.chkAlg = .sum then 0 else 2 ^ 14) + c.maxPayload * 2 ^ 16 := by
  have hw := Cfg.codec_widths h
  have hp := (Cfg.max_payload h).2
  simp only [codecCfgReg, toNat_append_eq_add, toNat_bit, BitVec.toNat_ofNat, decide_eq_true_eq, ne_eq, ite_not]
  split_ifs <;> omega

/-- `GEOM` as a number: `NBINS - 1`, `NQ - 1` and `NG` of a well-formed configuration fit their fields (R8, R53). -/
theorem toNat_geomReg {c : Cfg} (h : c.wf = true) : (geomReg c).toNat =
    (c.bins.length - 1) + (c.queues.length - 1) * 2 ^ 8 + c.groups.length * 2 ^ 16 := by
  have hb := Cfg.bins_length h
  have hq := Cfg.queues_length h
  have hg := Cfg.groups_length h
  simp only [geomReg, toNat_append_eq_add, BitVec.toNat_ofNat]
  omega

/-- Only the register `SYNC0` (or `SYNC1`) has the bytes of the sync pattern from `start` on (R53). -/
theorem eq_syncReg_of_bytes {c : Cfg} {start : Nat} {v : Quad}
    (h : ∀ i < 4, v.extractLsb' (8 * i) 8 = c.sync.getD (start + i) 0) : v = syncReg c start := by
  have h0 : v.extractLsb' 0 8 = c.sync.getD start 0 := h 0 (by omega)
  have h1 := h 1 (by omega)
  have h2 := h 2 (by omega)
  have h3 := h 3 (by omega)
  calc v = v.extractLsb' 24 8 ++ v.extractLsb' 16 8 ++ v.extractLsb' 8 8 ++ v.extractLsb' 0 8 := eq_append_bytes v
    _ = syncReg c start := by rw [syncReg, h0, h1, h2, h3]

/-! ## Reading a register -/

theorem State.csr?_codecCfg (s : State) : s.csr? 0x0004 = some (codecCfgReg s.conf) := rfl

theorem State.csr?_sync0 (s : State) : s.csr? 0x0005 = some (syncReg s.conf 0) := rfl

theorem State.csr?_sync1 (s : State) : s.csr? 0x0006 = some (syncReg s.conf 4) := rfl

theorem State.csr?_geom (s : State) : s.csr? 0x0007 = some (geomReg s.conf) := rfl

/-- `RDCSR` of a register in the table answers its value and changes nothing, halted or not (R56, R233, R263). -/
theorem exec_rdcsr_of_csr? {s : State} {csr : Half} {v : Quad} (h : s.csr? csr = some v) :
    exec (.rdcsr csr) s = .next { s with out := s.out ++ responseEvents s.env.active .ok 0 v, env := s.env.retire } := by
  have hexec : exec (.rdcsr csr) s = execRdcsr csr s := rfl
  rw [hexec, execRdcsr, h]
  rfl

end Sys2Proof.Machine

open Sys2Proof Sys2Proof.Machine

/-- Settles O48: each of the four registers is in the table, and its bits are the ones the statement gives, so that `RDCSR`
answers them. -/
theorem rdcsrAnswersConfiguration : Obligations.RdcsrAnswersConfiguration := by
  intro s csr v h
  apply exec_rdcsr_of_csr?
  obtain ⟨rfl, hv⟩ | ⟨rfl, hv⟩ | ⟨rfl, hv⟩ | ⟨rfl, hv⟩ := h
  case inl => -- `CODECCFG`
    rw [s.csr?_codecCfg, BitVec.eq_of_toNat_eq (hv.trans (toNat_codecCfgReg s.cfg.property).symm)]
  case inr.inl => -- `SYNC0`
    have hbytes : ∀ i < 4, v.extractLsb' (8 * i) 8 = s.conf.sync.getD (0 + i) 0 := by simpa only [Nat.zero_add] using hv
    rw [s.csr?_sync0, eq_syncReg_of_bytes hbytes]
  case inr.inr.inl => -- `SYNC1`
    rw [s.csr?_sync1, eq_syncReg_of_bytes hv]
  case inr.inr.inr => -- `GEOM`
    rw [s.csr?_geom, BitVec.eq_of_toNat_eq (hv.trans (toNat_geomReg s.cfg.property).symm)]

end

section
/-! PROOF. The decoder read from its result: an operation it answers has the word's operation code, a word it refuses has none of
the sixteen codes of R88 (R87, R94); and the words the spec prints (R114). -/

namespace Sys2Proof

/-- The operation codes of R88's table. -/
def opcodes : List Byte :=
  [0x00, 0x01, 0x02, 0x03, 0x04, 0x10, 0x11, 0x20, 0x28, 0x30, 0x31, 0x40, 0x41, 0x50, 0x51, 0x7F]

/-- The canonical word of every operation has a code of R88's table. -/
theorem opcOf_encode_mem_opcodes (i : Instr) : opcOf (encode i) ∈ opcodes := by
  cases i <;> simp [encode, opcodes]

/-- The decoded operation is one of the word's own operation code (R87): in each arm of the decoder the code of the operation's
canonical word is the number the arm stands at. -/
theorem opcOf_encode_of_decode_eq_ok {w : OpWord} {i : Instr} (h : decode w = .ok i) : opcOf (encode i) = opcOf w := by
  apply BitVec.eq_of_toNat_eq
  unfold decode at h
  split at h
  case h_17 => nomatch h -- the arm of the illegal words
  all_goals
    cases h
    simp only [encode, opcOf_wordOf, BitVec.toNat_ofNat, *]

/-- A refused word carries its operation code, which is not in R88's table (R94): only the decoder's last arm refuses, and it is
reached when no arm of the table has the code. -/
theorem opcOf_not_mem_of_decode_eq_error {w : OpWord} {e : DecodeError} (h : decode w = .error e) :
    e = .illegalOpcode (opcOf w) ∧ opcOf w ∉ opcodes := by
  unfold decode at h
  split at h
  case h_17 =>
    cases h
    refine ⟨rfl, ?_⟩
    simp_all [opcodes, ← BitVec.toNat_inj]
  all_goals nomatch h

end Sys2Proof

open Sys2Proof Sys2Proof.Machine

/-- Settles O2, by cases on the decoder's answer. -/
theorem decodeIsTotalByOpcode : Obligations.DecodeIsTotalByOpcode := by
  intro w
  cases hw : decode w with
  | ok i =>
    have hopc := opcOf_encode_of_decode_eq_ok hw
    have hmem : opcOf w ∈ opcodes := hopc ▸ opcOf_encode_mem_opcodes i
    exact (if_pos hmem).mpr ⟨i, rfl, hopc⟩
  | error e =>
    obtain ⟨rfl, hmem⟩ := opcOf_not_mem_of_decode_eq_error hw
    exact (if_neg hmem).mpr rfl

/-- Settles O4: four operation words and two responses of R114, and the words of R146 (`DEQ`), R204 (`SUBMIT`), R234 (`RDCSR`) and V8j
(an illegal one), by evaluation of the decoder at these fixed words. -/
theorem printedWordsDecode : Obligations.PrintedWordsDecode := by
  unfold Obligations.PrintedWordsDecode
  decide

end

section
/-! PROOF. `BUFWR` of a valid descriptor: the one byte it stores and the frame around it (R130, R132). -/

namespace Sys2Proof.Machine

/-- The test of `BUFWR` and `BUFRD` is `valid_ext(d)` and an offset below the slot's capacity (R131). -/
theorem State.validAccess_iff {s : State} {off : Half} {d : Desc} :
    s.validAccess off d = true ↔ s.validExt d = true ∧ off.toNat < s.conf.binSize d.bin.toNat := by
  simp [State.validAccess]

/-- A response leaves slot memory as it is (R92). -/
theorem State.slotByte?_complete (s : State) (st : Status) (aux : Byte) (data : Quad) (b sl o : Nat) :
    (s.complete st aux data).slotByte? b sl o = s.slotByte? b sl o :=
  State.slotByte?_congr (s.complete_mem st aux data) b sl o

/-- `BUFWR` that passes its test is `MemWrite` of the byte and the response `OK` (R130). -/
theorem exec_bufwr_of_validAccess {s : State} {data : Byte} {off : Half} {d : Desc} (hrun : s.fatal = false)
    (hacc : s.validAccess off d = true) : exec (.bufwr data off d) s =
      .next ((s.writeByte d.bin.toNat d.slot.toNat off.toNat data).complete .ok 0 0) := by
  have hexec : exec (.bufwr data off d) s = execBufwr data off d s := rfl
  rw [hexec, execBufwr, State.unlessHalted_of_running hrun, if_pos hacc, State.respond]

end Sys2Proof.Machine

open Sys2Proof Sys2Proof.Machine

/-- Settles O23: the next state is the one after `MemWrite` and the response; of the bytes of slot memory `MemWrite` changes the one
at the descriptor's handle and the offset, since distinct bytes have distinct keys. -/
theorem bufwrStoresOneByte : Obligations.BufwrStoresOneByte := by
  intro s data off d hrun hvalid hoff
  have hacc : s.validAccess off d = true := State.validAccess_iff.2 ⟨hvalid, hoff⟩
  refine ⟨_, exec_bufwr_of_validAccess hrun hacc, rfl, fun b sl o hsl ho => ?_⟩
  rw [State.slotByte?_complete, State.slotByte?_writeByte s data d.slot.isLt off.isLt hsl ho]
  simp only [Desc.handle, Prod.mk.injEq, and_assoc]

end

section
/-! PROOF. `ENQ` to a sub-queue with room and `DEQ` from a non-empty one: the descriptor that enters or leaves, the owner tag that
changes hands, and the frame around them (R142, R143, R146, R147). -/

namespace Sys2Proof.Machine

/-! ## The sub-queues -/

theorem State.qFifo_eq {s : State} {q : Nat} {Q : SubQueue} (h : s.queues[q]? = some Q) : s.qFifo q = Q.fifo := by
  simp only [State.qFifo, h]

theorem State.qCnt_eq {s : State} {q : Nat} {Q : SubQueue} (h : s.queues[q]? = some Q) : s.qCnt q = Q.cnt := by
  simp only [State.qCnt, h]

/-- What a push does to every sub-queue (R142). -/
theorem State.getElem?_queues_pushQueue {s : State} {q : Nat} {Q : SubQueue} (h : s.queues[q]? = some Q) (d : Desc) :
    (s.pushQueue q d).queues[q]? = some ⟨Q.fifo ++ [d], Q.cnt + 1⟩ ∧
      ∀ j, j ≠ q → (s.pushQueue q d).queues[j]? = s.queues[j]? := by
  constructor
  · simp [h]
  · intro j hj
    simp [hj.symm]

/-- What a pop does to every sub-queue (R146). -/
theorem State.getElem?_queues_popQueue {s : State} {q : Nat} {Q : SubQueue} (h : s.queues[q]? = some Q) :
    (s.popQueue q).queues[q]? = some ⟨Q.fifo.tail, Q.cnt - 1⟩ ∧ ∀ j, j ≠ q → (s.popQueue q).queues[j]? = s.queues[j]? := by
  constructor
  · simp [h]
  · intro j hj
    simp [hj.symm]

/-! ## A slot that changes hands -/

/-- Everything a new owner of an existing slot changes in the pool: that slot's tag, no other tag, no free list and no count (R143). -/
theorem State.setOwner_spec {s t : State} {d : Desc} {o : Owner} (h : s.owner? d.bin.toNat d.slot.toNat ≠ none)
    (ht : t.pool = (s.setOwner d.bin.toNat d.slot.toNat o).pool) :
    t.owner? d.bin.toNat d.slot.toNat = some o ∧ (∀ b sl, (b, sl) ≠ d.handle → t.owner? b sl = s.owner? b sl) ∧
      ∀ b, t.freeList b = s.freeList b ∧ t.inUse b = s.inUse b := by
  refine ⟨?_, fun b sl hne => ?_, fun b => ⟨?_, ?_⟩⟩
  · rw [State.owner?_congr ht, State.owner?_setOwner o h, if_pos ⟨rfl, rfl⟩]
  · have hother : ¬(b = d.bin.toNat ∧ sl = d.slot.toNat) := by simpa [Desc.handle] using hne
    rw [State.owner?_congr ht, State.owner?_setOwner o h, if_neg hother]
  · rw [State.freeList_congr ht, State.freeList_setOwner]
  · rw [State.inUse_congr ht, State.inUse_setOwner]

/-! ## The two operations -/

/-- `ENQ` that passes its tests is a push, the slot handed to the queue, and the response `OK` (R142). -/
theorem exec_enq_of_room {s : State} {prio : Byte} {d : Desc} {q : Nat} (hrun : s.fatal = false) (hvalid : s.validExt d = true)
    (hidx : s.conf.qidx prio.toNat = some q) (hroom : s.qCnt q < s.conf.qDepth q) : exec (.enq prio d) s =
      .next (((s.pushQueue q d).setOwner d.bin.toNat d.slot.toNat .queue).complete .ok 0 0) := by
  have hexec : exec (.enq prio d) s = execEnq prio d s := rfl
  rw [hexec, execEnq, State.unlessHalted_of_running hrun, if_pos hvalid, hidx]
  exact if_neg hroom.not_ge

/-- `DEQ` that has a sub-queue to serve is a pop, the slot of the oldest descriptor handed to the caller, and the response `OK` with
the priority and the descriptor (R146). -/
theorem exec_deq_of_nextQueue {s : State} {q : Nat} {d : Desc} {rest : List Desc} (hrun : s.fatal = false)
    (hnext : s.nextQueue = some q) (hfifo : s.qFifo q = d :: rest) : exec .deq s =
      .next (((s.popQueue q).setOwner d.bin.toNat d.slot.toNat .ext).complete .ok (BitVec.ofNat 8 (s.conf.qPrio q)) d.pack) := by
  have hexec : exec .deq s = execDeq s := rfl
  simp only [hexec, execDeq, State.unlessHalted_of_running hrun, hnext, hfifo, State.respond]

end Sys2Proof.Machine

open Sys2Proof Sys2Proof.Machine

/-- Settles O26: the priority's sub-queue is the one given, since priorities are distinct, and it has room, so `ENQ` pushes there and
sets one owner tag. -/
theorem enqAppendsAtTail : Obligations.EnqAppendsAtTail := by
  intro s prio d q k Q hrun hvalid hk hprio hQ hroom
  have hidx : s.conf.qidx prio.toNat = some q := (Cfg.qidx_eq_some s.cfg.property).2 ⟨k, hk, hprio⟩
  have hdepth : s.qCnt q < s.conf.qDepth q := by rwa [State.qCnt_eq hQ, Cfg.qDepth_eq hk]
  have howner : s.owner? d.bin.toNat d.slot.toNat ≠ none := by
    obtain ⟨-, -, hext, -⟩ := State.validExt_iff.1 hvalid
    simp [hext]
  obtain ⟨htail, hqueues⟩ := State.getElem?_queues_pushQueue hQ d
  have hpool : (((s.pushQueue q d).setOwner d.bin.toNat d.slot.toNat .queue).complete .ok 0 0).pool =
      (s.setOwner d.bin.toNat d.slot.toNat .queue).pool := rfl
  obtain ⟨hqueue, hothers, hcounts⟩ := State.setOwner_spec howner hpool
  exact ⟨_, exec_enq_of_room hrun hvalid hidx hdepth, rfl, htail, hqueues, hqueue, hothers, hcounts, rfl, rfl⟩

/-- Settles O28: no non-empty sub-queue precedes the one given, so the scan stops there, and `DEQ` pops its oldest descriptor and sets
one owner tag. -/
theorem deqServesHighestPriority : Obligations.DeqServesHighestPriority := by
  intro s q k d rest n hrun hk hQ hfirst hown
  have hnonempty : 0 < s.qCnt q := by rw [State.qCnt_eq hQ]; exact n.succ_pos
  have hnext : s.nextQueue = some q := State.nextQueue_eq_some hk hnonempty hfirst
  have howner : s.owner? d.bin.toNat d.slot.toNat ≠ none := by simp [hown]
  have hexec := exec_deq_of_nextQueue hrun hnext (State.qFifo_eq hQ)
  rw [Cfg.qPrio_eq hk] at hexec
  obtain ⟨hpop, hqueues⟩ := State.getElem?_queues_popQueue hQ
  have hpool : (((s.popQueue q).setOwner d.bin.toNat d.slot.toNat .ext).complete .ok (BitVec.ofNat 8 k.prio) d.pack).pool =
      (s.setOwner d.bin.toNat d.slot.toNat .ext).pool := rfl
  obtain ⟨hext, hothers, hcounts⟩ := State.setOwner_spec howner hpool
  exact ⟨_, hexec, rfl, hpop, hqueues, hext, hothers, hcounts, rfl, rfl⟩

end

section
/-! PROOF. The Deframer operation `RXB` (43_deframer.md): what it does in each state of R39, what each of its parts answers in each row of
R186, and that it never reads `ready` (R194). -/

namespace Sys2Proof.Machine

/-! ## `RXB` by the state of the Deframer -/

/-- `RxbEffect d s u`: `u` is what `RXB d` makes of a running `s` before the response, one case for each state of the Deframer (R172). -/
inductive RxbEffect (d : Byte) (s : State) : State → Prop
  | seek (hst : s.rx.st = .seekingSync) : RxbEffect d s (s.rxSeek d)
  | length (hst : s.rx.st = .readingLength) : RxbEffect d s (s.rxLength d)
  | payload {b sl : Nat} (hst : s.rx.st = .readingPayload) (hbuf : s.rx.buf = some (b, sl)) (hcnt : s.rx.cnt < s.conf.binSize b) :
      RxbEffect d s (s.rxPayload b sl d)
  | checksum {b sl : Nat} (hst : s.rx.st = .readingChecksum) (hbuf : s.rx.buf = some (b, sl)) :
      RxbEffect d s (s.rxChecksum b sl d)

/-- `RXB` answers the state after its effect and the response `OK` (R171). -/
theorem RxbEffect.exec_eq {d : Byte} {s u : State} (h : RxbEffect d s u) (hrun : s.fatal = false) :
    exec (.rxb d) s = .next (u.complete .ok 0 0) := by
  have hexec : exec (.rxb d) s = execRxb d s := rfl
  rw [hexec, execRxb, State.unlessHalted_of_running hrun]
  cases h with
  | seek hst => simp only [hst, State.respond]
  | length hst => simp only [hst, State.respond]
  | payload hst hbuf hcnt => simp only [hst, hbuf, if_pos hcnt, State.respond]
  | checksum hst hbuf => simp only [hst, hbuf, State.respond]

/-- Everything `RXB` can answer: the same state while the block is halted, an effect and the response `OK` otherwise (R171, R263). -/
theorem exec_rxb_eq_next {d : Byte} {s t : State} (h : exec (.rxb d) s = .next t) :
    (s.fatal = true ∧ t = s) ∨ (s.fatal = false ∧ ∃ u, RxbEffect d s u ∧ t = u.complete .ok 0 0) := by
  obtain hhalted | ⟨hrun, hresult⟩ := State.unlessHalted_eq_next h
  · exact .inl hhalted
  · refine .inr ⟨hrun, ?_⟩
    split at hresult
    · next hst => exact ⟨_, .seek hst, State.respond_eq_next.1 hresult⟩
    · next hst => exact ⟨_, .length hst, State.respond_eq_next.1 hresult⟩
    · next hst hbuf =>
      split at hresult
      · next hcnt => exact ⟨_, .payload hst hbuf hcnt, State.respond_eq_next.1 hresult⟩
      · nomatch hresult
    · next hst hbuf => exact ⟨_, .checksum hst hbuf, State.respond_eq_next.1 hresult⟩
    all_goals nomatch hresult -- the three faults

/-! ## `SEEKING_SYNC` -/

/-- `seek` of the byte expected: the match goes on, or ends with the last sync byte (R173). -/
theorem State.rxSeek_of_match {s : State} {d : Byte} (h : s.conf.sync[s.rx.cnt]? = some d) : s.rxSeek d =
    { s with rx :=
      if s.rx.cnt + 1 = s.conf.sync.length then { s.rx with st := .readingLength, cnt := 0, scr := s.rx.scr ++ [d] }
      else { s.rx with cnt := s.rx.cnt + 1, scr := s.rx.scr ++ [d] } } := by
  rw [State.rxSeek, if_pos h]
  split <;> rfl

/-- `seek` of another byte: everything collected is dropped, and the byte starts a new match if it may and can (R173, R174). -/
theorem State.rxSeek_of_mismatch {s : State} {d : Byte} (h : s.conf.sync[s.rx.cnt]? ≠ some d) : s.rxSeek d =
    { s with rx :=
      if s.conf.syncRetest = true ∧ 0 < s.rx.cnt ∧ s.conf.sync[0]? = some d then { s.rx with cnt := 1, scr := [d] }
      else { s.rx with cnt := 0, scr := [] } } := by
  rw [State.rxSeek, if_neg h]
  simp only [Bool.and_eq_true, decide_eq_true_eq, and_assoc]
  split <;> rfl

/-! ## `READING_LENGTH` -/

/-- The state with a length byte collected (R175). -/
def State.withLengthByte (s : State) (d : Byte) : State :=
  { s with rx := { s.rx with scr := s.rx.scr ++ [d], cnt := s.rx.cnt + 1 } }

theorem State.rxLength_eq (s : State) (d : Byte) : s.rxLength d =
    if s.rx.cnt + 1 = s.conf.lenW then (s.withLengthByte d).rxLengthDone else s.withLengthByte d := rfl

theorem State.rxLength_of_last {s : State} (d : Byte) (h : s.rx.cnt + 1 = s.conf.lenW) :
    s.rxLength d = (s.withLengthByte d).rxLengthDone := by
  rw [State.rxLength_eq, if_pos h]

/-- A length above `MAX_PAYLOAD` drops the frame (R177). -/
theorem State.rxLengthDone_of_tooLong {s : State} (h : s.conf.maxPayload < s.conf.dec s.lengthBytes) :
    s.rxLengthDone = s.raiseLen.rxClear := by
  rw [State.rxLengthDone, if_pos h]

/-- A valid length for which there is no buffer drops the frame (R178). -/
theorem State.rxLengthDone_of_noBuffer {s : State} (h : s.conf.dec s.lengthBytes ≤ s.conf.maxPayload)
    (hpool : s.poolTake (s.conf.dec s.lengthBytes) = none) : s.rxLengthDone = s.raiseNoBuf.rxClear := by
  simp only [State.rxLengthDone, if_neg h.not_gt, hpool]

/-- A valid length for which there is a buffer: the Deframer owns the slot taken (R175, R179). -/
theorem State.rxLengthDone_of_buffer {s s' : State} {b sl : Nat} (h : s.conf.dec s.lengthBytes ≤ s.conf.maxPayload)
    (hpool : s.poolTake (s.conf.dec s.lengthBytes) = some (b, sl, s')) : s.rxLengthDone =
      { s'.setOwner b sl .rxd with rx := s'.rx.accept b sl (s.conf.dec s.lengthBytes) } := by
  simp only [State.rxLengthDone, if_neg h.not_gt, hpool, State.setOwner_rx]

/-! ## `READING_CHECKSUM` -/

/-- The state with a checksum byte collected (R181). -/
def State.withChecksumByte (s : State) (d : Byte) : State :=
  { s with rx := { s.rx with chk := s.rx.chk ++ [d], cnt := s.rx.cnt + 1 } }

theorem State.rxChecksum_eq (s : State) (b sl : Nat) (d : Byte) : s.rxChecksum b sl d =
    if s.rx.cnt + 1 = s.conf.chkW then (s.withChecksumByte d).rxChecksumDone b sl else s.withChecksumByte d := rfl

theorem State.rxChecksum_of_last {s : State} (b sl : Nat) (d : Byte) (h : s.rx.cnt + 1 = s.conf.chkW) :
    s.rxChecksum b sl d = (s.withChecksumByte d).rxChecksumDone b sl := by
  rw [State.rxChecksum_eq, if_pos h]

/-- What a slot with `P` stored in it reads as. -/
theorem State.readBytes_of_stored {s : State} {b sl n : Nat} {P : List Byte} (hlen : P.length = n)
    (h : ∀ i < n, s.slotByte? b sl i = P[i]?) : s.readBytes b sl n = P := by
  refine List.ext_getElem (by rw [State.length_readBytes, hlen]) fun i hi hP => ?_
  have hin : i < n := hlen ▸ hP
  have hbyte : s.slotByte? b sl i = some P[i] := by rw [h i hin, List.getElem?_eq_getElem hP]
  exact (List.getElem_eq_iff hi).2 (State.getElem?_readBytes hin hbyte)

/-- A matching checksum: the payload is dispatched, its slot is the sink's, `rx_clear` (R183). -/
theorem State.rxChecksumDone_of_match {s : State} {b sl : Nat} {P : List Byte} (hP : s.readBytes b sl s.rx.len = P)
    (h : s.conf.chk (s.lengthBytes ++ P) = s.rx.chk) : s.rxChecksumDone b sl =
      { s with
        pool := (s.setOwner b sl .ext).pool, rx := Deframer.fresh
        out := s.out ++ [.dispatch (mkDesc b sl s.rx.len) P] } := by
  subst hP
  rw [State.rxChecksumDone, if_pos h]
  rfl

/-- Another checksum: `F_CHK`, the slot back to the pool, `rx_clear` (R182). -/
theorem State.rxChecksumDone_of_mismatch {s : State} {b sl : Nat} {P : List Byte} (hP : s.readBytes b sl s.rx.len = P)
    (h : s.conf.chk (s.lengthBytes ++ P) ≠ s.rx.chk) : s.rxChecksumDone b sl =
      { s with pool := (s.poolGive b sl).pool, rx := Deframer.fresh, flags := { s.flags with chk := true } } := by
  subst hP
  rw [State.rxChecksumDone, if_neg h]
  rfl

/-- Everything a new owner of a slot changes in the pool: the slot's tag (R24). -/
theorem State.setOwner_spec_of_bin {s : State} {b sl : Nat} {B : Bin} (hB : s.pool[b]? = some B) (hsl : sl < B.owner.length)
    (o : Owner) :
    (s.setOwner b sl o).owner? b sl = some o ∧ (s.setOwner b sl o).freeList b = B.free ∧ (s.setOwner b sl o).inUse b = B.inUse ∧
      (∀ b' sl', (b', sl') ≠ (b, sl) → (s.setOwner b sl o).owner? b' sl' = s.owner? b' sl') ∧
      ∀ b', b' ≠ b → (s.setOwner b sl o).freeList b' = s.freeList b' ∧ (s.setOwner b sl o).inUse b' = s.inUse b' := by
  have howner : s.owner? b sl ≠ none := by simp [State.owner?_eq hB, hsl]
  refine ⟨?_, ?_, ?_, fun b' sl' hne => ?_, fun b' _ => ⟨s.freeList_setOwner b sl o b', s.inUse_setOwner b sl o b'⟩⟩
  · rw [State.owner?_setOwner o howner, if_pos ⟨rfl, rfl⟩]
  · rw [State.freeList_setOwner, State.freeList_eq hB]
  · rw [State.inUse_setOwner, State.inUse_eq hB]
  · have hother : ¬(b' = b ∧ sl' = sl) := by simpa using hne
    rw [State.owner?_setOwner o howner, if_neg hother]

/-! ## Another `ready` (R194) -/

/-- The state with `ready` replaced. -/
def State.withReady (s : State) (r : Bool) : State := { s with ready := r }

theorem State.complete_withReady (s : State) (r : Bool) (st : Status) (aux : Byte) (data : Quad) :
    (s.withReady r).complete st aux data = (s.complete st aux data).withReady r := rfl

theorem State.rxSeek_withReady (s : State) (r : Bool) (d : Byte) : (s.withReady r).rxSeek d = (s.rxSeek d).withReady r := by
  by_cases h : s.conf.sync[s.rx.cnt]? = some d
  · rw [State.rxSeek_of_match h, State.rxSeek_of_match (s := s.withReady r) h]; rfl
  · rw [State.rxSeek_of_mismatch h, State.rxSeek_of_mismatch (s := s.withReady r) h]; rfl

/-- `pool_take` answers the same slot, or none (R123). -/
theorem State.poolTake_withReady (s : State) (r : Bool) (n : Nat) :
    (s.withReady r).poolTake n = (s.poolTake n).map fun a => (a.1, a.2.1, a.2.2.withReady r) := by
  cases h : s.poolTake n with
  | none =>
    have hempty := State.poolTake_eq_none.1 h
    exact State.poolTake_eq_none.2 hempty
  | some a =>
    obtain ⟨hbest, rest, hfree, hs'⟩ := State.poolTake_eq_some.1 h
    exact State.poolTake_eq_some.2 ⟨hbest, rest, hfree, by rw [hs']; rfl⟩

theorem State.rxLengthDone_withReady (s : State) (r : Bool) : (s.withReady r).rxLengthDone = s.rxLengthDone.withReady r := by
  by_cases hlen : s.conf.maxPayload < s.conf.dec s.lengthBytes
  · rw [State.rxLengthDone_of_tooLong hlen, State.rxLengthDone_of_tooLong (s := s.withReady r) hlen]; rfl
  · have hvalid := Nat.le_of_not_gt hlen
    have htake := s.poolTake_withReady r (s.conf.dec s.lengthBytes)
    cases hpool : s.poolTake (s.conf.dec s.lengthBytes) with
    | none =>
      rw [hpool] at htake
      rw [State.rxLengthDone_of_noBuffer hvalid hpool, State.rxLengthDone_of_noBuffer (s := s.withReady r) hvalid htake]; rfl
    | some a =>
      rw [hpool] at htake
      rw [State.rxLengthDone_of_buffer hvalid hpool, State.rxLengthDone_of_buffer (s := s.withReady r) hvalid htake]; rfl

theorem State.rxLength_withReady (s : State) (r : Bool) (d : Byte) : (s.withReady r).rxLength d = (s.rxLength d).withReady r := by
  rw [State.rxLength_eq, State.rxLength_eq, apply_ite (State.withReady · r), ← State.rxLengthDone_withReady]
  rfl

theorem State.rxPayload_withReady (s : State) (r : Bool) (b sl : Nat) (d : Byte) :
    (s.withReady r).rxPayload b sl d = (s.rxPayload b sl d).withReady r := by
  simp only [State.rxPayload, apply_ite (State.withReady · r)]
  rfl

theorem State.rxChecksumDone_withReady (s : State) (r : Bool) (b sl : Nat) :
    (s.withReady r).rxChecksumDone b sl = (s.rxChecksumDone b sl).withReady r := by
  by_cases h : s.conf.chk (s.lengthBytes ++ s.readBytes b sl s.rx.len) = s.rx.chk
  · rw [State.rxChecksumDone_of_match rfl h, State.rxChecksumDone_of_match (s := s.withReady r) rfl h]; rfl
  · rw [State.rxChecksumDone_of_mismatch rfl h, State.rxChecksumDone_of_mismatch (s := s.withReady r) rfl h]; rfl

theorem State.rxChecksum_withReady (s : State) (r : Bool) (b sl : Nat) (d : Byte) :
    (s.withReady r).rxChecksum b sl d = (s.rxChecksum b sl d).withReady r := by
  rw [State.rxChecksum_eq, State.rxChecksum_eq, apply_ite (State.withReady · r), ← State.rxChecksumDone_withReady]
  rfl

/-- An effect of `RXB` is one with any other `ready` too. -/
theorem RxbEffect.withReady {d : Byte} {s u : State} (h : RxbEffect d s u) (r : Bool) :
    RxbEffect d (s.withReady r) (u.withReady r) := by
  cases h with
  | seek hst => exact s.rxSeek_withReady r d ▸ .seek hst
  | length hst => exact s.rxLength_withReady r d ▸ .length hst
  | payload hst hbuf hcnt => exact s.rxPayload_withReady r _ _ d ▸ .payload hst hbuf hcnt
  | checksum hst hbuf => exact s.rxChecksum_withReady r _ _ d ▸ .checksum hst hbuf

end Sys2Proof.Machine

open Sys2Proof Sys2Proof.Machine

/-- Settles O32, by cases on whether the byte is the one expected: `seek` changes the Deframer alone, as the matching row of R186 says. -/
theorem rxbSeeksSync : Obligations.RxbSeeksSync := by
  intro s d x hrun hst hx
  have hexec := (RxbEffect.seek (d := d) hst).exec_eq hrun
  by_cases hd : d = x
  · subst hd
    rw [State.rxSeek_of_match hx] at hexec
    exact ⟨_, hexec, rfl, fun _ hmore => if_neg hmore.ne, fun _ hlast => if_pos hlast, fun hne => absurd rfl hne,
      fun hne => absurd rfl hne⟩
  · have hmis : s.conf.sync[s.rx.cnt]? ≠ some d := by simpa [hx] using Ne.symm hd
    rw [State.rxSeek_of_mismatch hmis] at hexec
    exact ⟨_, hexec, rfl, fun heq => absurd heq hd, fun heq => absurd heq hd,
      fun _ hretest hpos hfirst => if_pos ⟨hretest, hpos, hfirst⟩, fun _ hno => if_neg hno⟩

/-- Settles O34: with the last length byte collected the length is the one given, so `rdlen` ends in the branch of R177, or in that of
R178, the pool as it was. -/
theorem rxbDropsFrameAtLength : Obligations.RxbDropsFrameAtLength := by
  intro s d len hrun hst hlast hlen
  have hexec := (RxbEffect.length (d := d) hst).exec_eq hrun
  rw [State.rxLength_of_last d hlast] at hexec
  have hdec : (s.withLengthByte d).conf.dec (s.withLengthByte d).lengthBytes = len := hlen
  refine ⟨fun hlong => ?_, fun hvalid hnofit => ?_⟩
  · rw [hexec, State.rxLengthDone_of_tooLong (hdec.symm ▸ hlong)]
    rfl
  · have hpool : (s.withLengthByte d).poolTake len = none := State.poolTake_of_noFit hnofit
    rw [hexec, State.rxLengthDone_of_noBuffer (hdec.symm ▸ hvalid) (hdec.symm ▸ hpool)]
    rfl

/-- Settles O35: `pool_take` answers the head of the best-fit bin's free list, and the next state is the one after it is taken and tagged
`RXD`. -/
theorem rxbTakesBufferAtLength : Obligations.RxbTakesBufferAtLength := by
  intro s d len b sl rest k hrun hinv hst hlast hlen hvalid hk hfits hfirst hfree
  have hdec : (s.withLengthByte d).conf.dec (s.withLengthByte d).lengthBytes = len := hlen
  have hpool : (s.withLengthByte d).poolTake len = some (b, sl, (s.withLengthByte d).takeSlot b sl rest) :=
    State.poolTake_of_bestFit hk hfits hfirst hfree
  have hexec := (RxbEffect.length (d := d) hst).exec_eq hrun
  rw [State.rxLength_of_last d hlast, State.rxLengthDone_of_buffer (hdec.symm ▸ hvalid) (hdec.symm ▸ hpool), hdec] at hexec
  have hinv' : (s.withLengthByte d).PoolInv := hinv
  obtain ⟨hrxd, hrest, hcount, howners, hothers, hundefined, hbytes⟩ := State.takeSlot_setOwner_spec hinv' hfree .rxd
  have hsize : s.conf.binSize b = k.size := Cfg.binSize_eq hk
  exact ⟨_, hexec, rfl, rfl, hrxd, hrest, hcount, howners, hothers, fun o ho => hundefined o (hsize.symm ▸ ho), hbytes, rfl,
    s.env.retire_drawFill_eq b sl⟩

/-- Settles O37: the bytes read are `P`, so the comparison is the one of the statement; on a match one owner tag changes, on a mismatch the
slot is given back. -/
theorem rxbChecksChecksum : Obligations.RxbChecksChecksum := by
  intro s d b sl B P hrun hst hbuf hlast hB hsl hlen hstored
  have hexec := (RxbEffect.checksum (d := d) hst hbuf).exec_eq hrun
  rw [State.rxChecksum_of_last b sl d hlast] at hexec
  have hP : (s.withChecksumByte d).readBytes b sl s.rx.len = P := State.readBytes_of_stored hlen hstored
  by_cases hchk : s.conf.chk ((s.rx.scr.drop s.conf.sync.length).take s.conf.lenW ++ P) = s.rx.chk ++ [d]
  · rw [State.rxChecksumDone_of_match hP hchk] at hexec
    obtain ⟨hext, hfree, hcount, howners, hothers⟩ := State.setOwner_spec_of_bin hB hsl .ext
    exact ⟨_, hexec, rfl, howners, hothers, fun _ => ⟨hext, hfree, hcount, rfl, rfl⟩, fun hne => absurd hchk hne⟩
  · rw [State.rxChecksumDone_of_mismatch hP hchk] at hexec
    obtain ⟨hfreed, hfree, hcount, howners, hothers⟩ := State.poolGive_spec hB (List.getElem?_eq_getElem hsl)
    exact ⟨_, hexec, rfl, howners, hothers, fun heq => absurd heq hchk, fun _ => ⟨hfreed, hfree, hcount, rfl, rfl⟩⟩

/-- Settles O55: each part of `RXB` commutes with replacing `ready`, and while halted nothing changes. -/
theorem deframerIgnoresReadiness : Obligations.DeframerIgnoresReadiness := by
  intro d s t r h
  obtain ⟨hhalted, rfl⟩ | ⟨hrun, u, heffect, rfl⟩ := exec_rxb_eq_next h
  · exact State.unlessHalted_of_halted (s := t.withReady r) hhalted _
  · exact (heffect.withReady r).exec_eq hrun

end

section
/-! PROOF. `TRDY` and `SUBMIT` (44_transport.md): what one operation can do to `ready`, and the buffer that `SUBMIT` drops while not
ready (R202, R204, R205). -/

namespace Sys2Proof.Machine

/-! ## Results that leave `ready` as it is -/

/-- Where the result is a next state, its `ready` is that of `s`. -/
def State.KeepsReady (s : State) (r : Result) : Prop := ∀ t, r = .next t → t.ready = s.ready

/-- A response keeps what the effect before it kept (R92). -/
@[simp] theorem State.keepsReady_respond {s u : State} {st : Status} {aux : Byte} {data : Quad} :
    s.KeepsReady (u.respond st aux data) ↔ u.ready = s.ready := by
  simp [State.KeepsReady, State.respond_eq_next]

/-- The fatal fault leaves `ready` as it is (R262). -/
@[simp] theorem State.keepsReady_raiseFatal (s : State) (st : Status) (d : Desc) : s.KeepsReady (s.raiseFatal st d) := by
  simp [State.KeepsReady, State.raiseFatal_eq_next]

/-- A held operation changes nothing (R149, R263). -/
@[simp] theorem State.keepsReady_hold (s : State) : s.KeepsReady s.hold := by
  simp [State.KeepsReady, State.hold]

/-- A stop of the model has no next state. -/
@[simp] theorem State.keepsReady_fault (s : State) (f : Fault) : s.KeepsReady (.fault f) := by
  simp [State.KeepsReady]

/-- While halted nothing changes, so only the effect while running matters (R263). -/
theorem State.keepsReady_unlessHalted {s : State} {r : Result} (h : s.KeepsReady r) : s.KeepsReady (s.unlessHalted r) := by
  intro t ht
  obtain ⟨-, rfl⟩ | ⟨-, hr⟩ := State.unlessHalted_eq_next ht
  · rfl
  · exact h t hr

/-! ## Operations that leave `ready` as it is -/

theorem State.ready_of_poolTake {s s' : State} {n b sl : Nat} (h : s.poolTake n = some (b, sl, s')) : s'.ready = s.ready := by
  obtain ⟨-, rest, -, rfl⟩ := State.poolTake_eq_some.1 h
  exact s.takeSlot_ready b sl rest

@[simp] theorem State.storeFrame_ready (s : State) (d : Desc) (b sl : Nat) : (s.storeFrame d b sl).ready = s.ready := rfl
@[simp] theorem State.offer_ready (s : State) (d : Desc) : (s.offer d).ready = s.ready := rfl
@[simp] theorem State.dropSubmit_ready (s : State) (d : Desc) : (s.dropSubmit d).ready = s.ready := rfl

theorem keepsReady_execAlloc (size : Half) (s : State) : s.KeepsReady (execAlloc size s) := by
  apply State.keepsReady_unlessHalted
  split
  · simp
  · next hpool => simp [State.ready_of_poolTake hpool]

theorem keepsReady_execEnq (prio : Byte) (d : Desc) (s : State) : s.KeepsReady (execEnq prio d s) := by
  apply State.keepsReady_unlessHalted
  split
  · split
    · simp
    · split <;> simp
  · simp

theorem keepsReady_execDeq (s : State) : s.KeepsReady (execDeq s) := by
  apply State.keepsReady_unlessHalted
  split
  · simp
  · split <;> simp

theorem keepsReady_execFrame (d : Desc) (s : State) : s.KeepsReady (execFrame d s) := by
  apply State.keepsReady_unlessHalted
  split
  · split
    · simp
    · split
      · simp
      · next hpool => simp [State.ready_of_poolTake hpool]
  · simp

/-- `RXB` does the same whatever `ready` is and carries it over, so it carries over the one there is (R194). -/
theorem keepsReady_execRxb (data : Byte) (s : State) : s.KeepsReady (execRxb data s) := by
  intro t h
  have hsame : execRxb data s = .next { t with ready := s.ready } := deframerIgnoresReadiness data s t s.ready h
  have heq : t = { t with ready := s.ready } := by simpa using h.symm.trans hsame
  exact congrArg (·.ready) heq

theorem keepsReady_execSubmit (d : Desc) (s : State) : s.KeepsReady (execSubmit d s) := by
  apply State.keepsReady_unlessHalted
  split
  · split
    · split <;> simp
    · simp
  · simp

theorem keepsReady_execRdcsr (csr : Half) (s : State) : s.KeepsReady (execRdcsr csr s) := by
  rw [execRdcsr]
  split <;> simp

/-! ## `TRDY`, and what any operation does to `ready` -/

/-- `TRDY` of a running block sets `ready` and answers `OK` (R202). -/
theorem exec_trdy_of_running {s : State} (hrun : s.fatal = false) :
    exec .trdy s = .next (State.complete { s with ready := true } .ok 0 0) := by
  have hexec : exec .trdy s = execTrdy s := rfl
  rw [hexec, execTrdy, State.unlessHalted_of_running hrun, State.respond]

/-- Everything an operation can do to `ready`: leave it, set it if it is `TRDY`, clear it if it is `RST` (R202, R238). -/
theorem ready_of_exec_eq_next {i : Instr} {s t : State} (h : exec i s = .next t) :
    t.ready = s.ready ∨ (i = .trdy ∧ t.ready = true) ∨ (i = .rst ∧ t.ready = false) := by
  cases i with
  | nop => exact .inl (State.keepsReady_unlessHalted (by simp) t h)
  | alloc size => exact .inl (keepsReady_execAlloc size s t h)
  | release d => exact .inl (State.keepsReady_unlessHalted (by split <;> simp) t h)
  | bufwr data off d => exact .inl (State.keepsReady_unlessHalted (by split <;> simp) t h)
  | bufrd off d => exact .inl (State.keepsReady_unlessHalted (by split <;> simp) t h)
  | enq prio d => exact .inl (keepsReady_execEnq prio d s t h)
  | deq => exact .inl (keepsReady_execDeq s t h)
  | frame d => exact .inl (keepsReady_execFrame d s t h)
  | rxb data => exact .inl (keepsReady_execRxb data s t h)
  | submit d => exact .inl (keepsReady_execSubmit d s t h)
  | trdy =>
    obtain ⟨-, rfl⟩ | ⟨-, hset⟩ := State.unlessHalted_eq_next h
    · exact .inl rfl
    · exact .inr (.inl ⟨rfl, by rw [State.respond_eq_next.1 hset, State.complete_ready]⟩)
  | start => exact .inl (State.keepsReady_unlessHalted (by simp) t h)
  | tick => exact .inl (State.keepsReady_unlessHalted (by split <;> simp) t h)
  | rdcsr csr => exact .inl (keepsReady_execRdcsr csr s t h)
  | clrsts => exact .inl (State.keepsReady_unlessHalted (by simp) t h)
  | rst =>
    have ht : t = s.resetBlock.complete .ok 0 0 := State.respond_eq_next.1 h
    exact .inr (.inr ⟨rfl, by rw [ht]; rfl⟩)

/-! ## `SUBMIT` while not ready -/

/-- `SUBMIT` of a valid descriptor while not ready drops it and answers `E_TRANSPORT_NOT_READY` (R204, R205). -/
theorem exec_submit_of_notReady {s : State} {d : Desc} (hrun : s.fatal = false) (hready : s.ready = false)
    (hvalid : s.validExt d = true) : exec (.submit d) s = .next ((s.dropSubmit d).complete .transportNotReady 0 0) := by
  have hexec : exec (.submit d) s = execSubmit d s := rfl
  have hnot : ¬s.ready = true := by simp [hready]
  rw [hexec, execSubmit, State.unlessHalted_of_running hrun, if_pos hvalid, if_neg hnot, State.respond]

end Sys2Proof.Machine

open Sys2Proof Sys2Proof.Machine

/-- Settles O38: of what an operation can do to `ready`, only the case of `RST` ends with it clear where it was set, and only that of
`TRDY` with it set where it was clear. -/
theorem trdySetsReady : Obligations.TrdySetsReady := by
  refine ⟨rfl, ⟨_, rfl, by decide, by decide⟩, fun s hrun => exec_trdy_of_running hrun, fun i s t h hset hrst => ?_,
    fun i s t h hclear hset => ?_⟩
  · obtain hkeep | ⟨-, htrue⟩ | ⟨hi, -⟩ := ready_of_exec_eq_next h
    · exact hkeep.trans hset
    · exact htrue
    · exact absurd hi hrst
  · obtain hkeep | ⟨hi, -⟩ | ⟨-, hfalse⟩ := ready_of_exec_eq_next h
    · simp [hkeep, hclear] at hset
    · exact hi
    · simp [hfalse] at hset

/-- Settles O39: the descriptor is valid, so its slot exists and is not free, and the next state is the one after `F_TXDROP`, `pool_give`
of that slot and the response. -/
theorem submitDropsWhileNotReady : Obligations.SubmitDropsWhileNotReady := by
  intro s d B hrun hready hvalid hB
  obtain ⟨-, -, hext, -⟩ := State.validExt_iff.1 hvalid
  rw [State.owner?_eq hB] at hext
  obtain ⟨hfreed, hfree, hcount, howners, hothers⟩ := State.poolGive_spec (s := s.raiseTxDrop) hB hext
  exact ⟨_, exec_submit_of_notReady hrun hready hvalid, rfl, hfreed, hfree, hcount, howners, hothers, rfl, rfl, rfl⟩

end

section
/-! PROOF. `START` and `TICK` (45_tick.md): that no operation but `RST` stops the scheduler, and the count and the activations of one tick
(R217 to R223). -/

namespace Sys2Proof.Machine

/-! ## Results in which the scheduler runs -/

/-- Where the result is a next state, `started` is set in it. -/
def StaysStarted (r : Result) : Prop := ∀ t, r = .next t → t.started = true

/-- A response leaves `started` as the effect before it did (R92). -/
@[simp] theorem staysStarted_respond {s : State} {st : Status} {aux : Byte} {data : Quad} :
    StaysStarted (s.respond st aux data) ↔ s.started = true := by
  simp [StaysStarted, State.respond_eq_next]

/-- The fatal fault leaves `started` as it is (R262). -/
@[simp] theorem staysStarted_raiseFatal {s : State} {st : Status} {d : Desc} :
    StaysStarted (s.raiseFatal st d) ↔ s.started = true := by
  simp [StaysStarted, State.raiseFatal_eq_next]

/-- A held operation changes nothing (R149, R263). -/
@[simp] theorem staysStarted_hold {s : State} : StaysStarted s.hold ↔ s.started = true := by
  simp [StaysStarted, State.hold]

/-- A stop of the model has no next state. -/
@[simp] theorem staysStarted_fault (f : Fault) : StaysStarted (.fault f) := by
  simp [StaysStarted]

/-- While halted nothing changes, so only the effect while running matters (R263). -/
theorem staysStarted_unlessHalted {s : State} {r : Result} (hs : s.started = true) (h : StaysStarted r) :
    StaysStarted (s.unlessHalted r) := by
  intro t ht
  obtain ⟨-, rfl⟩ | ⟨-, hr⟩ := State.unlessHalted_eq_next ht
  · exact hs
  · exact h t hr

/-! ## `started` after the effect of an operation -/

theorem State.started_of_poolTake {s s' : State} {n b sl : Nat} (h : s.poolTake n = some (b, sl, s')) :
    s'.started = s.started := by
  obtain ⟨-, rest, -, rfl⟩ := State.poolTake_eq_some.1 h
  exact s.takeSlot_started b sl rest

@[simp] theorem State.storeFrame_started (s : State) (d : Desc) (b sl : Nat) : (s.storeFrame d b sl).started = s.started := rfl
@[simp] theorem State.offer_started (s : State) (d : Desc) : (s.offer d).started = s.started := rfl
@[simp] theorem State.dropSubmit_started (s : State) (d : Desc) : (s.dropSubmit d).started = s.started := rfl

theorem State.rxSeek_started (s : State) (d : Byte) : (s.rxSeek d).started = s.started := by
  by_cases h : s.conf.sync[s.rx.cnt]? = some d
  · rw [State.rxSeek_of_match h]
  · rw [State.rxSeek_of_mismatch h]

theorem State.rxLengthDone_started (s : State) : s.rxLengthDone.started = s.started := by
  by_cases hlen : s.conf.maxPayload < s.conf.dec s.lengthBytes
  · rw [State.rxLengthDone_of_tooLong hlen]; rfl
  · have hvalid := Nat.le_of_not_gt hlen
    cases hpool : s.poolTake (s.conf.dec s.lengthBytes) with
    | none => rw [State.rxLengthDone_of_noBuffer hvalid hpool]; rfl
    | some a =>
      have htake : a.2.2.started = s.started := State.started_of_poolTake hpool
      rw [State.rxLengthDone_of_buffer hvalid hpool, ← htake]
      rfl

theorem State.rxLength_started (s : State) (d : Byte) : (s.rxLength d).started = s.started := by
  rw [State.rxLength_eq]
  split
  · exact (s.withLengthByte d).rxLengthDone_started
  · rfl

theorem State.rxPayload_started (s : State) (b sl : Nat) (d : Byte) : (s.rxPayload b sl d).started = s.started := by
  rw [State.rxPayload]
  split <;> rfl

theorem State.rxChecksumDone_started (s : State) (b sl : Nat) : (s.rxChecksumDone b sl).started = s.started := by
  by_cases h : s.conf.chk (s.lengthBytes ++ s.readBytes b sl s.rx.len) = s.rx.chk
  · rw [State.rxChecksumDone_of_match rfl h]
  · rw [State.rxChecksumDone_of_mismatch rfl h]

theorem State.rxChecksum_started (s : State) (b sl : Nat) (d : Byte) : (s.rxChecksum b sl d).started = s.started := by
  rw [State.rxChecksum_eq]
  split
  · exact (s.withChecksumByte d).rxChecksumDone_started b sl
  · rfl

/-- No row of the Deframer's table touches the scheduler (R186). -/
theorem RxbEffect.started_eq {d : Byte} {s u : State} (h : RxbEffect d s u) : u.started = s.started := by
  cases h with
  | seek => exact s.rxSeek_started d
  | length => exact s.rxLength_started d
  | payload => exact s.rxPayload_started _ _ d
  | checksum => exact s.rxChecksum_started _ _ d

/-! ## No operation but `RST` stops the scheduler -/

section
variable {s : State} (hs : s.started = true)
include hs

theorem staysStarted_execAlloc (size : Half) : StaysStarted (execAlloc size s) := by
  apply staysStarted_unlessHalted hs
  split
  · simp [hs]
  · next hpool => simp [State.started_of_poolTake hpool, hs]

theorem staysStarted_execEnq (prio : Byte) (d : Desc) : StaysStarted (execEnq prio d s) := by
  apply staysStarted_unlessHalted hs
  split
  · split
    · simp [hs]
    · split <;> simp [hs]
  · simp [hs]

theorem staysStarted_execDeq : StaysStarted (execDeq s) := by
  apply staysStarted_unlessHalted hs
  split
  · simp [hs]
  · split <;> simp [hs]

theorem staysStarted_execFrame (d : Desc) : StaysStarted (execFrame d s) := by
  apply staysStarted_unlessHalted hs
  split
  · split
    · simp [hs]
    · split
      · simp [hs]
      · next hpool => simp [State.started_of_poolTake hpool, hs]
  · simp [hs]

theorem staysStarted_exec_rxb (data : Byte) : StaysStarted (exec (.rxb data) s) := by
  intro t h
  obtain ⟨-, rfl⟩ | ⟨-, u, hu, rfl⟩ := exec_rxb_eq_next h
  · exact hs
  · rw [State.complete_started, hu.started_eq, hs]

theorem staysStarted_execSubmit (d : Desc) : StaysStarted (execSubmit d s) := by
  apply staysStarted_unlessHalted hs
  split
  · split
    · split <;> simp [hs]
    · simp [hs]
  · simp [hs]

theorem staysStarted_execRdcsr (csr : Half) : StaysStarted (execRdcsr csr s) := by
  rw [execRdcsr]
  split <;> simp [hs]

/-- No operation but `RST` clears `started` (R217). -/
theorem staysStarted_exec {i : Instr} (hi : i ≠ .rst) : StaysStarted (exec i s) := by
  cases i with
  | nop => exact staysStarted_unlessHalted hs (by simp [hs])
  | alloc size => exact staysStarted_execAlloc hs size
  | release d => exact staysStarted_unlessHalted hs (by split <;> simp [hs])
  | bufwr data off d => exact staysStarted_unlessHalted hs (by split <;> simp [hs])
  | bufrd off d => exact staysStarted_unlessHalted hs (by split <;> simp [hs])
  | enq prio d => exact staysStarted_execEnq hs prio d
  | deq => exact staysStarted_execDeq hs
  | frame d => exact staysStarted_execFrame hs d
  | rxb data => exact staysStarted_exec_rxb hs data
  | submit d => exact staysStarted_execSubmit hs d
  | trdy => exact staysStarted_unlessHalted hs (by simp [hs])
  | start => exact staysStarted_unlessHalted hs (by simp)
  | tick => exact staysStarted_unlessHalted hs (by split <;> simp [hs])
  | rdcsr csr => exact staysStarted_execRdcsr hs csr
  | clrsts => exact staysStarted_unlessHalted hs (by simp [hs])
  | rst => exact absurd rfl hi

end

/-! ## `START` and `TICK` of a running block -/

/-- `START` sets `started` and answers `OK` (R217). -/
theorem exec_start_of_running {s : State} (hrun : s.fatal = false) :
    exec .start s = .next (State.complete { s with started := true } .ok 0 0) := by
  have hexec : exec .start s = execStart s := rfl
  rw [hexec, execStart, State.unlessHalted_of_running hrun, State.respond]

/-- `TICK` before `START` only answers `E_NOT_STARTED` (R222). -/
theorem exec_tick_of_notStarted {s : State} (hrun : s.fatal = false) (hstarted : s.started = false) :
    exec .tick s = .next (s.complete .notStarted 0 0) := by
  have hexec : exec .tick s = execTick s := rfl
  have hnot : ¬s.started = true := by simp [hstarted]
  rw [hexec, execTick, State.unlessHalted_of_running hrun, if_neg hnot, State.respond]

/-- `TICK` after `START` counts, activates at the new count and answers `OK` (R219). -/
theorem exec_tick_of_started {s : State} (hrun : s.fatal = false) (hstarted : s.started = true) :
    exec .tick s = .next ((State.emit { s with tickCnt := s.tickCnt + 1 }
      (activations s.conf (s.tickCnt + 1).toNat)).complete .ok 0 0) := by
  have hexec : exec .tick s = execTick s := rfl
  rw [hexec, execTick, State.unlessHalted_of_running hrun, if_pos hstarted, State.respond]

/-! ## The activations of one tick -/

/-- The consumers of a group by their registration order (R223). -/
theorem groupEvents_eq_map_zipIdx (g i : Nat) (ctx : List Quad) :
    groupEvents g i ctx = (ctx.zipIdx i).map fun ci => .act g ci.2 ci.1 := by
  induction ctx generalizing i with
  | nil => rfl
  | cons c r ih => rw [groupEvents, ih, List.zipIdx_cons, List.map_cons]

/-- The groups by their index in the configuration table (R223). -/
theorem activationsFrom_eq_flatMap_zipIdx (n g : Nat) (l : List GroupCfg) :
    activationsFrom n g l = (l.zipIdx g).flatMap fun gk =>
      if n % gk.1.div = 0 then gk.1.ctx.zipIdx.map fun ci => .act gk.2 ci.2 ci.1 else [] := by
  induction l generalizing g with
  | nil => rfl
  | cons k r ih => rw [activationsFrom, ih, groupEvents_eq_map_zipIdx, List.zipIdx_cons, List.flatMap_cons]

end Sys2Proof.Machine

open Sys2Proof Sys2Proof.Machine

/-- Settles O41: `START` by its own effect, the other operations because only `RST` can end with `started` clear where it was set. -/
theorem startSetsStarted : Obligations.StartSetsStarted :=
  ⟨rfl, fun _ hrun => exec_start_of_running hrun, fun _ _ t h hs hi => staysStarted_exec hs hi t h⟩

/-- Settles O42: a tick before `START` is only answered. -/
theorem tickBeforeStartIgnored : Obligations.TickBeforeStartIgnored :=
  ⟨rfl, fun _ hrun hstarted => exec_tick_of_notStarted hrun hstarted⟩

/-- Settles O43: the counter is the count `n` modulo `2^32`, and the activations of the model, read by position in the configuration
table, are those of the groups whose divisor divides `n`. -/
theorem tickActivatesDividingGroups : Obligations.TickActivatesDividingGroups := by
  intro s n hrun hstarted hn
  have hcount : (s.tickCnt + 1).toNat = n := by rw [hn, BitVec.toNat_add]; rfl
  have hword : s.tickCnt + 1 = BitVec.ofNat 32 n := by rw [← hcount, BitVec.ofNat_toNat, BitVec.setWidth_eq]
  rw [exec_tick_of_started hrun hstarted, hcount, hword, activations, activationsFrom_eq_flatMap_zipIdx]
  rfl

end

section
/-! PROOF. The system operations (46_system.md): `RDCSR` of a number outside the CSR table (R234), `NOP` (R231) and `CLRSTS` (R236). -/

namespace Sys2Proof.Machine

/-! ## The numbers outside the CSR table -/

/-- A number on page `p` of the CSR table that is none of the first `n` of that page has an index of at least `n`. -/
theorem le_mod_of_page {csr n p base : Nat} (hbase : base = 256 * p) (hpage : csr / 256 = p) (h : ∀ k < n, csr ≠ base + k) :
    n ≤ csr % 256 := by
  by_contra hlt
  exact h (csr % 256) (by omega) (by omega)

/-- The numbers outside R53's table (R234): beyond the eight single registers, and on each of the six pages of the bins, the queues and
the groups beyond the configured ones. -/
theorem State.csr?_eq_none {s : State} {csr : Half} (hsingle : 0x0008 ≤ csr.toNat)
    (hbins : ∀ b < s.conf.bins.length, csr.toNat ≠ 0x0100 + b ∧ csr.toNat ≠ 0x0200 + b)
    (hqueues : ∀ q < s.conf.queues.length, csr.toNat ≠ 0x0300 + q ∧ csr.toNat ≠ 0x0400 + q)
    (hgroups : ∀ g < s.conf.groups.length, csr.toNat ≠ 0x0500 + g ∧ csr.toNat ≠ 0x0600 + g) : s.csr? csr = none := by
  rw [State.csr?]
  split
  next hpage => -- the single registers
    have hindex : 8 ≤ csr.toNat % 256 := by omega
    split
    case h_9 => rfl
    all_goals omega
  next hpage => -- `BINCFG`
    simpa using le_mod_of_page rfl hpage fun b hb => (hbins b hb).1
  next hpage => -- `BINUSE`
    exact if_neg (le_mod_of_page rfl hpage fun b hb => (hbins b hb).2).not_gt
  next hpage => -- `QCFG`
    simpa using le_mod_of_page rfl hpage fun q hq => (hqueues q hq).1
  next hpage => -- `QCNT`
    exact if_neg (le_mod_of_page rfl hpage fun q hq => (hqueues q hq).2).not_gt
  next hpage => -- `GRPDIV`
    simpa using le_mod_of_page rfl hpage fun g hg => (hgroups g hg).1
  next hpage => -- `GRPN`
    simpa using le_mod_of_page rfl hpage fun g hg => (hgroups g hg).2
  next => rfl

/-! ## The three operations -/

/-- `RDCSR` of a number outside the table only answers `E_BAD_CSR`, halted or not (R234, R255). -/
theorem exec_rdcsr_of_csr?_eq_none {s : State} {csr : Half} (h : s.csr? csr = none) :
    exec (.rdcsr csr) s = .next (s.complete .badCsr 0 0) := by
  have hexec : exec (.rdcsr csr) s = execRdcsr csr s := rfl
  rw [hexec, execRdcsr, h, State.respond]

/-- `NOP` of a running block only answers `OK` (R231). -/
theorem exec_nop_of_running {s : State} (hrun : s.fatal = false) : exec .nop s = .next (s.complete .ok 0 0) := by
  have hexec : exec .nop s = execNop s := rfl
  rw [hexec, execNop, State.unlessHalted_of_running hrun, State.respond]

/-- `NOP` has a step exactly while the block runs (R263). -/
theorem State.enabledOp_nop (s : State) : s.enabledOp (.ok .nop) = !s.fatal := rfl

/-- `CLRSTS` of a running block clears the sticky flags and answers `OK` (R236). -/
theorem exec_clrsts_of_running {s : State} (hrun : s.fatal = false) :
    exec .clrsts s = .next (s.clearSticky.complete .ok 0 0) := by
  have hexec : exec .clrsts s = execClrsts s := rfl
  rw [hexec, execClrsts, State.unlessHalted_of_running hrun, State.respond]

end Sys2Proof.Machine

open Sys2Proof Sys2Proof.Machine

/-- Settles O49: the number is outside the CSR table, so `RDCSR` answers `E_BAD_CSR` and nothing else happens. The printed words are
evaluated. -/
theorem rdcsrRejectsUnknownNumber : Obligations.RdcsrRejectsUnknownNumber :=
  ⟨rfl, rfl, rfl, fun _ _ hsingle hbins hqueues hgroups =>
    exec_rdcsr_of_csr?_eq_none (State.csr?_eq_none hsingle hbins hqueues hgroups)⟩

/-- Settles O45: a running block only answers, a halted one holds the operation. The all-zero words are evaluated. -/
theorem nopOnlyAnswers : Obligations.NopOnlyAnswers :=
  ⟨rfl, rfl, fun s => ⟨fun hrun => exec_nop_of_running hrun, fun hhalted => by simp [s.enabledOp_nop, hhalted]⟩⟩

/-- Settles O50: the flags are those of `clearSticky`, the rest is the response. The printed word is evaluated. -/
theorem clrstsClearsFlags : Obligations.ClrstsClearsFlags :=
  ⟨rfl, fun _ hrun => exec_clrsts_of_running hrun⟩

end

section
/-! PROOF. The abnormal conditions (60_exceptions.md): which operation takes which fatal fault, and what it leaves as it was (R258 to R262);
that no other operation and no event port can halt the block (R260); and the requests that `ENQ` and `FRAME` refuse (R247 to R249, R252). -/

namespace Sys2Proof.Machine

/-! ## The fatal fault an operation takes -/

/-- The fatal fault that an operation takes in a state, with the descriptor it reports: `RELEASE` of a slot no external agent owns (R258),
use of a buffer by an agent that does not own it, or beyond its capacity (R259, R131). An operation without a descriptor takes none (R260). -/
def State.faultOf? (s : State) : Instr → Option (Status × Desc)
  | .release d => if s.validHandle d && s.ownedExt d then none else some (.invalidRelease, d)
  | .bufwr _ off d => if s.validAccess off d then none else some (.invalidBuffer, d)
  | .bufrd off d => if s.validAccess off d then none else some (.invalidBuffer, d)
  | .enq _ d => if s.validExt d then none else some (.invalidBuffer, d)
  | .frame d => if s.validExt d then none else some (.invalidBuffer, d)
  | .submit d => if s.validExt d then none else some (.invalidBuffer, d)
  | .nop | .alloc _ | .deq | .rxb _ | .trdy | .start | .tick | .rdcsr _ | .clrsts | .rst => none

/-- The operations that take a descriptor (R260). -/
theorem State.exists_desc_of_faultOf?_eq_some {s : State} {i : Instr} {fault : Status × Desc} (h : s.faultOf? i = some fault) :
    ∃ d, i = .release d ∨ (∃ data off, i = .bufwr data off d) ∨ (∃ off, i = .bufrd off d) ∨ (∃ prio, i = .enq prio d) ∨
      i = .frame d ∨ i = .submit d := by
  cases i with
  | release d => exact ⟨d, by simp⟩
  | bufwr data off d => exact ⟨d, by simp⟩
  | bufrd off d => exact ⟨d, by simp⟩
  | enq prio d => exact ⟨d, by simp⟩
  | frame d => exact ⟨d, by simp⟩
  | submit d => exact ⟨d, by simp⟩
  | nop | alloc | deq | rxb | trdy | start | tick | rdcsr | clrsts | rst => nomatch h

section
variable {s : State} (hrun : s.fatal = false)
include hrun

/-- An operation that fails the test before its effect takes the fault named for that failure (R262). -/
theorem State.guarded_eq_raiseFatal {c : Bool} {r : Result} {st st' : Status} {d d' : Desc}
    (hfault : (if c then none else some (st', d')) = some (st, d)) :
    s.unlessHalted (if c then r else s.raiseFatal st' d') = .next ((s.halt st d).complete st 0 0) := by
  obtain ⟨hc, heq⟩ := Option.ite_none_left_eq_some.1 hfault
  cases heq
  rw [State.unlessHalted_of_running hrun, if_neg hc, State.raiseFatal, State.respond]

/-- An operation that takes a fatal fault halts the block before any other test, changes nothing else, and is answered with the fault's
code (R262, R265). -/
theorem exec_of_faultOf?_eq_some {i : Instr} {st : Status} {d : Desc} (hfault : s.faultOf? i = some (st, d)) :
    exec i s = .next ((s.halt st d).complete st 0 0) := by
  cases i with
  | release | bufwr | bufrd | enq | frame | submit => exact State.guarded_eq_raiseFatal hrun hfault
  | nop | alloc | deq | rxb | trdy | start | tick | rdcsr | clrsts | rst => nomatch hfault

end

/-! ## The frame of the Deframer -/

/-- `u` differs from `s` in nothing but what the Deframer may write: the pool and slot memory, its own state, the output history, the
sticky flags and, for the draw of a slot taken, `env`. -/
def State.DeframerFrame (s u : State) : Prop :=
  u = { s with pool := u.pool, mem := u.mem, rx := u.rx, out := u.out, flags := u.flags, env := u.env }

theorem State.rxSeek_frame (s : State) (d : Byte) : s.DeframerFrame (s.rxSeek d) := by
  by_cases h : s.conf.sync[s.rx.cnt]? = some d
  · rw [State.rxSeek_of_match h]; rfl
  · rw [State.rxSeek_of_mismatch h]; rfl

theorem State.rxLengthDone_frame (s : State) : s.DeframerFrame s.rxLengthDone := by
  by_cases hlen : s.conf.maxPayload < s.conf.dec s.lengthBytes
  · rw [State.rxLengthDone_of_tooLong hlen]; rfl
  · have hvalid := Nat.le_of_not_gt hlen
    cases hpool : s.poolTake (s.conf.dec s.lengthBytes) with
    | none => rw [State.rxLengthDone_of_noBuffer hvalid hpool]; rfl
    | some taken =>
      obtain ⟨b, sl, s'⟩ := taken
      rw [State.rxLengthDone_of_buffer hvalid hpool]
      obtain ⟨-, rest, -, rfl⟩ := State.poolTake_eq_some.1 hpool
      rfl

theorem State.rxLength_frame (s : State) (d : Byte) : s.DeframerFrame (s.rxLength d) := by
  rw [State.rxLength_eq]
  split
  · exact (s.withLengthByte d).rxLengthDone_frame
  · rfl

theorem State.rxPayload_frame (s : State) (b sl : Nat) (d : Byte) : s.DeframerFrame (s.rxPayload b sl d) := by
  rw [State.rxPayload]
  split <;> rfl

theorem State.rxChecksumDone_frame (s : State) (b sl : Nat) : s.DeframerFrame (s.rxChecksumDone b sl) := by
  by_cases h : s.conf.chk (s.lengthBytes ++ s.readBytes b sl s.rx.len) = s.rx.chk
  · rw [State.rxChecksumDone_of_match rfl h]; rfl
  · rw [State.rxChecksumDone_of_mismatch rfl h]; rfl

theorem State.rxChecksum_frame (s : State) (b sl : Nat) (d : Byte) : s.DeframerFrame (s.rxChecksum b sl d) := by
  rw [State.rxChecksum_eq]
  split
  · exact (s.withChecksumByte d).rxChecksumDone_frame b sl
  · rfl

/-- What every row of the Deframer's table leaves as it was (R186). -/
theorem RxbEffect.frame {d : Byte} {s u : State} (h : RxbEffect d s u) : s.DeframerFrame u := by
  cases h with
  | seek => exact s.rxSeek_frame d
  | length => exact s.rxLength_frame d
  | payload => exact s.rxPayload_frame _ _ d
  | checksum => exact s.rxChecksum_frame _ _ d

theorem RxbEffect.fatal_eq {d : Byte} {s u : State} (h : RxbEffect d s u) : u.fatal = s.fatal :=
  congrArg (·.fatal) h.frame

/-! ## Results in which the block runs -/

/-- Where the result is a next state, the block is not halted in it. -/
def StaysRunning (r : Result) : Prop := ∀ t, r = .next t → t.fatal = false

/-- A response leaves `fatal` as the effect before it did (R92). -/
@[simp] theorem staysRunning_respond {s : State} {st : Status} {aux : Byte} {data : Quad} :
    StaysRunning (s.respond st aux data) ↔ s.fatal = false := by
  simp [StaysRunning, State.respond_eq_next]

/-- A held operation changes nothing (R149). -/
@[simp] theorem staysRunning_hold {s : State} : StaysRunning s.hold ↔ s.fatal = false := by
  simp [StaysRunning, State.hold]

/-- A stop of the model has no next state. -/
@[simp] theorem staysRunning_fault (f : Fault) : StaysRunning (.fault f) := by
  simp [StaysRunning]

theorem State.fatal_of_poolTake {s s' : State} {n b sl : Nat} (h : s.poolTake n = some (b, sl, s')) : s'.fatal = s.fatal := by
  obtain ⟨-, rest, -, rfl⟩ := State.poolTake_eq_some.1 h
  exact s.takeSlot_fatal b sl rest

@[simp] theorem State.storeFrame_fatal (s : State) (d : Desc) (b sl : Nat) : (s.storeFrame d b sl).fatal = s.fatal := rfl
@[simp] theorem State.offer_fatal (s : State) (d : Desc) : (s.offer d).fatal = s.fatal := rfl
@[simp] theorem State.dropSubmit_fatal (s : State) (d : Desc) : (s.dropSubmit d).fatal = s.fatal := rfl

/-! ## No operation halts the block but by the fault it takes -/

section
variable {s : State} (hrun : s.fatal = false)
include hrun

theorem staysRunning_unlessHalted {r : Result} (h : StaysRunning r) : StaysRunning (s.unlessHalted r) := by
  rwa [State.unlessHalted_of_running hrun]

/-- An operation that passes the test before its effect does not halt the block if its effect does not. -/
theorem staysRunning_guarded {c : Bool} {r : Result} {st : Status} {d : Desc}
    (hfault : (if c then none else some (st, d)) = none) (h : StaysRunning r) :
    StaysRunning (s.unlessHalted (if c then r else s.raiseFatal st d)) := by
  have hc : c = true := by simpa using hfault
  rw [if_pos hc]
  exact staysRunning_unlessHalted hrun h

theorem staysRunning_execAlloc (size : Half) : StaysRunning (execAlloc size s) := by
  apply staysRunning_unlessHalted hrun
  split
  · simp [hrun]
  · next hpool => simp [State.fatal_of_poolTake hpool, hrun]

theorem staysRunning_execEnq {prio : Byte} {d : Desc} (hfault : s.faultOf? (.enq prio d) = none) :
    StaysRunning (execEnq prio d s) := by
  apply staysRunning_guarded hrun hfault
  split
  · simp [hrun]
  · split <;> simp [hrun]

theorem staysRunning_execDeq : StaysRunning (execDeq s) := by
  apply staysRunning_unlessHalted hrun
  split
  · simp [hrun]
  · split <;> simp [hrun]

theorem staysRunning_execFrame {d : Desc} (hfault : s.faultOf? (.frame d) = none) : StaysRunning (execFrame d s) := by
  apply staysRunning_guarded hrun hfault
  split
  · simp [hrun]
  · split
    · simp [hrun]
    · next hpool => simp [State.fatal_of_poolTake hpool, hrun]

theorem staysRunning_exec_rxb (data : Byte) : StaysRunning (exec (.rxb data) s) := by
  intro t h
  obtain ⟨hhalted, -⟩ | ⟨-, u, hu, rfl⟩ := exec_rxb_eq_next h
  · simp [hrun] at hhalted
  · rw [State.complete_fatal, hu.fatal_eq, hrun]

theorem staysRunning_execSubmit {d : Desc} (hfault : s.faultOf? (.submit d) = none) : StaysRunning (execSubmit d s) := by
  apply staysRunning_guarded hrun hfault
  split
  · split <;> simp [hrun]
  · simp [hrun]

theorem staysRunning_execRdcsr (csr : Half) : StaysRunning (execRdcsr csr s) := by
  rw [execRdcsr]
  split <;> simp [hrun]

/-- An operation that takes no fatal fault does not halt the block (R260, R263). -/
theorem staysRunning_exec {i : Instr} (hfault : s.faultOf? i = none) : StaysRunning (exec i s) := by
  cases i with
  | nop => exact staysRunning_unlessHalted hrun (by simp [hrun])
  | alloc size => exact staysRunning_execAlloc hrun size
  | release d => exact staysRunning_guarded hrun hfault (by simp [hrun])
  | bufwr data off d => exact staysRunning_guarded hrun hfault (by simp [hrun])
  | bufrd off d => exact staysRunning_guarded hrun hfault (by simp [hrun])
  | enq prio d => exact staysRunning_execEnq hrun hfault
  | deq => exact staysRunning_execDeq hrun
  | frame d => exact staysRunning_execFrame hrun hfault
  | rxb data => exact staysRunning_exec_rxb hrun data
  | submit d => exact staysRunning_execSubmit hrun hfault
  | trdy => exact staysRunning_unlessHalted hrun (by simp [hrun])
  | start => exact staysRunning_unlessHalted hrun (by simp [hrun])
  | tick => exact staysRunning_unlessHalted hrun (by split <;> simp [hrun])
  | rdcsr csr => exact staysRunning_execRdcsr hrun csr
  | clrsts => exact staysRunning_unlessHalted hrun (by simp [hrun])
  | rst => exact staysRunning_respond.2 rfl

/-- An operation that halts the block has taken its fatal fault, and the next state is the one that R262 gives. -/
theorem exists_faultOf?_of_halts {i : Instr} {t : State} (h : exec i s = .next t) (hhalted : t.fatal = true) :
    ∃ st d, s.faultOf? i = some (st, d) ∧ t = (s.halt st d).complete st 0 0 := by
  cases hfault : s.faultOf? i with
  | none => simp [staysRunning_exec hrun hfault t h] at hhalted
  | some fault =>
    obtain ⟨st, d⟩ := fault
    rw [exec_of_faultOf?_eq_some hrun hfault] at h
    exact ⟨st, d, rfl, by cases h; rfl⟩

end

/-! ## Only a command port can halt the block -/

/-- Everything a step can do: wait, execute the operation of the port granted, or answer its illegal word (R72, R94). -/
theorem step_eq_next {s t : State} (h : step s = .next t) :
    t = s ∨ ∃ p s', s.grant = some (p, s') ∧
      ((∃ i, s.headOp p = some (.ok i) ∧ exec i s' = .next t) ∨ ∃ e, s.headOp p = some (.error e) ∧ execIllegal s' = .next t) := by
  rw [step] at h
  split at h
  · cases h; exact .inl rfl
  · next p s' hgrant =>
    split at h
    · next i hop => exact .inr ⟨p, s', hgrant, .inl ⟨i, hop, h⟩⟩
    · next e hop => exact .inr ⟨p, s', hgrant, .inr ⟨e, hop, h⟩⟩
    · cases h; exact .inl rfl

theorem State.fatal_of_grant {s s' : State} {p : Port} (h : s.grant = some (p, s')) : s'.fatal = s.fatal := by
  obtain ⟨-, -, n, rfl⟩ := State.grant_eq_some h
  rfl

theorem staysRunning_execIllegal {s : State} (hrun : s.fatal = false) : StaysRunning (execIllegal s) :=
  staysRunning_unlessHalted hrun (by simp [hrun])

/-- The operation of an event port has no descriptor, so only that of a command port can take a fatal fault (R97, R260). -/
theorem State.exists_cmd_of_faultOf?_headOp {s u : State} {p : Port} {i : Instr} {fault : Status × Desc}
    (hop : s.headOp p = some (.ok i)) (hfault : u.faultOf? i = some fault) : ∃ k, p = .cmd k := by
  cases p with
  | cmd k => exact ⟨k, rfl⟩
  | serRx =>
    obtain ⟨data, -, hi⟩ := Option.map_eq_some_iff.1 hop
    cases hi
    nomatch hfault
  | trdyIn | tickIn | rstIn =>
    obtain ⟨-, hi⟩ := Option.ite_none_left_eq_some.1 hop
    cases hi
    nomatch hfault

/-! ## Requests that are refused -/

/-- A buffer may be released when its handle is in range and its slot an external agent's (R126, R258). -/
theorem State.releasable_iff {s : State} {d : Desc} : (s.validHandle d && s.ownedExt d) = true ↔
    d.bin.toNat < s.conf.bins.length ∧ d.slot.toNat < s.conf.binCount d.bin.toNat ∧
      s.owner? d.bin.toNat d.slot.toNat = some .ext := by
  simp [State.validHandle, State.ownedExt, and_assoc]

section
variable {s : State} {d : Desc} (hrun : s.fatal = false) (hvalid : s.validExt d = true)
include hrun hvalid

/-- `ENQ` with a priority no sub-queue serves only answers `E_BAD_PRIORITY` (R252). -/
theorem exec_enq_of_badPriority {prio : Byte} (hidx : s.conf.qidx prio.toNat = none) :
    exec (.enq prio d) s = .next (s.complete .badPriority 0 0) := by
  have hexec : exec (.enq prio d) s = execEnq prio d s := rfl
  rw [hexec, execEnq, State.unlessHalted_of_running hrun, if_pos hvalid, hidx, State.respond]

/-- `ENQ` to a full sub-queue only answers `E_QUEUE_FULL` (R248). -/
theorem exec_enq_of_full {prio : Byte} {q : Nat} (hidx : s.conf.qidx prio.toNat = some q) (hfull : s.conf.qDepth q ≤ s.qCnt q) :
    exec (.enq prio d) s = .next (s.complete .queueFull 0 0) := by
  have hexec : exec (.enq prio d) s = execEnq prio d s := rfl
  rw [hexec, execEnq, State.unlessHalted_of_running hrun, if_pos hvalid, hidx]
  exact if_pos hfull

/-- `FRAME` of a payload above `MAX_PAYLOAD` only answers `E_PAYLOAD_TOO_LARGE` (R249). -/
theorem exec_frame_of_tooLarge (hlen : s.conf.maxPayload < d.len.toNat) :
    exec (.frame d) s = .next (s.complete .payloadTooLarge 0 0) := by
  have hexec : exec (.frame d) s = execFrame d s := rfl
  rw [hexec, execFrame, State.unlessHalted_of_running hrun, if_pos hvalid, if_pos hlen, State.respond]

/-- `FRAME` without a slot for the frame only answers `E_POOL_EXHAUSTED` (R247). -/
theorem exec_frame_of_noSlot (hlen : d.len.toNat ≤ s.conf.maxPayload) (hpool : s.poolTake (s.conf.frameSize d.len.toNat) = none) :
    exec (.frame d) s = .next (s.complete .poolExhausted 0 0) := by
  have hexec : exec (.frame d) s = execFrame d s := rfl
  simp only [hexec, execFrame, State.unlessHalted_of_running hrun, if_pos hvalid, if_neg hlen.not_gt, hpool, State.respond]

end

end Sys2Proof.Machine

open Sys2Proof Sys2Proof.Machine

/-- Settles O22: each of the three conditions fails the test of `RELEASE`, which then takes `F_INVALID_RELEASE`. -/
theorem badReleaseHalts : Obligations.BadReleaseHalts := by
  intro s d hrun hbad
  have htest : ¬(s.validHandle d && s.ownedExt d) = true := by
    rw [State.releasable_iff]
    rintro ⟨hbin, hslot, howner⟩
    obtain hbin' | hslot' | howner' := hbad
    · exact hbin.not_ge hbin'
    · exact hslot.not_ge hslot'
    · exact howner' howner
  have hfault : s.faultOf? (.release d) = some (.invalidRelease, d) := if_neg htest
  exact exec_of_faultOf?_eq_some hrun hfault

/-- Settles O25: a descriptor that is not `valid_ext` fails the test of each of the five operations, an offset beyond the capacity that of
`BUFWR` and `BUFRD`; the operation then takes `F_INVALID_BUFFER`. -/
theorem invalidBufferHalts : Obligations.InvalidBufferHalts := by
  intro s d i hrun hcases
  have hfault : s.faultOf? i = some (.invalidBuffer, d) := by
    obtain ⟨hbad, hi⟩ | ⟨off, hoff, hi⟩ := hcases
    · have hinvalid : ¬s.validExt d = true := by
        rw [State.validExt_iff]
        rintro ⟨hbin, hslot, howner, hlen⟩
        obtain hbin' | hslot' | howner' | hlen' := hbad
        · exact hbin.not_ge hbin'
        · exact hslot.not_ge hslot'
        · exact howner' howner
        · exact hlen.not_gt hlen'
      have haccess (off : Half) : ¬s.validAccess off d = true := fun h => hinvalid (State.validAccess_iff.1 h).1
      obtain ⟨data, off, rfl⟩ | ⟨off, rfl⟩ | ⟨prio, rfl⟩ | rfl | rfl := hi
      · exact if_neg (haccess off)
      · exact if_neg (haccess off)
      · exact if_neg hinvalid
      · exact if_neg hinvalid
      · exact if_neg hinvalid
    · have haccess : ¬s.validAccess off d = true := fun h => (State.validAccess_iff.1 h).2.not_ge hoff
      obtain ⟨data, rfl⟩ | rfl := hi
      · exact if_neg haccess
      · exact if_neg haccess
  exact exec_of_faultOf?_eq_some hrun hfault

/-- Settles O27: a priority no sub-queue serves has no index; the index of one that is served is the sub-queue given, since priorities are
distinct, and that one is full. -/
theorem enqRejectsWithoutChange : Obligations.EnqRejectsWithoutChange := by
  refine fun s prio d hrun hvalid => ⟨rfl, rfl, fun hnone => ?_, fun q k hk hprio hfull => ?_⟩
  · exact exec_enq_of_badPriority hrun hvalid (Cfg.qidx_eq_none.2 hnone)
  · have hidx : s.conf.qidx prio.toNat = some q := (Cfg.qidx_eq_some s.cfg.property).2 ⟨k, hk, hprio⟩
    exact exec_enq_of_full hrun hvalid hidx (by rwa [Cfg.qDepth_eq hk])

/-- Settles O31: the length is tested first; where it passes, `pool_take` of the frame's size finds no slot. -/
theorem frameRejectsWithoutChange : Obligations.FrameRejectsWithoutChange := by
  refine fun s d hrun hvalid => ⟨rfl, fun hlen => ?_, fun hlen hnoFit => ?_⟩
  · exact exec_frame_of_tooLarge hrun hvalid hlen
  · exact exec_frame_of_noSlot hrun hvalid hlen (State.poolTake_of_noFit hnoFit)

/-- Settles O51: what halts the block is an operation that takes a fatal fault, so one with a descriptor, and the next state is the one of
R262; in a step it is the operation of the port granted, and those of event ports have no descriptor. -/
theorem onlyDescriptorOperationsHalt : Obligations.OnlyDescriptorOperationsHalt := by
  refine ⟨fun s t hstep hrun hhalted => ?_, fun i s t hexec hrun hhalted => ?_⟩
  · obtain rfl | ⟨p, s', hgrant, hdone⟩ := step_eq_next hstep
    · simp [hrun] at hhalted
    · have hrun' : s'.fatal = false := (State.fatal_of_grant hgrant).trans hrun
      obtain ⟨i, hop, hexec⟩ | ⟨e, -, hillegal⟩ := hdone
      · obtain ⟨st, d, hfault, -⟩ := exists_faultOf?_of_halts hrun' hexec hhalted
        obtain ⟨k, rfl⟩ := State.exists_cmd_of_faultOf?_headOp hop hfault
        exact ⟨k, s', hgrant⟩
      · simp [staysRunning_execIllegal hrun' t hillegal] at hhalted
  · obtain ⟨st, d, hfault, rfl⟩ := exists_faultOf?_of_halts hrun hexec hhalted
    exact ⟨State.exists_desc_of_faultOf?_eq_some hfault, rfl⟩

end

section
/-! PROOF. Power-on and reset (70_reset_and_hazards.md): the values the CSR file shows after power-on (R281), and that reset establishes
every invariant (R282). -/

namespace Sys2Proof.Machine

/-! ## The pool and the queue after power-on -/

/-- A bin after power-on is the fresh bin of its count (R280). -/
theorem State.pool_powerOn {c : WfCfg} {b : Nat} {k : BinCfg} (h : c.val.bins[b]? = some k) :
    (State.powerOn c).pool[b]? = some (Bin.fresh k.count) := by
  simp [State.powerOn, h]

/-- After power-on every slot is `FREE` (R280). -/
theorem State.eq_free_of_owner?_powerOn {c : WfCfg} {b sl : Nat} {o : Owner} (h : (State.powerOn c).owner? b sl = some o) : o = .free := by
  obtain ⟨B, hB, howner, -⟩ := State.exists_bin_of_owner h
  obtain ⟨k, -, rfl⟩ : ∃ k, c.val.bins[b]? = some k ∧ Bin.fresh k.count = B := by simpa [State.powerOn] using hB
  exact (List.mem_replicate.1 (List.mem_of_getElem? howner)).2

/-- After power-on every sub-queue is empty (R280). -/
theorem State.eq_fresh_of_mem_queues_powerOn {c : WfCfg} {Q : SubQueue} (h : Q ∈ (State.powerOn c).queues) : Q = SubQueue.fresh := by
  obtain ⟨-, -, rfl⟩ := List.mem_map.1 h
  rfl

/-- After power-on no descriptor is queued (R280). -/
theorem State.queued_powerOn (c : WfCfg) : (State.powerOn c).queued = [] := by
  refine List.flatMap_eq_nil_iff.2 fun Q hQ => ?_
  rw [State.eq_fresh_of_mem_queues_powerOn hQ]
  rfl

/-! ## The CSR file after power-on -/

/-- No flag, no fault, not ready, not started, `SEEKING_SYNC` (R54). -/
theorem State.statusReg_powerOn (c : WfCfg) : (State.powerOn c).statusReg = 0 := by
  simp [State.statusReg, State.powerOn, Sticky.none, Deframer.fresh, RxState.code, bit]

theorem State.rxPosReg_powerOn (c : WfCfg) : (State.powerOn c).rxPosReg = 0 := by
  simp [State.rxPosReg, State.powerOn, Deframer.fresh]

/-- `STATUS`, `RXPOS`, `TICKCNT` and `FAULTINFO` are 0 after power-on, whatever the configuration (R281). -/
theorem State.csr?_powerOn_of_lt_four (c : WfCfg) {csr : Half} (h : csr.toNat < 4) : (State.powerOn c).csr? csr = some 0 := by
  obtain rfl | rfl | rfl | rfl : csr = 0 ∨ csr = 1 ∨ csr = 2 ∨ csr = 3 := by bv_omega
  · exact congrArg some (State.statusReg_powerOn c)
  · exact congrArg some (State.rxPosReg_powerOn c)
  · rfl -- `TICKCNT`
  · rfl -- `FAULTINFO`

/-- `BINUSE[b]` after power-on: nothing in use, every slot of the bin on its free list (R281). -/
theorem State.csr?_powerOn_binUse {c : WfCfg} {csr : Half} {b : Nat} {k : BinCfg} (hk : c.val.bins[b]? = some k)
    (hcsr : csr.toNat = 0x0200 + b) : (State.powerOn c).csr? csr = some (BitVec.ofNat 16 k.count ++ 0#16) := by
  obtain ⟨hb, -⟩ := List.getElem?_eq_some_iff.1 hk
  obtain ⟨-, hbins⟩ := Cfg.bins_length c.property
  have hpage : csr.toNat / 256 = 2 := by omega
  have hindex : csr.toNat % 256 = b := by omega
  have hlt : b < (State.powerOn c).conf.bins.length := hb
  simp [State.csr?, hpage, hindex, hlt, State.binUseReg, State.freeList_eq (State.pool_powerOn hk),
    State.inUse_eq (State.pool_powerOn hk), Bin.fresh]

/-- `QCNT[q]` is 0 after power-on (R281). -/
theorem State.csr?_powerOn_queueCnt {c : WfCfg} {csr : Half} {q : Nat} (hq : q < c.val.queues.length)
    (hcsr : csr.toNat = 0x0400 + q) : (State.powerOn c).csr? csr = some 0 := by
  obtain ⟨-, hqueues⟩ := Cfg.queues_length c.property
  have hpage : csr.toNat / 256 = 4 := by omega
  have hindex : csr.toNat % 256 = q := by omega
  have hlt : q < (State.powerOn c).conf.queues.length := hq
  have hfresh : (State.powerOn c).queues[q]? = some SubQueue.fresh := by simp [State.powerOn, hq]
  simp [State.csr?, hpage, hindex, hlt, State.qCnt_eq hfresh, SubQueue.fresh]

/-! ## The invariants after power-on -/

/-- A fresh bin has the pool invariant (R27). -/
theorem Bin.ok_fresh (n : Nat) : (Bin.fresh n).Ok n := by
  refine ⟨List.length_replicate, ?_, List.nodup_range, fun sl hsl => ?_, fun sl hsl _ => List.mem_range.2 hsl⟩
  · simp [Bin.fresh]
  · exact List.getElem?_replicate_of_lt (List.mem_range.1 hsl)

theorem State.poolInv_powerOn (c : WfCfg) : (State.powerOn c).PoolInv := by
  refine ⟨List.length_map .., fun b hb => ?_⟩
  have hk : c.val.bins[b]? = some (c.val.bins[b]'(by simpa [State.powerOn] using hb)) := List.getElem?_eq_getElem _
  have hcount : (State.powerOn c).conf.binCount b = _ := Cfg.binCount_eq hk
  rw [hcount, (List.getElem_eq_iff hb).2 (State.pool_powerOn hk)]
  exact Bin.ok_fresh _

theorem State.queueInv_powerOn (c : WfCfg) : (State.powerOn c).QueueInv := by
  refine ⟨List.length_map .., fun q hq => ?_, ?_, ?_, fun b _ sl _ howner => ?_⟩
  · rw [State.eq_fresh_of_mem_queues_powerOn (List.getElem_mem hq)]
    exact ⟨rfl, Nat.zero_le _, by simp [SubQueue.fresh]⟩
  · simp [State.queued_powerOn]
  · simp [State.queued_powerOn]
  · nomatch State.eq_free_of_owner?_powerOn howner

/-- The Deframer starts in `SEEKING_SYNC` at the first byte of the pattern, and no slot is its own (R39 to R44). -/
theorem State.deframerInv_powerOn (c : WfCfg) : (State.powerOn c).DeframerInv := by
  obtain ⟨hsync, -⟩ := Cfg.codec_widths c.property
  have hseek : (State.powerOn c).SeekInv := ⟨hsync, rfl, rfl, rfl, rfl⟩
  refine ⟨nofun, Nat.zero_le _, fun _ => hseek, nofun, nofun, nofun, fun b _ sl _ howner => ?_⟩
  nomatch State.eq_free_of_owner?_powerOn howner

theorem State.haltInv_powerOn (c : WfCfg) : (State.powerOn c).HaltInv :=
  ⟨fun _ => ⟨rfl, rfl⟩, nofun⟩

/-- Power-on establishes every invariant (R282). -/
theorem State.inv_powerOn (c : WfCfg) : (State.powerOn c).Inv :=
  ⟨State.poolInv_powerOn c, State.queueInv_powerOn c, State.deframerInv_powerOn c, State.haltInv_powerOn c, rfl,
    List.length_replicate⟩

/-! ## `RST` -/

/-- Reset differs from power-on only in `out` and the ports, and discarding held operations leaves the number of command ports. -/
theorem State.inv_resetBlock {s : State} (h : s.env.cmd.length = s.conf.nport) : s.resetBlock.Inv := by
  have hports : s.resetBlock.env.cmd.length = (State.powerOn s.cfg).env.cmd.length := calc
    s.resetBlock.env.cmd.length = s.env.cmd.length := State.length_dropHeld_cmd s s.ports s.env
    _ = s.conf.nport := h
    _ = (State.powerOn s.cfg).env.cmd.length := List.length_replicate.symm
  exact (State.inv_powerOn s.cfg).congr rfl rfl rfl rfl rfl rfl rfl rfl hports

/-- `RST` resets the block and answers `OK`, halted or not (R238, R264). -/
theorem exec_rst (s : State) : exec .rst s = s.resetBlock.respond .ok 0 0 := rfl

end Sys2Proof.Machine

open Sys2Proof Sys2Proof.Machine

/-- Settles O16: the registers of the state by what power-on leaves in them under any configuration, those of the configuration by
evaluating REFCFG. -/
theorem resetCsrValues : Obligations.ResetCsrValues := by
  have hzero (csr : Half) (h : csr.toNat < 4) : State.reset.csr? csr = some 0 := State.csr?_powerOn_of_lt_four _ h
  have hbinUse (csr : Half) (b : Nat) {k : BinCfg} (hk : Cfg.reference.bins[b]? = some k) (hcsr : csr.toNat = 0x0200 + b) :
      State.reset.csr? csr = some (BitVec.ofNat 16 k.count ++ 0#16) := State.csr?_powerOn_binUse hk hcsr
  have hqueueCnt (csr : Half) (q : Nat) (hq : q < Cfg.reference.queues.length) (hcsr : csr.toNat = 0x0400 + q) :
      State.reset.csr? csr = some 0 := State.csr?_powerOn_queueCnt hq hcsr
  refine ⟨hzero 0 (by decide), hzero 1 (by decide), hzero 2 (by decide), hzero 3 (by decide),
    rfl, rfl, rfl, rfl, -- `CODECCFG`, `SYNC0`, `SYNC1`, `GEOM`
    rfl, rfl, -- `BINCFG`
    hbinUse 0x0200 0 rfl rfl, hbinUse 0x0201 1 rfl rfl,
    rfl, rfl, -- `QCFG`
    hqueueCnt 0x0400 0 (by decide) rfl, hqueueCnt 0x0401 1 (by decide) rfl,
    rfl, rfl, rfl, rfl⟩ -- `GRPDIV`, `GRPN`

/-- Settles O17: power-on establishes the invariants piece by piece, `RST` because it differs from power-on in nothing they look at, and
the response keeps them. -/
theorem resetEstablishesInvariants : Obligations.ResetEstablishesInvariants := by
  refine ⟨State.inv_powerOn, State.inv_powerOn _, fun s hports => ?_⟩
  have hexec : exec .rst s = .next (s.resetBlock.complete .ok 0 0) := exec_rst s
  exact ⟨_, hexec, (State.inv_resetBlock hports).respond rfl⟩

end

section
/-! PROOF. Encodings (30_encoding.md): descriptors and operation words read back (R85 to R90, R95), the response word (R92), the
integer fields of a wire frame in both byte orders (R104, R105) and the checksum (R106, R107). -/

namespace Sys2Proof

/-! ## Descriptors and operation words -/

/-- No bit of a descriptor is lost in its packing (R90). -/
theorem Desc.unpack_pack (d : Desc) : Desc.unpack d.pack = d := by
  have hbin := d.bin.isLt
  have hslot := d.slot.isLt
  have hlen := d.len.isLt
  rw [Desc.unpack, Desc.mk.injEq]
  refine ⟨BitVec.eq_of_toNat_eq ?_, BitVec.eq_of_toNat_eq ?_, BitVec.eq_of_toNat_eq ?_⟩
  all_goals
    simp only [BitVec.extractLsb'_toNat, Desc.toNat_pack, Nat.shiftRight_eq_div_pow]
    omega

/-- The descriptor of an operation word that carries one. -/
@[simp] theorem descOf_wordOf_pack (opc aux : Byte) (imm : Half) (d : Desc) : descOf (wordOf opc aux imm d.pack) = d := by
  rw [descOf, descFieldOf_wordOf, Desc.unpack_pack]

/-! ## The byte order of the wire -/

/-- Byte `i` of the low bytes of a value is its digit of weight `256 ^ i` (R104). -/
theorem getElem?_littleBytes {v w i : Nat} (h : i < w) : (littleBytes v w)[i]? = some (BitVec.ofNat 8 (v / 256 ^ i)) := by
  induction w generalizing v i with
  | zero => omega
  | succ w ih =>
    cases i with
    | zero => simp [littleBytes]
    | succ i => rw [littleBytes, List.getElem?_cons_succ, ih (by omega), Nat.div_div_eq_div_mul, Nat.pow_succ']

/-- The low bytes of the value of a byte list are the list (R105). -/
theorem littleBytes_littleValue (l : List Byte) : littleBytes (littleValue l) l.length = l := by
  induction l with
  | nil => rfl
  | cons b l ih =>
    have hb := b.isLt
    have hdiv : (b.toNat + 256 * littleValue l) / 256 = littleValue l := by omega
    have hmod : BitVec.ofNat 8 (b.toNat + 256 * littleValue l) = b := by
      apply BitVec.eq_of_toNat_eq
      rw [BitVec.toNat_ofNat]
      omega
    rw [List.length_cons, littleValue, littleBytes, hdiv, hmod, ih]

/-- The positional value, the first byte of weight 1 (R105). -/
theorem littleValue_eq_sum (l : List Byte) : littleValue l = (l.zipIdx.map fun bi => bi.1.toNat * 256 ^ bi.2).sum := by
  induction l with
  | nil => rfl
  | cons b l ih =>
    rw [littleValue, ih, List.zipIdx_cons', List.map_cons, List.sum_cons, List.map_map, ← List.sum_map_mul_left]
    simp [Function.comp_def, Nat.pow_succ, Nat.mul_comm, Nat.mul_left_comm]

/-- One more byte, the most significant. -/
theorem littleValue_concat (l : List Byte) (b : Byte) : littleValue (l ++ [b]) = littleValue l + 256 ^ l.length * b.toNat := by
  induction l with
  | nil => simp [littleValue]
  | cons a l ih => rw [List.cons_append, littleValue, ih, littleValue, List.length_cons, Nat.pow_succ']; ring

/-- The positional value, the last byte of weight 1 (R105). -/
theorem littleValue_reverse_eq_sum (l : List Byte) :
    littleValue l.reverse = (l.zipIdx.map fun bi => bi.1.toNat * 256 ^ (l.length - 1 - bi.2)).sum := by
  induction l with
  | nil => rfl
  | cons b l ih =>
    rw [List.reverse_cons, littleValue_concat, ih, List.zipIdx_cons', List.map_cons, List.sum_cons, List.map_map]
    simp [Function.comp_def, Nat.sub_sub, Nat.mul_comm, Nat.add_comm]

/-- `enc` of the value of a byte list gives the list back, in either byte order (R104, R105). -/
theorem Cfg.enc_dec (c : Cfg) (l : List Byte) : c.enc (c.dec l) l.length = l := by
  unfold Cfg.enc Cfg.dec
  cases c.order with
  | big =>
    have h := littleBytes_littleValue l.reverse
    rw [List.length_reverse] at h
    simp only [h, List.reverse_reverse]
  | little => exact littleBytes_littleValue l

/-- `dec` of a value that fits its field gives the value back (R105). -/
theorem Cfg.dec_enc {c : Cfg} {v w : Nat} (h : v < 2 ^ (8 * w)) : c.dec (c.enc v w) = v := by
  rw [Cfg.dec_enc_mod, Nat.mod_eq_of_lt h]

/-- Byte `i` of an encoded value, in either byte order (R104). -/
theorem Cfg.getElem?_enc (c : Cfg) {v w i : Nat} (h : i < w) :
    (c.enc v w)[i]? = some (BitVec.ofNat 8 (v / 256 ^ (if c.order = .big then w - 1 - i else i))) := by
  unfold Cfg.enc
  cases c.order with
  | big =>
    have hrev : i < (littleBytes v w).length := by simpa using h
    simp only [List.getElem?_reverse hrev, length_littleBytes, if_true]
    exact getElem?_littleBytes (by omega)
  | little => exact getElem?_littleBytes h

/-- `dec` as a sum over the positions, in either byte order (R105). -/
theorem Cfg.dec_eq_sum (c : Cfg) (l : List Byte) :
    c.dec l = (l.zipIdx.map fun bi => bi.1.toNat * 256 ^ (if c.order = .big then l.length - 1 - bi.2 else bi.2)).sum := by
  unfold Cfg.dec
  cases c.order with
  | big => exact littleValue_reverse_eq_sum l
  | little => exact littleValue_eq_sum l

/-- The `SUM` checksum (R107). -/
theorem Cfg.chk_of_sum {c : Cfg} (h : c.chkAlg = .sum) (l : List Byte) :
    c.chk l = c.enc ((l.map BitVec.toNat).sum % 2 ^ (8 * c.chkW)) c.chkW := by
  simp only [Cfg.chk, h, byteSum]

end Sys2Proof

open Sys2Proof Sys2Proof.Machine

/-- Settles O1, by cases on the operation: the decoder's arm for the code in its canonical word takes the operands from the fields the
encoder put them in. -/
theorem decodeReturnsEncodedOperation : Obligations.DecodeReturnsEncodedOperation := by
  intro i
  cases i with
  | nop | deq | trdy | start | tick | clrsts | rst => simp [encode, decode] -- no operand
  | alloc | rdcsr | rxb => simp [encode, decode] -- an immediate or auxiliary operand
  | release | frame | submit | bufwr | bufrd | enq => simp [encode, decode] -- a descriptor

/-- Settles O3: the code selects the same arm of the decoder for both words, and each arm reads only fields on which they agree. -/
theorem decodeIgnoresUnreadFields : Obligations.DecodeIgnoresUnreadFields := by
  intro w w' hopc haux himm hdesc
  have code {n : Nat} (h : (opcOf w).toNat = n) : opcOf w = BitVec.ofNat 8 n := by rw [← h, BitVec.ofNat_toNat, BitVec.setWidth_eq]
  have hdesc' {n : Nat} (h : (opcOf w).toNat = n) (hn : BitVec.ofNat 8 n ∈ [0x02#8, 0x03#8, 0x04#8, 0x10#8, 0x20#8, 0x30#8]) :
      descOf w = descOf w' := by rw [descOf, descOf, hdesc (code h ▸ hn)]
  unfold decode
  rw [← hopc]
  split
  case h_2 h | h_14 h => rw [himm (by simp [code h])] -- format I
  case h_3 h | h_8 h | h_10 h => rw [hdesc' h (by decide)] -- format D
  case h_4 h => rw [haux (by simp [code h]), himm (by simp [code h]), hdesc' h (by decide)] -- format AID
  case h_5 h => rw [himm (by simp [code h]), hdesc' h (by decide)] -- format ID
  case h_6 h => rw [haux (by simp [code h]), hdesc' h (by decide)] -- format AD
  case h_9 h => rw [haux (by simp [code h])] -- format A
  all_goals rfl -- format Z, and the illegal words

/-- Settles O5: the packed descriptor as a number, and unpacked again. -/
theorem descriptorPacking : Obligations.DescriptorPacking := fun d => ⟨d.toNat_pack, d.unpack_pack⟩

/-- Settles O6: the codes by evaluation, the fields because a response word is laid out as an operation word with 0 in its immediate
field. -/
theorem responseWordFields : Obligations.ResponseWordFields := by
  refine ⟨rfl, fun st => ?_, fun st aux data => ?_⟩
  · cases st <;> decide
  · have hword : responseWord st aux data = wordOf st.code aux 0 data := rfl
    rw [hword]
    exact ⟨opcOf_wordOf .., auxOf_wordOf .., immOf_wordOf .., descFieldOf_wordOf ..⟩

/-- Settles O7: `enc` and `dec` by position, and each undoing the other. -/
theorem encDecAndSumChecksum : Obligations.EncDecAndSumChecksum := by
  refine fun c => ⟨fun v w hv => ⟨c.length_enc v w, Cfg.dec_enc hv, fun i hi => ?_⟩, fun l => ⟨c.enc_dec l, c.dec_eq_sum l⟩,
    fun l => ⟨c.length_chk l, fun hsum => Cfg.chk_of_sum hsum l⟩⟩
  rw [c.getElem?_enc hi, Option.map_some, BitVec.toNat_ofNat]

end

section
/-! PROOF. The ports and the arbiter (20_memory.md R70 to R77): what each port has outstanding (R97), which operations have a step (R94, R149,
R263), which port is granted (R72), what a step then does; and the end of an operation (R92). -/

namespace Sys2Proof.Machine

/-! ## What a port has outstanding -/

theorem State.headOp_cmd_of_cons {s : State} {k : Nat} {w : OpWord} {r : List OpWord} (h : s.env.cmd[k]? = some (w :: r)) :
    s.headOp (.cmd k) = some (decode w) := by
  simp only [State.headOp, h]

theorem State.headOp_cmd_of_empty {s : State} {k : Nat} (h : s.env.cmd[k]? = some [] ∨ s.env.cmd[k]? = none) :
    s.headOp (.cmd k) = none := by
  obtain h | h := h <;> simp only [State.headOp, h]

/-! ## Which operations have a step -/

/-- There is a sub-queue for `DEQ` to serve exactly when one is not empty (R146, R149). -/
theorem State.isSome_nextQueue {s : State} : s.nextQueue.isSome = true ↔ ∃ q < s.conf.queues.length, 0 < s.qCnt q := by
  simp [State.nextQueue, List.find?_isSome, Cfg.mem_scanOrder]

/-- `RST` and `RDCSR` always have a step, every other operation only while the block runs, `DEQ` only with a descriptor to serve
(R149, R263). -/
theorem State.enabledOp_ok_iff {s : State} {i : Instr} : s.enabledOp (.ok i) = true ↔
    i = .rst ∨ (∃ csr, i = .rdcsr csr) ∨ (s.fatal = false ∧ (i = .deq → ∃ q < s.conf.queues.length, 0 < s.qCnt q)) := by
  cases i with
  | deq => simp [State.enabledOp, State.enabledInstr, State.isSome_nextQueue]
  | rst | rdcsr => simp [State.enabledOp, State.enabledInstr]
  | nop | alloc | release | bufwr | bufrd | enq | frame | rxb | submit | trdy | start | tick | clrsts =>
    simp [State.enabledOp, State.enabledInstr]

/-- The answer to an illegal word is held while the block is halted (R94, R263). -/
theorem State.enabledOp_error_iff {s : State} {e : DecodeError} : s.enabledOp (.error e) = true ↔ s.fatal = false := by
  simp [State.enabledOp]

/-- A port is enabled when its outstanding operation has a step. -/
theorem State.enabledPort_iff {s : State} {p : Port} : s.enabledPort p = true ↔ ∃ o, s.headOp p = some o ∧ s.enabledOp o = true := by
  refine ⟨State.headOp_of_enabledPort, fun ⟨o, ho, h⟩ => ?_⟩
  rw [State.enabledPort, ho]
  exact h

/-- While halted every operation but `RDCSR` and `RST` is held (R263). -/
theorem exec_of_halted {i : Instr} {s : State} (hhalted : s.fatal = true) (hrst : i ≠ .rst) (hrdcsr : ∀ csr, i ≠ .rdcsr csr) :
    exec i s = .next s := by
  cases i with
  | rst => exact absurd rfl hrst
  | rdcsr csr => exact absurd rfl (hrdcsr csr)
  | nop | alloc | release | bufwr | bufrd | enq | deq | frame | rxb | submit | trdy | start | tick | clrsts =>
    exact State.unlessHalted_of_halted hhalted _

/-- `DEQ` with nothing to serve is held (R149). -/
theorem exec_deq_of_empty {s : State} (h : s.nextQueue = none) : exec .deq s = .next s := by
  have hexec : exec .deq s = execDeq s := rfl
  rw [hexec, execDeq, h]
  cases hf : s.fatal with
  | true => exact State.unlessHalted_of_halted hf _
  | false => exact State.unlessHalted_of_running hf _

/-- `RDCSR` only answers, whatever the number and whether the block is halted or not (R233, R234, R263). -/
theorem exists_exec_rdcsr_eq (csr : Half) (s : State) : ∃ st v, exec (.rdcsr csr) s = .next (s.complete st 0 v) := by
  cases h : s.csr? csr with
  | none => exact ⟨_, _, exec_rdcsr_of_csr?_eq_none h⟩
  | some v => exact ⟨_, _, exec_rdcsr_of_csr? h⟩

/-! ## The grant -/

/-- What a choice of the arbiter changes: its own fields. -/
theorem Env.afterChoice_eq (e : Env) (n : Nat) (p : Port) :
    e.afterChoice n p = { e with active := p, turns := (e.afterChoice n p).turns, draws := (e.afterChoice n p).draws } := by
  unfold Env.afterChoice
  split
  · rfl
  · split <;> rfl

/-- The state in which a granted operation executes: the choice consumed, its port active (R72). -/
theorem State.eq_of_grant {s s' : State} {p : Port} (h : s.grant = some (p, s')) :
    s' = { s with env := { s.env with active := p, turns := s'.env.turns, draws := s'.env.draws } } := by
  obtain ⟨-, -, n, rfl⟩ := State.grant_eq_some h
  exact congrArg (fun e => ({ s with env := e } : State)) (s.env.afterChoice_eq n p)

/-- A decision that stands in `turns` grants the enabled port it counts to. -/
theorem State.grant_of_turn {s : State} {p : Port} {n : Nat} {r : List Nat} (hturn : s.env.turns = n :: r)
    (h : (s.ports.filter s.enabledPort)[n]? = some p) : ∃ s', s.grant = some (p, s') := by
  unfold State.grant
  split
  · next hnil => simp [hnil] at h
  · next q qs hcons =>
    rw [hcons] at h
    obtain ⟨hlt, -⟩ := List.getElem?_eq_some_iff.1 h
    have hchoice : s.env.choice (qs.length + 1) = n := by
      simp only [Env.choice, hturn]
      exact Nat.mod_eq_of_lt hlt
    have hget : (q :: qs).getD (s.env.choice (qs.length + 1)) q = p := by
      rw [hchoice, List.getD_eq_getElem?_getD, h, Option.getD_some]
    exact ⟨_, congrArg (fun x => some (x, ({ s with env := s.env.afterChoice (qs.length + 1) x } : State))) hget⟩

/-! ## A step -/

theorem step_of_operation {s s' : State} {p : Port} {i : Instr} (hgrant : s.grant = some (p, s')) (hop : s.headOp p = some (.ok i)) :
    step s = exec i s' := by
  simp only [step, hgrant, hop]

theorem step_of_illegal {s s' : State} {p : Port} {e : DecodeError} (hgrant : s.grant = some (p, s'))
    (hop : s.headOp p = some (.error e)) : step s = execIllegal s' := by
  simp only [step, hgrant, hop]

/-- With nothing enabled the block waits (R149, R263, log 8). -/
theorem step_of_noGrant {s : State} (h : s.grant = none) : step s = .next s := by
  simp only [step, h]

/-- An illegal word of a running block is only answered (R94, R254). -/
theorem execIllegal_of_running {s : State} (hrun : s.fatal = false) : execIllegal s = .next (s.complete .badCommand 0 0) := by
  rw [execIllegal, State.unlessHalted_of_running hrun, State.respond]

/-! ## The end of an operation -/

/-- On a command port the outstanding word goes, the other command ports keep theirs (R92). -/
theorem Env.getElem?_retire_cmd {e : Env} {k : Nat} {w : OpWord} {r : List OpWord} (hactive : e.active = .cmd k)
    (h : e.cmd[k]? = some (w :: r)) : e.retire.cmd[k]? = some r ∧ ∀ j, j ≠ k → e.retire.cmd[j]? = e.cmd[j]? := by
  rw [Env.retire, hactive]
  refine ⟨?_, fun j hj => ?_⟩
  · rw [Env.getElem?_drop_cmd, if_pos rfl, h, Option.map_some, List.tail_cons]
  · rw [Env.getElem?_drop_cmd, if_neg (by simpa using hj.symm)]

/-- On an event port there is no response (R97). -/
theorem State.out_complete_of_event {s : State} (st : Status) (aux : Byte) (data : Quad) (h : ∀ k, s.env.active ≠ .cmd k) :
    (s.complete st aux data).out = s.out := by
  rw [State.complete_out]
  cases hactive : s.env.active with
  | cmd k => exact absurd hactive (h k)
  | serRx | trdyIn | tickIn | rstIn => exact List.append_nil _

end Sys2Proof.Machine

open Sys2Proof Sys2Proof.Machine

/-- Settles O8: a grant changes only the arbiter's fields, and the step executes what its port has outstanding. -/
theorem stepExecutesGrantedOperation : Obligations.StepExecutesGrantedOperation := by
  refine ⟨fun s => ⟨fun k w r => State.headOp_cmd_of_cons, fun k => State.headOp_cmd_of_empty, fun d r h => ?_, fun h => ?_,
    fun h => if_neg h.ne', fun h => if_pos h, fun h => if_neg h.ne', fun h => if_pos h, fun h => if_neg h.ne', fun h => if_pos h⟩,
    fun s s' p i hgrant hop => ⟨step_of_operation hgrant hop, ?_, State.eq_of_grant hgrant, ?_⟩⟩
  · simp [State.headOp, h]
  · simp [State.headOp, h]
  · rw [State.eq_of_grant hgrant]
  · rintro k w r rfl hw
    rw [State.headOp_cmd_of_cons hw] at hop
    exact Option.some.inj hop

/-- Settles O9: the table of enabled operations by cases on the operation, the grant by what it can be. -/
theorem grantGoesToEnabledPort : Obligations.GrantGoesToEnabledPort := by
  refine fun s => ⟨fun i => State.enabledOp_ok_iff, fun e => State.enabledOp_error_iff, fun p => State.enabledPort_iff, ?_⟩
  cases hgrant : s.grant with
  | none => exact State.grant_eq_none.1 hgrant
  | some granted =>
    obtain ⟨hport, henabled, -⟩ := State.grant_eq_some hgrant
    exact ⟨hport, henabled⟩

/-- Settles O10: the decision is the index of the port among the enabled ones. -/
theorem anyEnabledPortMayGoNext : Obligations.AnyEnabledPortMayGoNext := by
  intro s p hport henabled
  obtain ⟨n, hn⟩ := List.mem_iff_getElem?.1 (List.mem_filter.2 ⟨hport, henabled⟩)
  obtain ⟨s', hgrant⟩ := State.grant_of_turn (s := { s with env := { s.env with turns := n :: s.env.turns } }) rfl hn
  exact ⟨n, s', hgrant⟩

/-- Settles O11: with nothing enabled there is no grant. -/
theorem stepWaitsWhenNothingEnabled : Obligations.StepWaitsWhenNothingEnabled :=
  fun _ hnone => step_of_noGrant (State.grant_eq_none.2 hnone)

/-- Settles O12: the grant leaves the ports' operations as they are, and the answer retires the one of port `k`. -/
theorem illegalWordAnswered : Obligations.IllegalWordAnswered := by
  intro s s' k w r e hrun hgrant hcmd hw
  have hop : s.headOp (.cmd k) = some (.error e) := by rw [State.headOp_cmd_of_cons hcmd, hw]
  have hs' := State.eq_of_grant hgrant
  have hactive : s'.env.active = .cmd k := by rw [hs']
  have hcmd' : s'.env.cmd = s.env.cmd := by rw [hs']
  have hstep : step s = .next (s'.complete .badCommand 0 0) := by
    rw [step_of_illegal hgrant hop, execIllegal_of_running ((State.fatal_of_grant hgrant).trans hrun)]
  obtain ⟨hhead, hothers⟩ := Env.getElem?_retire_cmd hactive (hcmd' ▸ hcmd)
  refine ⟨_, hstep, ?_, hhead, fun j hj => (hothers j hj).trans (by rw [hcmd']), ?_, ?_, ?_, ?_⟩
  · rw [hs']; rfl
  all_goals
    rw [State.complete_env, Env.retire, hactive, hs']
    rfl

/-- Settles O13, port by port. -/
theorem completionAnswersAndRetires : Obligations.CompletionAnswersAndRetires := by
  refine fun s st aux data => ⟨fun k w r hactive hcmd => ⟨?_, Env.getElem?_retire_cmd hactive hcmd⟩, fun d r hactive hser => ⟨?_, ?_⟩,
    fun n hactive htick => ⟨?_, ?_⟩, fun n hactive htrdy => ⟨?_, ?_⟩, fun n hactive hrst => ⟨?_, ?_⟩⟩
  · rw [State.complete_out, hactive, responseEvents]
  · exact s.out_complete_of_event st aux data (by simp [hactive])
  · simp [Env.retire, hactive, Env.drop, hser]
  · exact s.out_complete_of_event st aux data (by simp [hactive])
  · simp [Env.retire, hactive, Env.drop, htick]
  · exact s.out_complete_of_event st aux data (by simp [hactive])
  · simp [Env.retire, hactive, Env.drop, htrdy]
  · exact s.out_complete_of_event st aux data (by simp [hactive])
  · simp [Env.retire, hactive, Env.drop, hrst]

/-- Settles O14: every operation but the two is guarded by `fatal`. -/
theorem haltedBlockHoldsOperations : Obligations.HaltedBlockHoldsOperations := by
  intro i s hhalted hrst hrdcsr
  refine ⟨exec_of_halted hhalted hrst hrdcsr, ?_⟩
  rw [← Bool.not_eq_true, State.enabledOp_ok_iff]
  simp [hrst, hrdcsr, hhalted]

/-- Settles O29: with every sub-queue empty there is none to serve. -/
theorem deqHeldWhileEmpty : Obligations.DeqHeldWhileEmpty := by
  intro s hempty
  have hnone : ¬s.nextQueue.isSome = true := by simp [State.isSome_nextQueue, hempty]
  refine ⟨exec_deq_of_empty (by simpa using hnone), ?_⟩
  rw [← Bool.not_eq_true, State.enabledOp_ok_iff]
  simp [hempty]

/-- Settles O52: while halted `RDCSR` only answers and every other operation but `RST` is held. -/
theorem onlyResetLeavesHalt : Obligations.OnlyResetLeavesHalt := by
  intro i s t h hhalted
  by_cases hrst : i = .rst
  · exact .inl hrst
  · refine .inr ?_
    by_cases hrdcsr : ∃ csr, i = .rdcsr csr
    · obtain ⟨csr, rfl⟩ := hrdcsr
      obtain ⟨st, v, hanswer⟩ := exists_exec_rdcsr_eq csr s
      rw [hanswer] at h
      cases h
      exact ⟨hhalted, rfl, rfl⟩
    · rw [exec_of_halted hhalted hrst (not_exists.1 hrdcsr)] at h
      cases h
      exact ⟨hhalted, rfl, rfl⟩

end

section
/-! PROOF. More rows of the Deframer's table R186: a length or checksum byte that is not the last of its field (R175, R181), a payload byte
(R180); and on what one `RXB` depends (R188). -/

namespace Sys2Proof.Machine

/-! ## Bytes collected and stored -/

theorem State.rxLength_of_more {s : State} (d : Byte) (h : s.rx.cnt + 1 ≠ s.conf.lenW) : s.rxLength d = s.withLengthByte d := by
  rw [State.rxLength_eq, if_neg h]

theorem State.rxChecksum_of_more {s : State} (b sl : Nat) (d : Byte) (h : s.rx.cnt + 1 ≠ s.conf.chkW) :
    s.rxChecksum b sl d = s.withChecksumByte d := by
  rw [State.rxChecksum_eq, if_neg h]

/-- The Deframer after a payload byte (R180). -/
def Deframer.afterPayloadByte (r : Deframer) : Deframer :=
  if r.cnt + 1 = r.len then { r with st := .readingChecksum, cnt := 0 } else { r with cnt := r.cnt + 1 }

/-- `rdpay` stores the byte at the Deframer's count and changes nothing else but the Deframer (R180). -/
theorem State.rxPayload_eq (s : State) (b sl : Nat) (d : Byte) :
    s.rxPayload b sl d = { s.writeByte b sl s.rx.cnt d with rx := s.rx.afterPayloadByte } := by
  rw [State.rxPayload, Deframer.afterPayloadByte]
  split <;> rfl

/-! ## Events that are no dispatch -/

@[simp] theorem dispatched_append (l m : List Event) : dispatched (l ++ m) = dispatched l ++ dispatched m := by
  induction l with
  | nil => rfl
  | cons e l ih => cases e <;> simp [dispatched, ih]

/-- A response is no dispatch (R50). -/
@[simp] theorem dispatched_responseEvents (p : Port) (st : Status) (aux : Byte) (data : Quad) :
    dispatched (responseEvents p st aux data) = [] := by
  cases p <;> rfl

theorem dispatch_not_mem_responseEvents {D : Desc} {P : List Byte} {p : Port} {st : Status} {aux : Byte} {data : Quad} :
    .dispatch D P ∉ responseEvents p st aux data := by
  cases p <;> simp [responseEvents]

/-! ## The slot `pool_take` answers -/

/-- The slot is the head of the best-fit bin's free list, whatever else the state holds (R123). -/
theorem State.map_handle_poolTake (s : State) (n : Nat) : (s.poolTake n).map (fun r => (r.1, r.2.1)) =
    (s.conf.bestBin n).bind fun b => (s.freeList b).head?.map fun sl => (b, sl) := by
  unfold State.poolTake
  cases s.conf.bestBin n with
  | none => rfl
  | some b => cases h : s.freeList b <;> simp [h]

/-! ## Two states that one `RXB` cannot tell apart (R188) -/

/-- What `RXB d` looks at is the same in both states: the configuration, the Deframer, what its buffer reads as, and at the last length
byte the slot `pool_take` answers. -/
structure State.AlikeFor (d : Byte) (s s' : State) : Prop where
  cfg : s'.cfg = s.cfg
  rx : s'.rx = s.rx
  bytes : ∀ b sl i, s.rx.buf = some (b, sl) → i < s.rx.len → s'.readByte b sl i = s.readByte b sl i
  taken : ∀ len, s.rx.st = .readingLength → s.rx.cnt + 1 = s.conf.lenW → len ≤ s.conf.maxPayload →
    s.conf.dec (((s.rx.scr ++ [d]).drop s.conf.sync.length).take s.conf.lenW) = len →
    (s'.poolTake len).map (fun r => (r.1, r.2.1)) = (s.poolTake len).map fun r => (r.1, r.2.1)

/-- From `s` to `u` and from `s'` to `u'` the Deframer ends the same and the same events are emitted. -/
def SameReception (s u s' u' : State) : Prop :=
  u'.rx = u.rx ∧ ∃ evs, u.out = s.out ++ evs ∧ u'.out = s'.out ++ evs

/-- The Deframer ends the same, and nothing is emitted. -/
theorem SameReception.of_silent {s u s' u' : State} (hrx : u'.rx = u.rx) (hout : u.out = s.out) (hout' : u'.out = s'.out) :
    SameReception s u s' u' :=
  ⟨hrx, [], by simpa using hout, by simpa using hout'⟩

/-- The end of the length field, by what it looks at: the configuration, the Deframer, and for a valid length the slot `pool_take`
answers (R175 to R179). -/
theorem sameReception_rxLengthDone {v v' : State} (hconf : v'.conf = v.conf) (hrx : v'.rx = v.rx)
    (htaken : v.conf.dec v.lengthBytes ≤ v.conf.maxPayload →
      (v'.poolTake (v.conf.dec v.lengthBytes)).map (fun r => (r.1, r.2.1)) =
        (v.poolTake (v.conf.dec v.lengthBytes)).map fun r => (r.1, r.2.1)) :
    SameReception v v.rxLengthDone v' v'.rxLengthDone := by
  have hlen : v'.conf.dec v'.lengthBytes = v.conf.dec v.lengthBytes := by rw [State.lengthBytes, State.lengthBytes, hconf, hrx]
  by_cases hlong : v.conf.maxPayload < v.conf.dec v.lengthBytes
  · rw [State.rxLengthDone_of_tooLong hlong, State.rxLengthDone_of_tooLong (by rwa [hlen, hconf])]
    exact .of_silent rfl rfl rfl
  · have hvalid := Nat.le_of_not_gt hlong
    have hvalid' : v'.conf.dec v'.lengthBytes ≤ v'.conf.maxPayload := by rwa [hlen, hconf]
    have htaken := htaken hvalid
    cases hpool : v.poolTake (v.conf.dec v.lengthBytes) with
    | none =>
      rw [hpool, Option.map_none, Option.map_eq_none_iff] at htaken
      rw [State.rxLengthDone_of_noBuffer hvalid hpool, State.rxLengthDone_of_noBuffer hvalid' (by rwa [hlen])]
      exact .of_silent rfl rfl rfl
    | some taken =>
      obtain ⟨b, sl, w⟩ := taken
      rw [hpool, Option.map_some, Option.map_eq_some_iff] at htaken
      obtain ⟨⟨b', sl', w'⟩, hpool', hsame⟩ := htaken
      obtain ⟨rfl, rfl⟩ : b' = b ∧ sl' = sl := by simpa using hsame
      rw [State.rxLengthDone_of_buffer hvalid hpool, State.rxLengthDone_of_buffer hvalid' (by rwa [hlen]), hlen]
      obtain ⟨-, rest, -, rfl⟩ := State.poolTake_eq_some.1 hpool
      obtain ⟨-, rest', -, rfl⟩ := State.poolTake_eq_some.1 hpool'
      exact .of_silent (by simp only [State.takeSlot_rx, hrx]) rfl rfl

/-- The end of the checksum field, by what it looks at: the configuration, the Deframer, and the payload its buffer reads as (R181 to
R183). -/
theorem sameReception_rxChecksumDone {v v' : State} {b sl : Nat} (hconf : v'.conf = v.conf) (hrx : v'.rx = v.rx)
    (hP : v'.readBytes b sl v'.rx.len = v.readBytes b sl v.rx.len) :
    SameReception v (v.rxChecksumDone b sl) v' (v'.rxChecksumDone b sl) := by
  have hlb : v'.lengthBytes = v.lengthBytes := by rw [State.lengthBytes, State.lengthBytes, hconf, hrx]
  by_cases hchk : v.conf.chk (v.lengthBytes ++ v.readBytes b sl v.rx.len) = v.rx.chk
  · rw [State.rxChecksumDone_of_match rfl hchk, State.rxChecksumDone_of_match hP (by rwa [hconf, hlb, hrx])]
    exact ⟨rfl, _, rfl, by rw [hrx]⟩
  · rw [State.rxChecksumDone_of_mismatch rfl hchk, State.rxChecksumDone_of_mismatch hP (by rwa [hconf, hlb, hrx])]
    exact .of_silent rfl rfl rfl

section
variable {d : Byte} {s s' : State} (h : s.AlikeFor d s')
include h

theorem State.AlikeFor.conf : s'.conf = s.conf := congrArg Subtype.val h.cfg

theorem State.AlikeFor.rxSeek : SameReception s (s.rxSeek d) s' (s'.rxSeek d) := by
  by_cases hd : s.conf.sync[s.rx.cnt]? = some d
  · have hd' : s'.conf.sync[s'.rx.cnt]? = some d := by rwa [h.conf, h.rx]
    rw [State.rxSeek_of_match hd, State.rxSeek_of_match hd', h.conf, h.rx]
    exact .of_silent rfl rfl rfl
  · have hd' : s'.conf.sync[s'.rx.cnt]? ≠ some d := by rwa [h.conf, h.rx]
    rw [State.rxSeek_of_mismatch hd, State.rxSeek_of_mismatch hd', h.conf, h.rx]
    exact .of_silent rfl rfl rfl

theorem State.AlikeFor.withLengthByte_rx : (s'.withLengthByte d).rx = (s.withLengthByte d).rx := by
  simp only [State.withLengthByte, h.rx]

theorem State.AlikeFor.rxLength (hst : s.rx.st = .readingLength) : SameReception s (s.rxLength d) s' (s'.rxLength d) := by
  by_cases hlast : s.rx.cnt + 1 = s.conf.lenW
  · have hlast' : s'.rx.cnt + 1 = s'.conf.lenW := by rwa [h.conf, h.rx]
    rw [State.rxLength_of_last d hlast, State.rxLength_of_last d hlast']
    refine sameReception_rxLengthDone h.conf h.withLengthByte_rx fun hvalid => ?_
    have htaken := h.taken _ hst hlast hvalid rfl
    rw [State.map_handle_poolTake, State.map_handle_poolTake] at htaken ⊢
    exact htaken
  · have hmore : s'.rx.cnt + 1 ≠ s'.conf.lenW := by rwa [h.conf, h.rx]
    rw [State.rxLength_of_more d hlast, State.rxLength_of_more d hmore]
    exact .of_silent h.withLengthByte_rx rfl rfl

theorem State.AlikeFor.rxPayload (b sl : Nat) : SameReception s (s.rxPayload b sl d) s' (s'.rxPayload b sl d) := by
  rw [State.rxPayload_eq, State.rxPayload_eq, h.rx]
  exact .of_silent rfl rfl rfl

theorem State.AlikeFor.withChecksumByte_rx : (s'.withChecksumByte d).rx = (s.withChecksumByte d).rx := by
  simp only [State.withChecksumByte, h.rx]

/-- The buffer reads as the same payload. -/
theorem State.AlikeFor.readBytes {b sl : Nat} (hbuf : s.rx.buf = some (b, sl)) :
    s'.readBytes b sl s'.rx.len = s.readBytes b sl s.rx.len := by
  rw [h.rx, State.readBytes, State.readBytes]
  exact List.map_congr_left fun i hi => h.bytes b sl i hbuf (List.mem_range.1 hi)

theorem State.AlikeFor.rxChecksum {b sl : Nat} (hbuf : s.rx.buf = some (b, sl)) :
    SameReception s (s.rxChecksum b sl d) s' (s'.rxChecksum b sl d) := by
  by_cases hlast : s.rx.cnt + 1 = s.conf.chkW
  · have hlast' : s'.rx.cnt + 1 = s'.conf.chkW := by rwa [h.conf, h.rx]
    rw [State.rxChecksum_of_last b sl d hlast, State.rxChecksum_of_last b sl d hlast']
    exact sameReception_rxChecksumDone h.conf h.withChecksumByte_rx (h.readBytes hbuf)
  · have hmore : s'.rx.cnt + 1 ≠ s'.conf.chkW := by rwa [h.conf, h.rx]
    rw [State.rxChecksum_of_more b sl d hlast, State.rxChecksum_of_more b sl d hmore]
    exact .of_silent h.withChecksumByte_rx rfl rfl

/-- Where one of the two states has an effect of `RXB`, the other has one that ends the same. -/
theorem State.AlikeFor.rxbEffect {u : State} (hu : RxbEffect d s u) : ∃ u', RxbEffect d s' u' ∧ SameReception s u s' u' := by
  cases hu with
  | seek hst => exact ⟨_, .seek (by rwa [h.rx]), h.rxSeek⟩
  | length hst => exact ⟨_, .length (by rwa [h.rx]), h.rxLength hst⟩
  | payload hst hbuf hcnt => exact ⟨_, .payload (by rwa [h.rx]) (by rwa [h.rx]) (by rwa [h.rx, h.conf]), h.rxPayload _ _⟩
  | checksum hst hbuf => exact ⟨_, .checksum (by rwa [h.rx]) (by rwa [h.rx]), h.rxChecksum hbuf⟩

end

end Sys2Proof.Machine

open Sys2Proof Sys2Proof.Machine

/-- Settles O33: the byte is not the last of its field, so the next state is the one with the byte collected. -/
theorem rxbCollectsFieldBytes : Obligations.RxbCollectsFieldBytes := by
  refine fun s d hrun => ⟨fun hst hmore => ?_, fun hst hbuf hmore => ?_⟩
  · rw [(RxbEffect.length (d := d) hst).exec_eq hrun, State.rxLength_of_more d hmore.ne]
    rfl
  · obtain ⟨⟨b, sl⟩, hbuf⟩ := Option.ne_none_iff_exists'.1 hbuf
    rw [(RxbEffect.checksum (d := d) hst hbuf).exec_eq hrun, State.rxChecksum_of_more b sl d hmore.ne]
    rfl

/-- Settles O36: the one byte written is at the buffer's handle and the count, which is an offset of the slot. -/
theorem rxbStoresPayloadByte : Obligations.RxbStoresPayloadByte := by
  intro s d b sl hrun hst hbuf hsl hcnt
  have hexec := (RxbEffect.payload (d := d) hst hbuf hcnt).exec_eq hrun
  rw [State.rxPayload_eq] at hexec
  have hoff : s.rx.cnt < 65536 := hcnt.trans (Cfg.binSize_lt s.cfg.property b)
  refine ⟨_, hexec, rfl, fun b' sl' o hsl' ho => ?_, fun hmore => if_neg hmore, fun hlast => if_pos hlast⟩
  rw [State.slotByte?_complete]
  exact State.slotByte?_writeByte s d hsl hoff hsl' ho

/-- Settles O58: the other state has the effect of `RXB` that ends the same, and the responses are no dispatches. -/
theorem rxbDependsOnlyOnDeframerAndPool : Obligations.RxbDependsOnlyOnDeframerAndPool := by
  intro d s s' t hrun hrun' hcfg hrx hbytes htaken hexec
  have halike : s.AlikeFor d s' := ⟨hcfg, hrx, hbytes, htaken⟩
  obtain ⟨hhalted, -⟩ | ⟨-, u, hu, rfl⟩ := exec_rxb_eq_next hexec
  · simp [hrun] at hhalted
  · obtain ⟨u', hu', hrx', evs, hout, hout'⟩ := halike.rxbEffect hu
    refine ⟨_, hu'.exec_eq hrun', hrx', ?_, fun D P => ?_⟩
    · simp [hout, hout']
    · simp [hout, hout', dispatch_not_mem_responseEvents]

end

section
/-! PROOF. From a state with the invariants every operation answers a next state, and that state has them again: the rows of the
Deframer's table (R39 to R44, R186) first, then the other operations, then the step (R244, R282). -/

namespace Sys2Proof.Machine

/-! ## The deframer invariant, from the part of the state the Deframer is in -/

/-- No slot is the Deframer's. -/
def State.NoRxd (s : State) : Prop := ∀ b sl, s.owner? b sl ≠ some .rxd

/-- The only slot of the Deframer is `h`. -/
def State.OnlyRxd (s : State) (h : Nat × Nat) : Prop := ∀ b sl, s.owner? b sl = some .rxd → (b, sl) = h

theorem State.DeframerInv.of_seek {s : State} (hst : s.rx.st = .seekingSync) (hseek : s.SeekInv) (hno : s.NoRxd) : s.DeframerInv := by
  obtain ⟨-, -, hlen, -⟩ := id hseek
  refine ⟨by simp [hst], by omega, fun _ => hseek, ?_, ?_, ?_, fun b _ sl _ hown => absurd hown (hno b sl)⟩
  all_goals simp [hst]

theorem State.DeframerInv.of_length {s : State} (hst : s.rx.st = .readingLength) (hfield : s.LengthInv) (hno : s.NoRxd) :
    s.DeframerInv := by
  obtain ⟨-, -, -, hlen, -⟩ := id hfield
  refine ⟨by simp [hst], by omega, ?_, fun _ => hfield, ?_, ?_, fun b _ sl _ hown => absurd hown (hno b sl)⟩
  all_goals simp [hst]

theorem State.DeframerInv.of_payload {s : State} {h : Nat × Nat} (hst : s.rx.st = .readingPayload) (hlen : s.rx.len ≤ s.conf.maxPayload)
    (hbuf : s.rx.buf = some h) (hcnt : s.rx.cnt < s.rx.len) (hheader : s.HeaderOk) (hchk : s.rx.chk = []) (hholds : s.Holds h s.rx.cnt)
    (honly : s.OnlyRxd h) : s.DeframerInv := by
  have hfield : s.PayloadInv := by
    refine ⟨hcnt, hheader, hchk, by simp [hbuf], fun h' hh' => ?_⟩
    rw [hbuf, Option.mem_some_iff] at hh'
    exact hh' ▸ hholds
  refine ⟨by simp [hst], hlen, ?_, ?_, fun _ => hfield, ?_, fun b _ sl _ hown => by rw [hbuf, honly b sl hown]⟩
  all_goals simp [hst]

theorem State.DeframerInv.of_checksum {s : State} {h : Nat × Nat} (hst : s.rx.st = .readingChecksum)
    (hlen : s.rx.len ≤ s.conf.maxPayload) (hbuf : s.rx.buf = some h) (hcnt : s.rx.cnt < s.conf.chkW) (hheader : s.HeaderOk)
    (hchk : s.rx.chk.length = s.rx.cnt) (hholds : s.Holds h s.rx.len) (honly : s.OnlyRxd h) : s.DeframerInv := by
  have hfield : s.ChecksumInv := by
    refine ⟨hcnt, hheader, hchk, by simp [hbuf], fun h' hh' => ?_⟩
    rw [hbuf, Option.mem_some_iff] at hh'
    exact hh' ▸ hholds
  refine ⟨by simp [hst], hlen, ?_, ?_, ?_, fun _ => hfield, fun b _ sl _ hown => by rw [hbuf, honly b sl hown]⟩
  all_goals simp [hst]

/-- The Deframer after `rx_clear` has its invariant if no slot is its own (R46). -/
theorem State.DeframerInv.of_fresh {s : State} (hrx : s.rx = Deframer.fresh) (hno : s.NoRxd) : s.DeframerInv := by
  obtain ⟨hsync, -⟩ := Cfg.codec_widths s.cfg.property
  refine .of_seek (by rw [hrx]; rfl) ⟨?_, ?_, ?_, ?_, ?_⟩ hno
  · rw [hrx]; exact hsync
  all_goals rw [hrx]; rfl

/-! ## What the invariant says of the Deframer's slot -/

/-- Without a buffer no slot is the Deframer's (R43). -/
theorem State.Inv.noRxd {s : State} (h : s.Inv) (hbuf : s.rx.buf = none) : s.NoRxd := by
  obtain ⟨hpool, -, ⟨-, -, -, -, -, -, hrxd⟩, -⟩ := h
  intro b sl hown
  obtain ⟨hb, hsl, -⟩ := hpool.slot_lt hown
  simp [hbuf] at hrxd
  exact hrxd b hb sl hsl hown

/-- With a buffer no other slot is the Deframer's (R43). -/
theorem State.Inv.onlyRxd {s : State} (h : s.Inv) {x : Nat × Nat} (hbuf : s.rx.buf = some x) : s.OnlyRxd x := by
  obtain ⟨hpool, -, ⟨-, -, -, -, -, -, hrxd⟩, -⟩ := h
  intro b sl hown
  obtain ⟨hb, hsl, -⟩ := hpool.slot_lt hown
  have := hrxd b hb sl hsl hown
  rw [hbuf] at this
  exact (Option.some.inj this).symm

/-- The owner tags after the Deframer's slot gets another one. -/
theorem State.OnlyRxd.noRxd {s t : State} {b sl : Nat} {o : Owner} (h : s.OnlyRxd (b, sl)) (ho : o ≠ .rxd)
    (howner : ∀ b' sl', t.owner? b' sl' = if b' = b ∧ sl' = sl then some o else s.owner? b' sl') : t.NoRxd := by
  intro b' sl' hown
  rw [howner] at hown
  split at hown
  · exact ho (Option.some.inj hown)
  · next hne => exact hne (by simpa using h b' sl' hown)

/-- The owner tags after a slot that is not the queue's gets another owner that is not the queue. -/
theorem State.queue_iff_of_owner {s t : State} {b sl : Nat} {o o' : Owner} (hs : s.owner? b sl = some o) (ho : o ≠ .queue)
    (ho' : o' ≠ .queue) (howner : ∀ b' sl', t.owner? b' sl' = if b' = b ∧ sl' = sl then some o' else s.owner? b' sl') (b' sl' : Nat) :
    t.owner? b' sl' = some .queue ↔ s.owner? b' sl' = some .queue := by
  rw [howner]
  split
  · next heq => obtain ⟨rfl, rfl⟩ := heq; simp [hs, ho, ho']
  · rfl

/-! ## What the Deframer may write -/

/-- A row of the Deframer's table keeps the invariants if it keeps those of the pool, of the Deframer and of slot memory, and moves no
slot into or out of the queue. -/
theorem State.Inv.of_deframerFrame {s u : State} (h : s.Inv) (hframe : s.DeframerFrame u) (hcmd : u.env.cmd = s.env.cmd)
    (hpool : u.PoolInv) (hqueue : ∀ b sl, u.owner? b sl = some .queue ↔ s.owner? b sl = some .queue) (hrx : u.DeframerInv)
    (hmem : Memory.wf u.mem = true) : u.Inv := by
  obtain ⟨-, hq, -, hhalt, -, hports⟩ := h
  have hcfg : u.cfg = s.cfg := congrArg (·.cfg) hframe
  refine ⟨hpool, hq.congr (congrArg (·.queues) hframe) hcfg hqueue, hrx,
    hhalt.congr (congrArg (·.fatal) hframe) (congrArg (·.faultCode) hframe) (congrArg (·.faultInfo) hframe), hmem, ?_⟩
  rw [hcmd, hports, State.conf, State.conf, hcfg]

/-- A new state of the Deframer alone. -/
theorem State.Inv.withRx {s : State} (h : s.Inv) (r : Deframer) (hrx : State.DeframerInv { s with rx := r }) :
    State.Inv { s with rx := r } := by
  obtain ⟨hpool, -, -, -, hmem, -⟩ := id h
  exact h.of_deframerFrame rfl rfl (.congr (s := s) rfl rfl hpool) (fun _ _ => Iff.rfl) hrx hmem

/-! ## `SEEKING_SYNC` -/

/-- The sync bytes matched so far and the next one. -/
theorem take_concat_of_getElem? {α : Type} {l : List α} {n : Nat} {x : α} (h : l[n]? = some x) : l.take n ++ [x] = l.take (n + 1) := by
  rw [List.take_add_one, h, Option.toList_some]

/-- Every row of `SEEKING_SYNC` keeps the invariants (R173, R174). -/
theorem State.Inv.rxSeek {s : State} (h : s.Inv) (hst : s.rx.st = .seekingSync) (d : Byte) : (s.rxSeek d).Inv := by
  obtain ⟨-, -, ⟨-, -, hseek, -⟩, -⟩ := id h
  obtain ⟨hcnt, hscr, hlen, hbuf, hchk⟩ := hseek hst
  obtain ⟨hsync, -, hlenW, -⟩ := Cfg.codec_widths s.cfg.property
  by_cases hd : s.conf.sync[s.rx.cnt]? = some d
  · have hscr' : s.rx.scr ++ [d] = s.conf.sync.take (s.rx.cnt + 1) := by rw [hscr, take_concat_of_getElem? hd]
    rw [State.rxSeek_of_match hd]
    split
    · next hlast =>
      have hscr'' : s.rx.scr ++ [d] = s.conf.sync := by rw [hscr', hlast, List.take_length]
      refine h.withRx _ (.of_length rfl ⟨hlenW, ?_, ?_, hlen, hbuf, hchk⟩ (h.noRxd hbuf))
      · simp [State.lengthBytes, hscr'']
      · simp [State.lengthBytes, hscr'']
    · next hmore =>
      have hnext : s.rx.cnt + 1 < s.conf.sync.length := by omega
      exact h.withRx _ (.of_seek hst ⟨hnext, hscr', hlen, hbuf, hchk⟩ (h.noRxd hbuf))
  · rw [State.rxSeek_of_mismatch hd]
    split
    · next hretest =>
      obtain ⟨-, hpos, hfirst⟩ := hretest
      have hscr' : [d] = s.conf.sync.take 1 := (take_concat_of_getElem? hfirst :)
      have hone : 1 < s.conf.sync.length := by omega
      exact h.withRx _ (.of_seek hst ⟨hone, hscr', hlen, hbuf, hchk⟩ (h.noRxd hbuf))
    · exact h.withRx _ (.of_seek hst ⟨hsync, rfl, hlen, hbuf, hchk⟩ (h.noRxd hbuf))

/-! ## `READING_LENGTH` -/

/-- The length bytes with one more collected (R175). -/
theorem State.LengthInv.lengthBytes_withLengthByte {s : State} (h : s.LengthInv) (d : Byte) :
    (s.withLengthByte d).lengthBytes = s.lengthBytes ++ [d] := by
  obtain ⟨hcnt, hscr, hlb, -⟩ := h
  have hfits : (s.lengthBytes ++ [d]).length ≤ s.conf.lenW := by simp; omega
  calc (s.withLengthByte d).lengthBytes = ((s.rx.scr ++ [d]).drop s.conf.sync.length).take s.conf.lenW := rfl
    _ = (s.lengthBytes ++ [d]).take s.conf.lenW := by rw [hscr, List.append_assoc, List.drop_left]
    _ = s.lengthBytes ++ [d] := List.take_of_length_le hfits

/-- The scratch buffer with one more length byte is the pattern and the length bytes (R41). -/
theorem State.LengthInv.scr_withLengthByte {s : State} (h : s.LengthInv) (d : Byte) :
    (s.withLengthByte d).rx.scr = s.conf.sync ++ (s.withLengthByte d).lengthBytes ∧
      (s.withLengthByte d).lengthBytes.length = s.rx.cnt + 1 := by
  rw [h.lengthBytes_withLengthByte d]
  obtain ⟨-, hscr, hlb, -⟩ := h
  refine ⟨?_, by simp [hlb]⟩
  calc (s.withLengthByte d).rx.scr = s.rx.scr ++ [d] := rfl
    _ = s.conf.sync ++ s.lengthBytes ++ [d] := congrArg (· ++ [d]) hscr
    _ = s.conf.sync ++ (s.lengthBytes ++ [d]) := List.append_assoc ..

/-- A slot taken for the Deframer, which had none, keeps the invariants (R175, R179). -/
theorem State.Inv.acceptLength {s : State} (h : s.Inv) (r : Deframer) {b sl len : Nat} {rest : List Nat} (hbest : s.conf.bestBin len = some b)
    (hfree : s.freeList b = sl :: rest) (hvalid : len ≤ s.conf.maxPayload) (hno : s.NoRxd) (hchk : r.chk = [])
    (hheader : ∀ n, State.HeaderOk { s with rx := { r.accept b sl len with cnt := n } }) :
    State.Inv { (s.takeSlot b sl rest).setOwner b sl .rxd with rx := r.accept b sl len } := by
  obtain ⟨hpool, -, -, -, hmem, -⟩ := id h
  obtain ⟨hfreed, -⟩ := hpool.head hfree
  obtain ⟨-, hfits⟩ := Cfg.le_binSize_of_bestBin hbest
  obtain ⟨-, -, -, -, hchkW, -⟩ := Cfg.codec_widths s.cfg.property
  have howner (b' sl' : Nat) : ((s.takeSlot b sl rest).setOwner b sl .rxd).owner? b' sl' =
      if b' = b ∧ sl' = sl then some .rxd else s.owner? b' sl' := by
    rw [State.owner?_setOwner .rxd (by simp [hfreed]), State.owner?_takeSlot]
  have honly : State.OnlyRxd { (s.takeSlot b sl rest).setOwner b sl .rxd with rx := r.accept b sl len } (b, sl) := by
    intro b' sl' hown
    have hown := (howner b' sl').symm.trans hown
    split at hown
    · next heq => rw [heq.1, heq.2]
    · exact absurd hown (hno b' sl')
  have hrxd : ((s.takeSlot b sl rest).setOwner b sl .rxd).owner? b sl = some .rxd := by simp [howner]
  refine h.of_deframerFrame rfl rfl (.congr (s := (s.takeSlot b sl rest).setOwner b sl .rxd) rfl rfl (hpool.take hfree (by simp)))
    (State.queue_iff_of_owner hfreed (by simp) (by simp) howner) ?_ (Memory.wf_erase hmem _ _)
  by_cases hlen : len = 0
  · subst hlen
    exact .of_checksum rfl hvalid rfl hchkW (hheader 0) (by simp [Deframer.accept, hchk]) ⟨hrxd, hfits, nofun⟩ honly
  · exact .of_payload (if_neg hlen) hvalid rfl (Nat.pos_of_ne_zero hlen) (hheader 0) hchk ⟨hrxd, hfits, nofun⟩ honly

/-- Every row of `READING_LENGTH` keeps the invariants (R175 to R179). -/
theorem State.Inv.rxLength {s : State} (h : s.Inv) (hst : s.rx.st = .readingLength) (d : Byte) : (s.rxLength d).Inv := by
  obtain ⟨hpool, -, ⟨-, -, -, hfield, -⟩, -, hmem, -⟩ := id h
  have hfield := hfield hst
  obtain ⟨hscr, hlb⟩ := hfield.scr_withLengthByte d
  obtain ⟨hcnt, -, -, hlen, hbuf, hchk⟩ := hfield
  have hno := h.noRxd hbuf
  have hclear : State.Inv { s with rx := Deframer.fresh } := h.withRx _ (.of_fresh rfl hno)
  by_cases hlast : s.rx.cnt + 1 = s.conf.lenW
  · rw [State.rxLength_of_last d hlast]
    by_cases hlong : (s.withLengthByte d).conf.maxPayload < (s.withLengthByte d).conf.dec (s.withLengthByte d).lengthBytes
    · rw [State.rxLengthDone_of_tooLong hlong]
      exact hclear.congr rfl rfl rfl rfl rfl rfl rfl rfl rfl
    · have hvalid := Nat.le_of_not_gt hlong
      cases htake : (s.withLengthByte d).poolTake ((s.withLengthByte d).conf.dec (s.withLengthByte d).lengthBytes) with
      | none =>
        rw [State.rxLengthDone_of_noBuffer hvalid htake]
        exact hclear.congr rfl rfl rfl rfl rfl rfl rfl rfl rfl
      | some taken =>
        obtain ⟨b, sl, s'⟩ := taken
        rw [State.rxLengthDone_of_buffer hvalid htake]
        obtain ⟨hbest, rest, hfree, rfl⟩ := State.poolTake_eq_some.1 htake
        exact h.acceptLength (s.withLengthByte d).rx hbest hfree hvalid hno hchk fun n => ⟨hscr, hlb.trans hlast, rfl⟩
  · rw [State.rxLength_of_more d hlast]
    have hnext : s.rx.cnt + 1 < s.conf.lenW := by omega
    exact h.withRx _ (.of_length hst ⟨hnext, hscr, hlb, hlen, hbuf, hchk⟩ hno)

/-! ## `READING_PAYLOAD` -/

/-- Every row of `READING_PAYLOAD` keeps the invariants (R180). -/
theorem State.Inv.rxPayload {s : State} (h : s.Inv) (hst : s.rx.st = .readingPayload) {b sl : Nat} (hbuf : s.rx.buf = some (b, sl)) (d : Byte) :
    (s.rxPayload b sl d).Inv := by
  obtain ⟨hpool, -, ⟨-, hlen, -, -, hfield, -⟩, -, hmem, -⟩ := id h
  obtain ⟨hcnt, hheader, hchk, -, hholds⟩ := hfield hst
  obtain ⟨hown, hfits, hstored⟩ := hholds (b, sl) hbuf
  have hfits : s.rx.len ≤ s.conf.binSize b := hfits
  obtain ⟨-, -, hsl⟩ := hpool.slot_lt hown
  obtain ⟨-, -, -, -, hchkW, -⟩ := Cfg.codec_widths s.cfg.property
  have hsize : s.conf.binSize b < 65536 := Cfg.binSize_lt s.cfg.property b
  have hstored' (o : Nat) (ho : o < s.rx.cnt + 1) : (s.writeByte b sl s.rx.cnt d).slotByte? b sl o ≠ none := by
    rw [State.slotByte?_writeByte s d hsl (by omega) hsl (by omega)]
    split
    · simp
    · exact hstored o (by omega)
  rw [State.rxPayload_eq]
  refine h.of_deframerFrame rfl rfl (.congr (s := s) rfl rfl hpool) (fun _ _ => Iff.rfl) ?_ (Memory.wf_write hmem _ _)
  rw [Deframer.afterPayloadByte]
  split
  · next hlast => exact .of_checksum rfl hlen hbuf hchkW hheader (by simp [hchk]) ⟨hown, hfits, hlast ▸ hstored'⟩ (h.onlyRxd hbuf)
  · next hmore =>
    have hnext : s.rx.cnt + 1 < s.rx.len := by omega
    exact .of_payload hst hlen hbuf hnext hheader hchk ⟨hown, hfits, hstored'⟩ (h.onlyRxd hbuf)

/-! ## `READING_CHECKSUM` -/

/-- Every row of `READING_CHECKSUM` keeps the invariants (R181 to R183). -/
theorem State.Inv.rxChecksum {s : State} (h : s.Inv) (hst : s.rx.st = .readingChecksum) {b sl : Nat} (hbuf : s.rx.buf = some (b, sl))
    (d : Byte) : (s.rxChecksum b sl d).Inv := by
  obtain ⟨hpool, -, ⟨-, hlen, -, -, -, hfield, -⟩, -, hmem, -⟩ := id h
  obtain ⟨hcnt, hheader, hchk, -, hholds⟩ := hfield hst
  have hholds := hholds (b, sl) hbuf
  obtain ⟨hown, -⟩ := id hholds
  have honly := h.onlyRxd hbuf
  by_cases hlast : s.rx.cnt + 1 = s.conf.chkW
  · rw [State.rxChecksum_of_last b sl d hlast]
    by_cases hmatch : (s.withChecksumByte d).conf.chk ((s.withChecksumByte d).lengthBytes ++
        (s.withChecksumByte d).readBytes b sl (s.withChecksumByte d).rx.len) = (s.withChecksumByte d).rx.chk
    · rw [State.rxChecksumDone_of_match rfl hmatch]
      have howner := State.owner?_setOwner (s := s) .ext (by simp [hown] : s.owner? b sl ≠ none)
      exact h.of_deframerFrame rfl rfl (.congr (s := s.setOwner b sl .ext) rfl rfl (hpool.setOwner hown (by simp) (by simp)))
        (State.queue_iff_of_owner hown (by simp) (by simp) howner) (.of_fresh rfl (honly.noRxd (by simp) howner)) hmem
    · rw [State.rxChecksumDone_of_mismatch rfl hmatch]
      have howner := State.owner?_poolGive (s := s) (by simp [hown] : s.owner? b sl ≠ none)
      exact h.of_deframerFrame rfl rfl (.congr (s := s.poolGive b sl) rfl rfl (hpool.poolGive hown (by simp)))
        (State.queue_iff_of_owner hown (by simp) (by simp) howner) (.of_fresh rfl (honly.noRxd (by simp) howner)) hmem
  · rw [State.rxChecksum_of_more b sl d hlast]
    have hnext : s.rx.cnt + 1 < s.conf.chkW := by omega
    exact h.withRx _ (.of_checksum hst hlen hbuf hnext hheader (by simp [hchk]) hholds honly)

/-! ## `RXB` -/

/-- Every effect of `RXB` keeps the invariants. -/
theorem RxbEffect.inv {d : Byte} {s u : State} (hu : RxbEffect d s u) (h : s.Inv) : u.Inv := by
  cases hu with
  | seek hst => exact h.rxSeek hst d
  | length hst => exact h.rxLength hst d
  | payload hst hbuf => exact h.rxPayload hst hbuf d
  | checksum hst hbuf => exact h.rxChecksum hst hbuf d

/-- A state with the invariants meets none of the Deframer's faults (R43, R62, R183). -/
theorem State.Inv.exists_rxbEffect {s : State} (h : s.Inv) (d : Byte) : ∃ u, RxbEffect d s u := by
  obtain ⟨-, -, ⟨hready, -, -, -, hpayload, hchecksum, -⟩, -⟩ := h
  cases hst : s.rx.st with
  | seekingSync => exact ⟨_, .seek hst⟩
  | readingLength => exact ⟨_, .length hst⟩
  | readingPayload =>
    obtain ⟨hcnt, -, -, hbuf, hholds⟩ := hpayload hst
    obtain ⟨⟨b, sl⟩, hbuf⟩ := Option.ne_none_iff_exists'.1 hbuf
    obtain ⟨-, hfits, -⟩ := hholds (b, sl) hbuf
    exact ⟨_, .payload hst hbuf (hcnt.trans_le hfits)⟩
  | readingChecksum =>
    obtain ⟨-, -, -, hbuf, -⟩ := hchecksum hst
    obtain ⟨⟨b, sl⟩, hbuf⟩ := Option.ne_none_iff_exists'.1 hbuf
    exact ⟨_, .checksum hst hbuf⟩
  | dispatchReady => exact absurd hst hready

/-! ## Results with the invariants -/

/-- The result is a next state, and it has the invariants. -/
def EndsInInv (r : Result) : Prop := ∃ t, r = .next t ∧ t.Inv

theorem State.Inv.endsInInv_respond {s : State} (h : s.Inv) (st : Status) (aux : Byte) (data : Quad) : EndsInInv (s.respond st aux data) :=
  ⟨_, rfl, h.respond rfl⟩

/-- A held operation changes nothing (R149, R263). -/
theorem State.Inv.endsInInv_hold {s : State} (h : s.Inv) : EndsInInv s.hold := ⟨s, rfl, h⟩

theorem State.Inv.endsInInv_raiseFatal {s : State} (h : s.Inv) {st : Status} (hst : st = .invalidRelease ∨ st = .invalidBuffer) (d : Desc) :
    EndsInInv (s.raiseFatal st d) :=
  ⟨_, rfl, h.raiseFatal hst rfl⟩

theorem State.Inv.endsInInv_unlessHalted {s : State} (h : s.Inv) {r : Result} (hr : EndsInInv r) : EndsInInv (s.unlessHalted r) := by
  cases hf : s.fatal with
  | true => rw [State.unlessHalted_of_halted hf]; exact ⟨s, rfl, h⟩
  | false => rwa [State.unlessHalted_of_running hf]

/-! ## The operations -/

section
variable {s : State} (h : s.Inv)
include h

theorem State.Inv.endsInInv_execAlloc (size : Half) : EndsInInv (execAlloc size s) := by
  apply h.endsInInv_unlessHalted
  split
  · exact h.endsInInv_respond ..
  · next htake =>
    obtain ⟨-, rest, hfree, rfl⟩ := State.poolTake_eq_some.1 htake
    exact (h.take hfree).endsInInv_respond ..

theorem State.Inv.endsInInv_execRelease (d : Desc) : EndsInInv (execRelease d s) := by
  apply h.endsInInv_unlessHalted
  split
  · next htest =>
    obtain ⟨-, -, hext⟩ := State.releasable_iff.1 htest
    exact (h.give hext).endsInInv_respond ..
  · exact h.endsInInv_raiseFatal (.inl rfl) d

theorem State.Inv.writeByte {d : Desc} (hvalid : s.validExt d = true) {o : Nat} (ho : o < s.conf.binSize d.bin.toNat) (v : Byte) :
    (s.writeByte d.bin.toNat d.slot.toNat o v).Inv := by
  obtain ⟨-, -, hext, -⟩ := State.validExt_iff.1 hvalid
  obtain ⟨-, -, -, -, hmem, -⟩ := id h
  have ho' : o < 65536 := ho.trans (Cfg.binSize_lt s.cfg.property _)
  refine h.store hext _ (Memory.wf_write hmem _ v) fun b' sl' o' hsl' ho'' hne => ?_
  have hbyte := State.slotByte?_writeByte s (b := d.bin.toNat) v d.slot.isLt ho' (b' := b') hsl' ho''
  rw [if_neg fun heq => hne (by rw [heq.1, heq.2.1])] at hbyte
  exact hbyte

theorem State.Inv.endsInInv_execBufwr (data : Byte) (off : Half) (d : Desc) : EndsInInv (execBufwr data off d s) := by
  apply h.endsInInv_unlessHalted
  split
  · next htest =>
    obtain ⟨hvalid, hoff⟩ := State.validAccess_iff.1 htest
    exact (h.writeByte hvalid hoff data).endsInInv_respond ..
  · exact h.endsInInv_raiseFatal (.inr rfl) d

theorem State.Inv.endsInInv_execBufrd (off : Half) (d : Desc) : EndsInInv (execBufrd off d s) := by
  apply h.endsInInv_unlessHalted
  split
  · exact h.endsInInv_respond ..
  · exact h.endsInInv_raiseFatal (.inr rfl) d

theorem State.Inv.endsInInv_execEnq (prio : Byte) (d : Desc) : EndsInInv (execEnq prio d s) := by
  apply h.endsInInv_unlessHalted
  split
  · next hvalid =>
    split
    · exact h.endsInInv_respond ..
    · next q hidx =>
      split
      · exact h.endsInInv_respond ..
      · next hroom =>
        obtain ⟨k, hk, -⟩ := (Cfg.qidx_eq_some s.cfg.property).1 hidx
        have hq : q < s.conf.queues.length := (List.getElem?_eq_some_iff.1 hk).1
        exact (h.push hq (Nat.lt_of_not_le hroom) hvalid).endsInInv_respond ..
  · exact h.endsInInv_raiseFatal (.inr rfl) d

/-- A sub-queue that counts a descriptor holds one (R35). -/
theorem State.Inv.qFifo_ne_nil {q : Nat} (hq : 0 < s.qCnt q) : s.qFifo q ≠ [] := by
  obtain ⟨-, ⟨-, hcounts, -⟩, -⟩ := h
  cases hQ : s.queues[q]? with
  | none => simp [State.qCnt, hQ] at hq
  | some Q =>
    obtain ⟨hlt, rfl⟩ := List.getElem?_eq_some_iff.1 hQ
    obtain ⟨hcnt, -⟩ := hcounts q hlt
    rw [State.qFifo_eq hQ]
    rw [State.qCnt_eq hQ] at hq
    exact List.ne_nil_of_length_pos (hcnt ▸ hq)

theorem State.Inv.endsInInv_execDeq : EndsInInv (execDeq s) := by
  apply h.endsInInv_unlessHalted
  split
  · exact h.endsInInv_hold
  · next q hnext =>
    have hcnt : 0 < s.qCnt q := by simpa using List.find?_some hnext
    split
    · next hnil => exact absurd hnil (h.qFifo_ne_nil hcnt)
    · next hfifo => exact (h.pop hfifo).endsInInv_respond ..

theorem State.Inv.endsInInv_execFrame (d : Desc) : EndsInInv (execFrame d s) := by
  apply h.endsInInv_unlessHalted
  split
  · next hvalid =>
    split
    · exact h.endsInInv_respond ..
    · split
      · exact h.endsInInv_respond ..
      · next htake => exact (h.frame hvalid rfl htake).endsInInv_respond ..
  · exact h.endsInInv_raiseFatal (.inr rfl) d

theorem State.Inv.endsInInv_exec_rxb (d : Byte) : EndsInInv (exec (.rxb d) s) := by
  cases hf : s.fatal with
  | true => exact ⟨s, exec_of_halted hf (by simp) (by simp), h⟩
  | false =>
    obtain ⟨u, hu⟩ := h.exists_rxbEffect d
    exact ⟨_, hu.exec_eq hf, (hu.inv h).respond rfl⟩

theorem State.Inv.offer {d : Desc} (hext : s.owner? d.bin.toNat d.slot.toNat = some .ext) : (s.offer d).Inv := by
  refine (h.give hext).congr rfl rfl rfl rfl rfl rfl rfl rfl ?_
  show s.env.afterVerdict.cmd.length = s.env.cmd.length
  unfold Env.afterVerdict
  split <;> rfl

theorem State.Inv.endsInInv_execSubmit (d : Desc) : EndsInInv (execSubmit d s) := by
  apply h.endsInInv_unlessHalted
  split
  · next hvalid =>
    obtain ⟨-, -, hext, -⟩ := State.validExt_iff.1 hvalid
    split
    · split
      · exact (h.offer hext).endsInInv_respond ..
      · exact State.Inv.endsInInv_respond (State.Inv.congr (t := (s.offer d).raiseDrvFail) (h.offer hext) rfl rfl rfl rfl rfl rfl rfl rfl rfl) ..
    · exact State.Inv.endsInInv_respond (State.Inv.congr (t := s.dropSubmit d) (h.give hext) rfl rfl rfl rfl rfl rfl rfl rfl rfl) ..
  · exact h.endsInInv_raiseFatal (.inr rfl) d

/-- An operation that changes only what no invariant looks at, then answers. -/
theorem State.Inv.endsInInv_respond_of_congr {u : State}
    (hu : u = { s with ready := u.ready, started := u.started, tickCnt := u.tickCnt, out := u.out, flags := u.flags }) (st : Status)
    (aux : Byte) (data : Quad) : EndsInInv (u.respond st aux data) := by
  refine State.Inv.endsInInv_respond ?_ ..
  rw [hu]
  exact h.congr rfl rfl rfl rfl rfl rfl rfl rfl rfl

theorem State.Inv.endsInInv_execTick : EndsInInv (execTick s) := by
  apply h.endsInInv_unlessHalted
  split
  · exact h.endsInInv_respond_of_congr rfl ..
  · exact h.endsInInv_respond ..

/-- Every operation answers a next state with the invariants. -/
theorem State.Inv.endsInInv_exec (i : Instr) : EndsInInv (exec i s) := by
  cases i with
  | nop => exact h.endsInInv_unlessHalted (h.endsInInv_respond ..)
  | alloc size => exact h.endsInInv_execAlloc size
  | release d => exact h.endsInInv_execRelease d
  | bufwr data off d => exact h.endsInInv_execBufwr data off d
  | bufrd off d => exact h.endsInInv_execBufrd off d
  | enq prio d => exact h.endsInInv_execEnq prio d
  | deq => exact h.endsInInv_execDeq
  | frame d => exact h.endsInInv_execFrame d
  | rxb d => exact h.endsInInv_exec_rxb d
  | submit d => exact h.endsInInv_execSubmit d
  | trdy => exact h.endsInInv_unlessHalted (h.endsInInv_respond_of_congr rfl ..)
  | start => exact h.endsInInv_unlessHalted (h.endsInInv_respond_of_congr rfl ..)
  | tick => exact h.endsInInv_execTick
  | rdcsr csr =>
    obtain ⟨st, v, hexec⟩ := exists_exec_rdcsr_eq csr s
    exact ⟨_, hexec, h.respond rfl⟩
  | clrsts => exact h.endsInInv_unlessHalted (h.endsInInv_respond_of_congr rfl ..)
  | rst =>
    obtain ⟨-, -, -, -, -, hports⟩ := h
    exact (State.inv_resetBlock hports).endsInInv_respond ..

/-- A grant changes nothing the invariants look at. -/
theorem State.Inv.of_grant {s' : State} {p : Port} (hgrant : s.grant = some (p, s')) : s'.Inv := by
  obtain ⟨-, -, n, rfl⟩ := State.grant_eq_some hgrant
  exact h.congr rfl rfl rfl rfl rfl rfl rfl rfl (by simp)

/-- Every step answers a next state with the invariants. -/
theorem State.Inv.endsInInv_step : EndsInInv (step s) := by
  cases hgrant : s.grant with
  | none => exact ⟨s, step_of_noGrant hgrant, h⟩
  | some granted =>
    obtain ⟨p, s'⟩ := granted
    have h' := h.of_grant hgrant
    obtain ⟨-, henabled, -⟩ := State.grant_eq_some hgrant
    obtain ⟨o, hop, -⟩ := State.headOp_of_enabledPort henabled
    cases o with
    | ok i => exact step_of_operation hgrant hop ▸ h'.endsInInv_exec i
    | error e => exact step_of_illegal hgrant hop ▸ h'.endsInInv_unlessHalted (h'.endsInInv_respond ..)

end

end Sys2Proof.Machine

open Sys2Proof Sys2Proof.Machine

/-- Settles O56: the step's next state is the one that has the invariants. -/
theorem stepKeepsInvariants : Obligations.StepKeepsInvariants := by
  intro s t h hstep
  obtain ⟨t', hstep', h'⟩ := h.endsInInv_step
  rw [hstep] at hstep'
  cases hstep'
  exact h'

/-- Settles O57, as O56: a state with the invariants meets no fault. -/
theorem stepNeverStops : Obligations.StepNeverStops := fun _ h =>
  let ⟨t, hstep, _⟩ := h.endsInInv_step
  ⟨t, hstep⟩

end

section
/-! PROOF. Whole receptions: every frame in reception ends within a bounded number of bytes (R189, R190 (b)), and the bytes of a payload's frame
dispatch that payload (R167, R190 (a)). -/

namespace Sys2Proof.Machine

/-! ## Bytes received one after another -/

/-- `Reception s l t`: the block, running, receives the bytes `l` from `s` on, each with its effect and its response, and ends in `t`. -/
inductive Reception : State → List Byte → State → Prop
  | nil (s : State) : Reception s [] s
  | cons {s u t : State} {d : Byte} {l : List Byte} (hrun : s.fatal = false) (hu : RxbEffect d s u)
      (h : Reception (u.complete .ok 0 0) l t) : Reception s (d :: l) t

/-- A reception is the run of the `RXB`s of its bytes (R112). -/
theorem Reception.runOps_eq {s t : State} {l : List Byte} (h : Reception s l t) : runOps (rxs l) s = .next t := by
  induction h with
  | nil s => rfl
  | @cons s u t d l hrun hu _ ih =>
    have henabled : s.enabledOp (.ok (.rxb d)) = true := by rw [State.enabledOp_ok_iff]; simp [hrun]
    have hcons : rxs (d :: l) = .rxb d :: rxs l := rfl
    rw [hcons, runOps_cons henabled (hu.exec_eq hrun), ih]

theorem Reception.append {s u t : State} {l m : List Byte} (h : Reception s l u) (h' : Reception u m t) : Reception s (l ++ m) t := by
  induction h with
  | nil => exact h'
  | cons hrun hu _ ih => exact .cons hrun hu (ih h')

/-! ## How many bytes a frame in reception can still take (R189) -/

/-- A bound on the bytes that end the frame in reception: the length field, then a payload of any length, then the checksum. -/
def Deframer.remaining (c : Cfg) (r : Deframer) : Nat :=
  match r.st with
  | .readingLength => c.lenW - r.cnt + c.maxPayload + c.chkW
  | .readingPayload => r.len - r.cnt + c.chkW
  | .readingChecksum => c.chkW - r.cnt
  | .seekingSync | .dispatchReady => 0

section
variable {c : Cfg} {r : Deframer}

theorem Deframer.remaining_length (h : r.st = .readingLength) : r.remaining c = c.lenW - r.cnt + c.maxPayload + c.chkW := by
  simp only [Deframer.remaining, h]

theorem Deframer.remaining_payload (h : r.st = .readingPayload) : r.remaining c = r.len - r.cnt + c.chkW := by
  simp only [Deframer.remaining, h]

theorem Deframer.remaining_checksum (h : r.st = .readingChecksum) : r.remaining c = c.chkW - r.cnt := by
  simp only [Deframer.remaining, h]

/-- Once the length is known, the payload and the checksum are to come (R179). -/
theorem Deframer.remaining_accept (b sl len : Nat) : (r.accept b sl len).remaining c = len + c.chkW := by
  by_cases hlen : len = 0
  · rw [Deframer.remaining_checksum (if_pos hlen), hlen]
    exact (Nat.zero_add _).symm
  · exact Deframer.remaining_payload (if_neg hlen)

end

theorem State.Inv.remaining_le {s : State} (h : s.Inv) : s.rx.remaining s.conf ≤ s.conf.lenW + s.conf.maxPayload + s.conf.chkW := by
  obtain ⟨-, -, ⟨-, hlen, -⟩, -⟩ := h
  rw [Deframer.remaining]
  split <;> omega

/-- A frame in reception takes at least one more byte. -/
theorem State.Inv.remaining_pos {s : State} (h : s.Inv) (hst : s.rx.st ≠ .seekingSync) : 0 < s.rx.remaining s.conf := by
  obtain ⟨-, -, ⟨hready, -, -, -, -, hchecksum, -⟩, -⟩ := h
  have hchkW : 1 ≤ s.conf.chkW := by
    obtain ⟨-, -, -, -, hchkW, -⟩ := Cfg.codec_widths s.cfg.property
    exact hchkW
  cases hst' : s.rx.st with
  | seekingSync => exact absurd hst' hst
  | readingLength => rw [Deframer.remaining_length hst']; omega
  | readingPayload => rw [Deframer.remaining_payload hst']; omega
  | readingChecksum =>
    obtain ⟨hcnt, -⟩ := hchecksum hst'
    rw [Deframer.remaining_checksum hst']
    omega
  | dispatchReady => exact absurd hst' hready

/-- From `s` to `u` the frame has ended, or it goes on with fewer bytes to come. -/
def State.Advances (s u : State) : Prop :=
  u.rx = Deframer.fresh ∨ (u.rx.st ≠ .seekingSync ∧ u.rx.remaining s.conf < s.rx.remaining s.conf)

theorem State.rxLength_advances {s : State} (hst : s.rx.st = .readingLength) (hcnt : s.rx.cnt < s.conf.lenW) (d : Byte) :
    s.Advances (s.rxLength d) := by
  have hs := Deframer.remaining_length (c := s.conf) hst
  by_cases hlast : s.rx.cnt + 1 = s.conf.lenW
  · rw [State.rxLength_of_last d hlast]
    by_cases hlong : (s.withLengthByte d).conf.maxPayload < (s.withLengthByte d).conf.dec (s.withLengthByte d).lengthBytes
    · exact .inl (by rw [State.rxLengthDone_of_tooLong hlong]; rfl)
    · have hvalid := Nat.le_of_not_gt hlong
      cases htake : (s.withLengthByte d).poolTake ((s.withLengthByte d).conf.dec (s.withLengthByte d).lengthBytes) with
      | none => exact .inl (by rw [State.rxLengthDone_of_noBuffer hvalid htake]; rfl)
      | some taken =>
        obtain ⟨b, sl, s'⟩ := taken
        rw [State.rxLengthDone_of_buffer hvalid htake]
        have hvalid' : (s.withLengthByte d).conf.dec (s.withLengthByte d).lengthBytes ≤ s.conf.maxPayload := hvalid
        refine .inr ⟨?_, ?_⟩
        · simp only [Deframer.accept]
          split <;> simp
        · simp only [Deframer.remaining_accept]
          omega
  · have hu : (s.withLengthByte d).rx.remaining s.conf = s.conf.lenW - (s.rx.cnt + 1) + s.conf.maxPayload + s.conf.chkW :=
      Deframer.remaining_length hst
    rw [State.rxLength_of_more d hlast]
    exact .inr ⟨by simp [State.withLengthByte, hst], by omega⟩

theorem State.rxPayload_advances {s : State} (hst : s.rx.st = .readingPayload) (hcnt : s.rx.cnt < s.rx.len) (b sl : Nat) (d : Byte) :
    s.Advances (s.rxPayload b sl d) := by
  have hs := Deframer.remaining_payload (c := s.conf) hst
  rw [State.rxPayload_eq]
  refine .inr ?_
  simp only [Deframer.afterPayloadByte]
  split
  · refine ⟨by simp, ?_⟩
    rw [Deframer.remaining_checksum rfl]
    simp only
    omega
  · have hu : Deframer.remaining s.conf { s.rx with cnt := s.rx.cnt + 1 } = s.rx.len - (s.rx.cnt + 1) + s.conf.chkW :=
      Deframer.remaining_payload hst
    exact ⟨by simp [hst], hu.trans_lt (by omega)⟩

theorem State.rxChecksum_advances {s : State} (hst : s.rx.st = .readingChecksum) (hcnt : s.rx.cnt < s.conf.chkW) (b sl : Nat)
    (d : Byte) : s.Advances (s.rxChecksum b sl d) := by
  have hs := Deframer.remaining_checksum (c := s.conf) hst
  by_cases hlast : s.rx.cnt + 1 = s.conf.chkW
  · rw [State.rxChecksum_of_last b sl d hlast, State.rxChecksumDone]
    split <;> exact .inl rfl
  · have hu : (s.withChecksumByte d).rx.remaining s.conf = s.conf.chkW - (s.rx.cnt + 1) := Deframer.remaining_checksum hst
    rw [State.rxChecksum_of_more b sl d hlast]
    exact .inr ⟨by simp [State.withChecksumByte, hst], by omega⟩

/-- Each byte of a frame in reception ends it or leaves fewer to come (R190 (b)). -/
theorem RxbEffect.advances {d : Byte} {s u : State} (hu : RxbEffect d s u) (h : s.Inv) (hst : s.rx.st ≠ .seekingSync) : s.Advances u := by
  obtain ⟨-, -, ⟨-, -, -, hlength, hpayload, hchecksum, -⟩, -⟩ := h
  cases hu with
  | seek hst' => exact absurd hst' hst
  | length hst' =>
    obtain ⟨hcnt, -⟩ := hlength hst'
    exact State.rxLength_advances hst' hcnt d
  | payload hst' =>
    obtain ⟨hcnt, -⟩ := hpayload hst'
    exact State.rxPayload_advances hst' hcnt _ _ d
  | checksum hst' =>
    obtain ⟨hcnt, -⟩ := hchecksum hst'
    exact State.rxChecksum_advances hst' hcnt _ _ d

/-- A frame in reception ends within the bytes it can still take, whatever they are. -/
theorem State.Inv.exists_reception_end {bytes : List Byte} : ∀ {s : State}, s.Inv → s.fatal = false → s.rx.st ≠ .seekingSync →
    s.rx.remaining s.conf ≤ bytes.length →
    ∃ n t, n ≤ s.rx.remaining s.conf ∧ Reception s (bytes.take n) t ∧ t.rx = Deframer.fresh := by
  induction bytes with
  | nil =>
    intro s h _ hst hbytes
    have hpos := h.remaining_pos hst
    simp at hbytes
    omega
  | cons d bytes ih =>
    intro s h hrun hst hbytes
    obtain ⟨u, hu⟩ := h.exists_rxbEffect d
    have hinv : (u.complete .ok 0 0).Inv := (hu.inv h).respond rfl
    obtain hend | ⟨hst', hless⟩ := hu.advances h hst
    · exact ⟨1, _, h.remaining_pos hst, .cons hrun hu (.nil _), hend⟩
    · have hconf : (u.complete .ok 0 0).conf = s.conf := congrArg (·.conf) hu.frame
      have hless' : (u.complete .ok 0 0).rx.remaining (u.complete .ok 0 0).conf < s.rx.remaining s.conf := hconf ▸ hless
      obtain ⟨n, t, hn, hrec, hend⟩ := ih hinv (hu.fatal_eq.trans hrun) hst' (by simp at hbytes; omega)
      exact ⟨n + 1, t, by omega, .cons hrun hu hrec, hend⟩

/-! ## The bytes of a frame, field by field (R100) -/

/-- From `s` to `t` nothing was dispatched. -/
def State.QuietTo (s t : State) : Prop := ∃ evs, t.out = s.out ++ evs ∧ dispatched evs = []

theorem State.QuietTo.trans {s t u : State} (h : s.QuietTo t) (h' : t.QuietTo u) : s.QuietTo u := by
  obtain ⟨evs, hout, hnone⟩ := h
  obtain ⟨evs', hout', hnone'⟩ := h'
  exact ⟨evs ++ evs', by rw [hout', hout, List.append_assoc], by rw [dispatched_append, hnone, hnone']; rfl⟩

/-- An effect that emits nothing, and its response. -/
theorem State.quietTo_complete {s u : State} (h : u.out = s.out) (st : Status) (aux : Byte) (data : Quad) :
    s.QuietTo (u.complete st aux data) :=
  ⟨responseEvents u.env.active st aux data, by rw [State.complete_out, h], dispatched_responseEvents ..⟩

/-- The rest of a list from the position of its first byte. -/
theorem getElem?_and_drop_of_drop_eq_cons {α : Type} {l r : List α} {n : Nat} {x : α} (h : l.drop n = x :: r) :
    l[n]? = some x ∧ l.drop (n + 1) = r := by
  refine ⟨?_, ?_⟩
  · rw [← Nat.add_zero n, ← List.getElem?_drop, h, List.getElem?_cons_zero]
  · rw [← List.drop_drop, h, List.drop_one, List.tail_cons]

/-- A sync byte that is not the last is collected, as a length byte is (R173, R175). -/
theorem State.rxSeek_of_more {s : State} {d : Byte} (h : s.conf.sync[s.rx.cnt]? = some d) (hmore : s.rx.cnt + 1 ≠ s.conf.sync.length) :
    s.rxSeek d = s.withLengthByte d := by
  rw [State.rxSeek_of_match h, if_neg hmore]
  rfl

/-- The rest of the sync pattern leads to `READING_LENGTH` (R173). -/
theorem exists_reception_sync {m : List Byte} : ∀ {s : State}, s.fatal = false → s.rx.st = .seekingSync →
    s.conf.sync.drop s.rx.cnt = m → m ≠ [] →
    ∃ t, Reception s m t ∧ s.QuietTo t ∧
      t = { s with rx := { s.rx with st := .readingLength, cnt := 0, scr := s.rx.scr ++ m }, out := t.out, env := t.env } := by
  induction m with
  | nil => intro s _ _ _ hne; exact absurd rfl hne
  | cons d m ih =>
    intro s hrun hst hdrop _
    obtain ⟨hd, hrest⟩ := getElem?_and_drop_of_drop_eq_cons hdrop
    have hu : RxbEffect d s (s.rxSeek d) := .seek hst
    by_cases hlast : s.rx.cnt + 1 = s.conf.sync.length
    · obtain rfl : m = [] := by rw [← hrest, hlast, List.drop_length]
      rw [State.rxSeek_of_match hd, if_pos hlast] at hu
      exact ⟨_, .cons hrun hu (.nil _), State.quietTo_complete rfl .., rfl⟩
    · rw [State.rxSeek_of_more hd hlast] at hu
      have hne : m ≠ [] := by
        obtain ⟨hlt, -⟩ := List.getElem?_eq_some_iff.1 hd
        rw [← hrest, ne_eq, List.drop_eq_nil_iff]
        omega
      obtain ⟨t, hrec, hquiet, ht⟩ := ih (s := (s.withLengthByte d).complete .ok 0 0) hrun hst hrest hne
      refine ⟨t, .cons hrun hu hrec, (State.quietTo_complete rfl ..).trans hquiet, ?_⟩
      rw [List.append_cons]
      exact ht

/-- The length field of a length for which there is a buffer: the Deframer holds it (R175, R179). -/
theorem exists_reception_length {lb : List Byte} {len b sl : Nat} {rest : List Nat} : ∀ {s : State}, s.fatal = false →
    s.rx.st = .readingLength → s.rx.cnt + lb.length = s.conf.lenW → lb ≠ [] →
    s.conf.dec (((s.rx.scr ++ lb).drop s.conf.sync.length).take s.conf.lenW) = len → len ≤ s.conf.maxPayload →
    s.conf.bestBin len = some b → s.freeList b = sl :: rest →
    ∃ t, Reception s lb t ∧ s.QuietTo t ∧
      t = { (s.takeSlot b sl rest).setOwner b sl .rxd with
        rx := { s.rx with scr := s.rx.scr ++ lb }.accept b sl len, out := t.out, env := t.env } := by
  induction lb with
  | nil => intro s _ _ _ hne; exact absurd rfl hne
  | cons d lb ih =>
    intro s hrun hst hcnt _ hdec hvalid hbest hfree
    have hu : RxbEffect d s (s.rxLength d) := .length hst
    rw [List.length_cons] at hcnt
    rw [List.append_cons] at hdec
    cases lb with
    | nil =>
      have hdec' : (s.withLengthByte d).conf.dec (s.withLengthByte d).lengthBytes = len := by
        rw [List.append_nil] at hdec
        exact hdec
      have htake : (s.withLengthByte d).poolTake len = some (b, sl, (s.withLengthByte d).takeSlot b sl rest) :=
        State.poolTake_eq_some.2 ⟨hbest, rest, hfree, rfl⟩
      rw [State.rxLength_of_last d (by simpa using hcnt),
        State.rxLengthDone_of_buffer (hdec'.symm ▸ hvalid) (hdec'.symm ▸ htake), hdec'] at hu
      exact ⟨_, .cons hrun hu (.nil _), State.quietTo_complete rfl .., rfl⟩
    | cons d' lb =>
      have hcnt' : s.rx.cnt + 1 + (d' :: lb).length = s.conf.lenW := by omega
      rw [State.rxLength_of_more d (by simp at hcnt; omega)] at hu
      obtain ⟨t, hrec, hquiet, ht⟩ := ih (s := (s.withLengthByte d).complete .ok 0 0) hrun hst hcnt' (by simp) hdec hvalid hbest hfree
      refine ⟨t, .cons hrun hu hrec, (State.quietTo_complete rfl ..).trans hquiet, ?_⟩
      rw [List.append_cons]
      exact ht

/-- The next offset of a slot has the next key. -/
theorem slotKey_succ (b sl o : Nat) : slotKey b sl (o + 1) = slotKey b sl o + 1 := (Nat.add_assoc ..).symm

/-- The payload is stored in the buffer from the count up (R180). -/
theorem exists_reception_payload {P : List Byte} {b sl : Nat} : ∀ {s : State}, s.fatal = false → s.rx.st = .readingPayload →
    s.rx.buf = some (b, sl) → s.rx.cnt + P.length = s.rx.len → P ≠ [] → s.rx.len ≤ s.conf.binSize b →
    ∃ t, Reception s P t ∧ s.QuietTo t ∧
      t = { s with
        mem := Memory.writeList s.mem (slotKey b sl s.rx.cnt) P, rx := { s.rx with st := .readingChecksum, cnt := 0 }
        out := t.out, env := t.env } := by
  induction P with
  | nil => intro s _ _ _ _ hne; exact absurd rfl hne
  | cons d P ih =>
    intro s hrun hst hbuf hcnt _ hfits
    rw [List.length_cons] at hcnt
    have hu : RxbEffect d s (s.rxPayload b sl d) := .payload hst hbuf (by omega)
    rw [State.rxPayload_eq, Deframer.afterPayloadByte] at hu
    cases P with
    | nil =>
      rw [if_pos (by simpa using hcnt)] at hu
      exact ⟨_, .cons hrun hu (.nil _), State.quietTo_complete rfl .., rfl⟩
    | cons d' P =>
      have hcnt' : s.rx.cnt + 1 + (d' :: P).length = s.rx.len := by omega
      rw [if_neg (by simp at hcnt; omega)] at hu
      obtain ⟨t, hrec, hquiet, ht⟩ := ih
        (s := ({ s.writeByte b sl s.rx.cnt d with rx := { s.rx with cnt := s.rx.cnt + 1 } } : State).complete .ok 0 0) hrun hst hbuf
        hcnt' (by simp) hfits
      refine ⟨t, .cons hrun hu hrec, (State.quietTo_complete rfl ..).trans hquiet, ?_⟩
      rw [Memory.writeList, ← slotKey_succ]
      exact ht

/-- The checksum of the payload in the buffer: the payload is dispatched, its slot an external agent's (R181, R183). -/
theorem exists_reception_checksum {C P : List Byte} {b sl : Nat} : ∀ {s : State}, s.fatal = false → s.rx.st = .readingChecksum →
    s.rx.buf = some (b, sl) → s.rx.cnt + C.length = s.conf.chkW → C ≠ [] → P.length = s.rx.len →
    (∀ i < s.rx.len, s.slotByte? b sl i = P[i]?) →
    s.conf.chk (s.lengthBytes ++ P) = s.rx.chk ++ C →
    ∃ t evs, Reception s C t ∧ t.out = s.out ++ evs ∧ dispatched evs = [P] ∧ .dispatch (mkDesc b sl s.rx.len) P ∈ evs ∧
      t = { s with pool := (s.setOwner b sl .ext).pool, rx := Deframer.fresh, out := t.out, env := t.env } := by
  induction C with
  | nil => intro s _ _ _ _ hne; exact absurd rfl hne
  | cons d C ih =>
    intro s hrun hst hbuf hcnt _ hlen hstored hchk
    rw [List.length_cons] at hcnt
    rw [List.append_cons] at hchk
    have hu : RxbEffect d s (s.rxChecksum b sl d) := .checksum hst hbuf
    cases C with
    | nil =>
      have hP : (s.withChecksumByte d).readBytes b sl s.rx.len = P := State.readBytes_of_stored hlen hstored
      rw [List.append_nil] at hchk
      rw [State.rxChecksum_of_last b sl d (by simpa using hcnt), State.rxChecksumDone_of_match (s := s.withChecksumByte d) hP hchk] at hu
      refine ⟨_, [.dispatch (mkDesc b sl s.rx.len) P] ++ responseEvents s.env.active .ok 0 0, .cons hrun hu (.nil _), ?_, ?_, ?_, rfl⟩
      · exact List.append_assoc ..
      · simp [dispatched]
      · simp
    | cons d' C =>
      have hcnt' : s.rx.cnt + 1 + (d' :: C).length = s.conf.chkW := by omega
      rw [State.rxChecksum_of_more b sl d (by simp at hcnt; omega)] at hu
      obtain ⟨t, evs, hrec, hout, hdispatched, hmem, ht⟩ := ih (s := (s.withChecksumByte d).complete .ok 0 0) hrun hst hbuf
        hcnt' (by simp) hlen hstored hchk
      refine ⟨t, responseEvents s.env.active .ok 0 0 ++ evs, .cons hrun hu hrec, ?_, ?_, List.mem_append_right _ hmem, ht⟩
      · rw [hout, ← List.append_assoc]
        rfl
      · rw [dispatched_append, dispatched_responseEvents, hdispatched]
        rfl

/-- A whole payload, empty or not, from the state in which the buffer was taken (R175, R180). -/
theorem exists_reception_wholePayload {s : State} {P : List Byte} {b sl : Nat} (r : Deframer) (hrun : s.fatal = false)
    (hrx : s.rx = r.accept b sl P.length) (hfits : P.length ≤ s.conf.binSize b) :
    ∃ t, Reception s P t ∧ s.QuietTo t ∧
      t = { s.writeBytes b sl P with rx := { s.rx with st := .readingChecksum, cnt := 0 }, out := t.out, env := t.env } := by
  by_cases hP : P = []
  · subst hP
    have hsame : ({ s.rx with st := .readingChecksum, cnt := 0 } : Deframer) = s.rx := by rw [hrx]; rfl
    refine ⟨s, .nil s, ⟨[], (List.append_nil _).symm, rfl⟩, ?_⟩
    rw [hsame]
    rfl
  · have hlen : P.length ≠ 0 := by simpa using hP
    have hst : s.rx.st = .readingPayload := by rw [hrx]; exact if_neg hlen
    have hcnt : s.rx.cnt = 0 := by rw [hrx]; rfl
    have hlen' : s.rx.len = P.length := by rw [hrx]; rfl
    obtain ⟨t, hrec, hquiet, ht⟩ :=
      exists_reception_payload hrun hst (by rw [hrx]; rfl) (by rw [hcnt, hlen', Nat.zero_add]) hP (by rwa [hlen'])
    rw [hcnt] at ht
    exact ⟨t, hrec, hquiet, ht⟩

/-- The sync pattern and the length field of a payload for which there is a buffer (R173, R175, R179). -/
theorem exists_reception_header {s : State} {len b sl : Nat} {rest : List Nat} (hrun : s.fatal = false) (hst : s.rx.st = .seekingSync)
    (hcnt : s.rx.cnt = 0) (hscr : s.rx.scr = []) (hvalid : len ≤ s.conf.maxPayload) (hbest : s.conf.bestBin len = some b)
    (hfree : s.freeList b = sl :: rest) :
    ∃ t, Reception s (s.conf.sync ++ s.conf.enc len s.conf.lenW) t ∧ s.QuietTo t ∧
      t = { (s.takeSlot b sl rest).setOwner b sl .rxd with
        rx := { s.rx with scr := s.conf.sync ++ s.conf.enc len s.conf.lenW }.accept b sl len, out := t.out, env := t.env } := by
  obtain ⟨hsync, -, hlenW, -⟩ := Cfg.codec_widths s.cfg.property
  obtain ⟨hmax, -⟩ := Cfg.max_payload s.cfg.property
  have hlb : (s.conf.enc len s.conf.lenW).length = s.conf.lenW := Cfg.length_enc ..
  have hdec : s.conf.dec (((s.conf.sync ++ s.conf.enc len s.conf.lenW).drop s.conf.sync.length).take s.conf.lenW) = len := by
    rw [List.drop_left, List.take_of_length_le hlb.le, Cfg.dec_enc (lt_of_le_of_lt hvalid hmax)]
  obtain ⟨t, hrec, hquiet, ht⟩ :=
    exists_reception_sync hrun hst (m := s.conf.sync) (by rw [hcnt, List.drop_zero]) (List.ne_nil_of_length_pos hsync)
  rw [hscr, List.nil_append] at ht
  generalize t.out = out, t.env = env at ht
  subst ht
  obtain ⟨t', hrec', hquiet', ht'⟩ := exists_reception_length
    (s := { s with rx := { s.rx with st := .readingLength, cnt := 0, scr := s.conf.sync }, out := out, env := env })
    hrun rfl ((Nat.zero_add _).trans hlb) (List.ne_nil_of_length_pos (lt_of_lt_of_eq hlenW hlb.symm)) hdec hvalid hbest hfree
  exact ⟨t', hrec.append hrec', hquiet.trans hquiet', ht'⟩

/-- The payload and its checksum, from the state in which the buffer was taken (R180 to R183). -/
theorem exists_reception_body {s : State} {P : List Byte} {b sl : Nat} (r : Deframer) (hrun : s.fatal = false)
    (hrx : s.rx = r.accept b sl P.length) (hchk : r.chk = []) (hfits : P.length ≤ s.conf.binSize b) (hsl : sl < 256)
    (hown : s.owner? b sl ≠ none) :
    ∃ t evs, Reception s (P ++ s.conf.chk (s.lengthBytes ++ P)) t ∧ t.out = s.out ++ evs ∧ dispatched evs = [P] ∧
      .dispatch (mkDesc b sl P.length) P ∈ evs ∧ t.owner? b sl = some .ext ∧ t.rx = Deframer.fresh ∧ t.flags = s.flags := by
  obtain ⟨-, -, -, -, hchkW, -⟩ := Cfg.codec_widths s.cfg.property
  have hsize : P.length < 65536 := hfits.trans_lt (Cfg.binSize_lt s.cfg.property b)
  have hC : (s.conf.chk (s.lengthBytes ++ P)).length = s.conf.chkW := Cfg.length_chk ..
  have hlen : s.rx.len = P.length := by rw [hrx]; rfl
  have hbuf : s.rx.buf = some (b, sl) := by rw [hrx]; rfl
  have hchk' : s.rx.chk = [] := by rw [hrx]; exact hchk
  have hstored (i : Nat) (hi : i < s.rx.len) : (s.writeBytes b sl P).slotByte? b sl i = P[i]? := by
    rw [hlen] at hi
    rw [State.slotByte?_writeBytes s hsl hsize hsl (hi.trans hsize), if_pos ⟨rfl, rfl, hi⟩]
  obtain ⟨t, hrec, ⟨evs, hout, hnone⟩, ht⟩ := exists_reception_wholePayload r hrun hrx hfits
  generalize t.out = out, t.env = env at ht hout
  subst ht
  obtain ⟨t', evs', hrec', hout', hdispatched, hmem, ht'⟩ := exists_reception_checksum (C := s.conf.chk (s.lengthBytes ++ P))
    (s := { s.writeBytes b sl P with rx := { s.rx with st := .readingChecksum, cnt := 0 }, out := out, env := env })
    hrun rfl hbuf ((Nat.zero_add _).trans hC) (List.ne_nil_of_length_pos (lt_of_lt_of_eq hchkW hC.symm)) hlen.symm hstored
    (by rw [hchk', List.nil_append]; rfl)
  refine ⟨t', evs ++ evs', hrec.append hrec', ?_, ?_, ?_, ?_, congrArg (·.rx) ht', congrArg (·.flags) ht'⟩
  · rw [hout', hout, List.append_assoc]
  · rw [dispatched_append, hnone, hdispatched]
    rfl
  · exact List.mem_append_right _ (hlen ▸ hmem)
  · have hpool : t'.pool = (s.setOwner b sl .ext).pool := congrArg (·.pool) ht'
    rw [State.owner?_congr hpool, State.owner?_setOwner .ext hown, if_pos ⟨rfl, rfl⟩]

/-- The frame of a payload, received from the first sync byte on while the pool has a slot for the payload, dispatches it (R190 (a)). -/
theorem exists_reception_frameOf {s : State} {P : List Byte} {b sl : Nat} {rest : List Nat} (hpool : s.PoolInv) (hrun : s.fatal = false)
    (hst : s.rx.st = .seekingSync) (hcnt : s.rx.cnt = 0) (hscr : s.rx.scr = []) (hchk : s.rx.chk = [])
    (hvalid : P.length ≤ s.conf.maxPayload) (hbest : s.conf.bestBin P.length = some b) (hfree : s.freeList b = sl :: rest) :
    ∃ t evs, Reception s (s.conf.frameOf P) t ∧ t.out = s.out ++ evs ∧ dispatched evs = [P] ∧
      .dispatch (mkDesc b sl P.length) P ∈ evs ∧ t.owner? b sl = some .ext ∧ t.rx = Deframer.fresh ∧ t.flags = s.flags := by
  obtain ⟨-, -, hsl, -⟩ := hpool.head hfree
  obtain ⟨-, hfits⟩ := Cfg.le_binSize_of_bestBin hbest
  obtain ⟨hrxd, -⟩ := State.takeSlot_setOwner_spec hpool hfree .rxd
  have hlb : (s.conf.enc P.length s.conf.lenW).length = s.conf.lenW := Cfg.length_enc ..
  obtain ⟨t, hrec, ⟨evs, hout, hnone⟩, ht⟩ := exists_reception_header hrun hst hcnt hscr hvalid hbest hfree
  have hconf : t.conf = s.conf := congrArg (·.conf) ht
  have hrx := congrArg (·.rx) ht
  have hlengthBytes : t.lengthBytes = s.conf.enc P.length s.conf.lenW := by
    rw [State.lengthBytes, hconf, hrx]
    simp only [Deframer.accept, List.drop_left]
    exact List.take_of_length_le hlb.le
  have hown : t.owner? b sl = some .rxd :=
    (State.owner?_congr (s := (s.takeSlot b sl rest).setOwner b sl .rxd) (congrArg (·.pool) ht) b sl).trans hrxd
  obtain ⟨t', evs', hrec', hout', hdispatched, hmem, hext, hfresh, hflags⟩ := exists_reception_body _
    ((congrArg (·.fatal) ht).trans hrun) hrx hchk (hconf ▸ hfits) hsl (by simp [hown])
  rw [hconf, hlengthBytes] at hrec'
  refine ⟨t', evs ++ evs', ?_, ?_, ?_, List.mem_append_right _ hmem, hext, hfresh, hflags.trans (congrArg (·.flags) ht)⟩
  · rw [Cfg.frameOf, List.append_assoc]
    exact hrec.append hrec'
  · rw [hout', hout, List.append_assoc]
  · rw [dispatched_append, hnone, hdispatched]
    rfl

end Sys2Proof.Machine

open Sys2Proof Sys2Proof.Machine

/-- Settles O59: the Deframer has matched and collected nothing, so the frame of the payload is received field by field. -/
theorem deframeInvertsFrame : Obligations.DeframeInvertsFrame := by
  intro s P b sl rest k h hrun hst hcnt hvalid hk hfits hfirst hfree
  obtain ⟨hpool, -, ⟨-, -, hseek, -⟩, -⟩ := h
  obtain ⟨-, hscr, -, -, hchk⟩ := hseek hst
  rw [hcnt, List.take_zero] at hscr
  have hbest : s.conf.bestBin P.length = some b := Cfg.bestBin_eq_some.2 ⟨k, hk, hfits, hfirst⟩
  obtain ⟨t, evs, hrec, hout, hdispatched, hmem, hext, hrx, hflags⟩ :=
    exists_reception_frameOf hpool hrun hst hcnt hscr hchk hvalid hbest hfree
  have hrest : t.out.drop s.out.length = evs := by rw [hout, List.drop_left]
  have hruns : runOps (rxs (s.conf.frameOf P)) s = .next t := hrec.runOps_eq
  have hdeframe : deframe (s.conf.frameOf P) s = some [P] := by simp [deframe, hrun, hruns, hrest, hdispatched]
  exact ⟨t, hruns, hdeframe, hrest ▸ hmem, hext, by rw [hrx]; rfl, by rw [hrx]; rfl, hflags⟩

/-- Settles O60: the bytes that can still come are at most a whole length field, payload and checksum. -/
theorem receptionEndsInBoundedBytes : Obligations.ReceptionEndsInBoundedBytes := by
  intro s bytes h hrun hst hbytes
  have hbound := h.remaining_le
  obtain ⟨n, t, hn, hrec, hend⟩ := h.exists_reception_end hrun hst (hbound.trans hbytes)
  exact ⟨n, t, hn.trans hbound, hrec.runOps_eq, by rw [hend]; rfl, by rw [hend]; rfl⟩

end

section
/-! PROOF. Reset (70_reset_and_hazards.md): the values after power-on (R280), and what `RST` restores, keeps and discards (R238 to R241,
R283). -/

namespace Sys2Proof.Machine

/-! ## After power-on -/

/-- Every slot of a bin is `FREE` after power-on (R280). -/
theorem State.owner?_powerOn {c : WfCfg} {b sl : Nat} {k : BinCfg} (hk : c.val.bins[b]? = some k) (hsl : sl < k.count) :
    (State.powerOn c).owner? b sl = some .free := by
  rw [State.owner?_eq (State.pool_powerOn hk)]
  exact List.getElem?_replicate_of_lt hsl

/-! ## The ports after `RST` -/

/-- A held operation is one of a port of the block. -/
theorem State.mem_ports_of_heldPort {s : State} {p : Port} (h : s.heldPort p = true) : p ∈ s.ports := by
  refine State.mem_ports_of_headOp fun hnone => ?_
  simp [State.heldPort, hnone] at h

/-- `RST` itself is never held (R263). -/
theorem State.heldPort_rstIn (s : State) : s.heldPort .rstIn = false := by
  by_cases h : s.env.rst = 0 <;> simp [State.heldPort, State.headOp, h, State.enabledOp, State.enabledInstr]

/-- What `RST` does to the operations of one port: the outstanding one goes if it is the `RST` itself or is held (R283). -/
theorem State.resetEnv_proj {α : Type} (s : State) (p : Port) (f : Env → α) (g : α → α)
    (hf : ∀ e q, f (e.drop q) = if q = p then g (f e) else f e) :
    f (s.dropHeld s.env s.ports).retire = if s.env.active = p ∨ s.heldPort p = true then g (f s.env) else f s.env := by
  rw [Env.retire, hf, State.dropHeld_active, State.dropHeld_proj s p f g hf s.ports s.nodup_ports]
  by_cases hactive : s.env.active = p
  · simp [hactive]
  · by_cases hheld : s.heldPort p = true
    · simp [hactive, hheld, Ne.symm hactive, State.mem_ports_of_heldPort hheld]
    · simp [hactive, hheld]

end Sys2Proof.Machine

open Sys2Proof Sys2Proof.Machine

/-- Settles O15: the bins and the sub-queues are the fresh ones, the rest is written out in the power-on state. -/
theorem powerOnValues : Obligations.PowerOnValues := by
  refine fun c => ⟨fun b k hk => ⟨?_, ?_, fun sl hsl => State.owner?_powerOn hk hsl⟩, fun _ _ _ => rfl, fun q hq => ?_, rfl, rfl, rfl,
    rfl, rfl, rfl, rfl, rfl, rfl, rfl, rfl, rfl, rfl, rfl, rfl⟩
  · rw [State.freeList_eq (State.pool_powerOn hk), Bin.fresh]
  · rw [State.inUse_eq (State.pool_powerOn hk), Bin.fresh]
  · simp [State.powerOn, SubQueue.fresh, hq]

/-- Settles O18: the block is that of power-on but for `out`; the ports are told apart one by one. -/
theorem rstRestoresPowerOnState : Obligations.RstRestoresPowerOnState := by
  intro s
  have hactive : s.resetBlock.env.active = s.env.active := s.dropHeld_active s.ports s.env
  refine ⟨s.resetBlock.complete .ok 0 0, exec_rst s, ?_, fun k => ?_, ?_, ?_, ?_, ?_⟩
  · rw [State.complete, hactive]
    rfl
  · exact s.resetEnv_proj (.cmd k) (·.cmd[k]?) (Option.map List.tail) fun e q => e.getElem?_drop_cmd q k
  · exact s.resetEnv_proj .serRx (·.ser) List.tail Env.drop_ser
  · exact s.resetEnv_proj .trdyIn (·.trdy) (· - 1) Env.drop_trdy
  · exact s.resetEnv_proj .tickIn (·.tick) (· - 1) Env.drop_tick
  · have hproj := s.resetEnv_proj .rstIn (·.rst) (· - 1) Env.drop_rst
    rw [s.heldPort_rstIn] at hproj
    simp only [Bool.false_eq_true, or_false] at hproj
    exact hproj

end

section
/-! PROOF. Operations on buffers: `ALLOC`, `RELEASE`, `BUFRD` (40_pool.md), a `FRAME` that is built (42_framer.md) and a `SUBMIT` while ready
(44_transport.md), each with the frame around it. -/

namespace Sys2Proof.Machine

/-! ## `ALLOC`, `RELEASE` and `BUFRD` of a running block -/

section
variable {s : State} (hrun : s.fatal = false)
include hrun

/-- `ALLOC` with a slot to take gives it to an external agent and answers its descriptor (R122). -/
theorem exec_alloc_of_slot {size : Half} {b sl : Nat} {s' : State} (htake : s.poolTake size.toNat = some (b, sl, s')) :
    exec (.alloc size) s = .next ((s'.setOwner b sl .ext).complete .ok 0 (mkDesc b sl size.toNat).pack) := by
  have hexec : exec (.alloc size) s = execAlloc size s := rfl
  simp only [hexec, execAlloc, State.unlessHalted_of_running hrun, htake, State.respond]

/-- `ALLOC` without a slot only answers `E_POOL_EXHAUSTED` (R247). -/
theorem exec_alloc_of_noSlot {size : Half} (htake : s.poolTake size.toNat = none) :
    exec (.alloc size) s = .next (s.complete .poolExhausted 0 0) := by
  have hexec : exec (.alloc size) s = execAlloc size s := rfl
  simp only [hexec, execAlloc, State.unlessHalted_of_running hrun, htake, State.respond]

/-- `RELEASE` of a buffer an external agent owns gives its slot back (R126). -/
theorem exec_release_of_releasable {d : Desc} (hbin : d.bin.toNat < s.conf.bins.length)
    (hslot : d.slot.toNat < s.conf.binCount d.bin.toNat) (hext : s.owner? d.bin.toNat d.slot.toNat = some .ext) :
    exec (.release d) s = .next ((s.poolGive d.bin.toNat d.slot.toNat).complete .ok 0 0) := by
  have hexec : exec (.release d) s = execRelease d s := rfl
  rw [hexec, execRelease, State.unlessHalted_of_running hrun, if_pos (State.releasable_iff.2 ⟨hbin, hslot, hext⟩), State.respond]

/-- `BUFRD` that passes its test answers the byte read (R133). -/
theorem exec_bufrd_of_validAccess {off : Half} {d : Desc} (hacc : s.validAccess off d = true) :
    exec (.bufrd off d) s = .next (s.complete .ok (s.readByte d.bin.toNat d.slot.toNat off.toNat) 0) := by
  have hexec : exec (.bufrd off d) s = execBufrd off d s := rfl
  rw [hexec, execBufrd, State.unlessHalted_of_running hrun, if_pos hacc, State.respond]

end

/-! ## `FRAME` with a slot for the frame -/

/-- `FRAME` with a slot for the frame stores it there and answers its descriptor (R157). -/
theorem exec_frame_of_slot {s s' : State} {d : Desc} {b2 s2 : Nat} (hrun : s.fatal = false) (hvalid : s.validExt d = true)
    (hlen : d.len.toNat ≤ s.conf.maxPayload) (htake : s.poolTake (s.conf.frameSize d.len.toNat) = some (b2, s2, s')) :
    exec (.frame d) s = .next ((s'.storeFrame d b2 s2).complete .ok 0 (mkDesc b2 s2 (s.conf.frameSize d.len.toNat)).pack) := by
  have hexec : exec (.frame d) s = execFrame d s := rfl
  simp only [hexec, execFrame, State.unlessHalted_of_running hrun, if_pos hvalid, if_neg hlen.not_gt, htake, State.respond]

/-- The input slot of a `FRAME` and the slot taken for the frame are two: one is an external agent's, the other free. -/
theorem State.PoolInv.handle_ne_of_free {s : State} (hpool : s.PoolInv) {d : Desc} {b2 s2 : Nat} {rest : List Nat}
    (hext : s.owner? d.bin.toNat d.slot.toNat = some .ext) (hfree : s.freeList b2 = s2 :: rest) : d.handle ≠ (b2, s2) := by
  obtain ⟨hfreed, -⟩ := hpool.head hfree
  intro heq
  obtain ⟨hbin, hslot⟩ := Prod.mk.inj heq
  rw [hbin, hslot, hfreed] at hext
  cases hext

section
variable {s : State} (hpool : s.PoolInv) {d : Desc} (hvalid : s.validExt d = true) {b2 s2 : Nat} {rest : List Nat}
  (hfree : s.freeList b2 = s2 :: rest)
include hpool hvalid hfree

/-- The payload of the frame is what the input slot holds (R157). -/
theorem State.getElem?_payload_of_frame {i : Nat} {v : Byte} (hi : i < d.len.toNat)
    (hbyte : s.slotByte? d.bin.toNat d.slot.toNat i = some v) :
    ((s.takeSlot b2 s2 rest).readBytes d.bin.toNat d.slot.toNat d.len.toNat)[i]? = some v := by
  obtain ⟨-, -, hext, -⟩ := State.validExt_iff.1 hvalid
  obtain ⟨-, -, hs2, -⟩ := hpool.head hfree
  refine State.getElem?_readBytes hi ?_
  rw [State.slotByte?_takeSlot s rest hs2 (Cfg.binSize_lt s.cfg.property b2) d.slot.isLt (hi.trans d.len.isLt), if_neg, hbyte]
  rintro ⟨hbin, hslot, -⟩
  exact hpool.handle_ne_of_free hext hfree (Prod.ext hbin hslot)

omit hvalid in
/-- Slot memory with the frame stored: the frame from offset 0 of its slot, undefined beyond it, every other slot as before (R157, R28). -/
theorem State.slotByte?_storeFrame {frame : List Byte}
    (hframe : frame = s.conf.frameOf ((s.takeSlot b2 s2 rest).readBytes d.bin.toNat d.slot.toNat d.len.toNat))
    (hfits : frame.length ≤ s.conf.binSize b2) :
    (∀ o < s.conf.binSize b2, ((s.takeSlot b2 s2 rest).storeFrame d b2 s2).slotByte? b2 s2 o = frame[o]?) ∧
      ∀ b sl o, sl < 256 → o < 65536 → (b, sl) ≠ (b2, s2) →
        ((s.takeSlot b2 s2 rest).storeFrame d b2 s2).slotByte? b sl o = s.slotByte? b sl o := by
  obtain ⟨-, -, hs2, -⟩ := hpool.head hfree
  obtain ⟨-, -, -, -, -, hundefined, hothers⟩ := State.takeSlot_setOwner_spec hpool hfree .ext
  have hsize : s.conf.binSize b2 < 65536 := Cfg.binSize_lt s.cfg.property b2
  have hmem (b sl o : Nat) : ((s.takeSlot b2 s2 rest).storeFrame d b2 s2).slotByte? b sl o =
      (((s.takeSlot b2 s2 rest).setOwner b2 s2 .ext).writeBytes b2 s2 frame).slotByte? b sl o := by
    rw [hframe]
    rfl
  refine ⟨fun o ho => ?_, fun b sl o hsl ho hne => ?_⟩
  · rw [hmem, State.slotByte?_writeBytes _ hs2 (by omega) hs2 (by omega)]
    split
    · rfl
    · next hbeyond =>
      have hle : frame.length ≤ o := by simpa using hbeyond
      rw [hundefined o ho, List.getElem?_eq_none hle]
  · rw [hmem, State.slotByte?_writeBytes _ hs2 (by omega) hsl ho, if_neg, hothers b sl o hsl ho hne]
    rintro ⟨rfl, rfl, -⟩
    exact hne rfl

/-- The pool with the frame stored: its slot an external agent's, the input slot given back, nothing else moved (R157). -/
theorem State.pool_storeFrame {t : State} (ht : t.pool = ((s.takeSlot b2 s2 rest).storeFrame d b2 s2).pool) :
    t.owner? b2 s2 = some .ext ∧ t.owner? d.bin.toNat d.slot.toNat = some .free ∧
    (∀ b sl, (b, sl) ≠ (b2, s2) → (b, sl) ≠ d.handle → t.owner? b sl = s.owner? b sl) ∧
    t.freeList d.bin.toNat = d.slot.toNat :: (if d.bin.toNat = b2 then rest else s.freeList d.bin.toNat) ∧
    (d.bin.toNat ≠ b2 →
      t.freeList b2 = rest ∧ t.inUse b2 = s.inUse b2 + 1 ∧ t.inUse d.bin.toNat = s.inUse d.bin.toNat - 1) ∧
    (d.bin.toNat = b2 → t.inUse b2 = s.inUse b2) ∧
    ∀ b, b ≠ b2 → b ≠ d.bin.toNat → t.freeList b = s.freeList b ∧ t.inUse b = s.inUse b := by
  obtain ⟨-, -, hext, -⟩ := State.validExt_iff.1 hvalid
  have hne := hpool.handle_ne_of_free hext hfree
  obtain ⟨hown, hrest, hcount, howners, hothers, -⟩ := State.takeSlot_setOwner_spec hpool hfree .ext
  -- the pool is that after the slot for the frame was taken, with the input slot given back
  have hpool' : t.pool = (((s.takeSlot b2 s2 rest).setOwner b2 s2 .ext).poolGive d.bin.toNat d.slot.toNat).pool := ht
  obtain ⟨B, hB, hB', -⟩ := State.exists_bin_of_owner ((howners _ _ hne).trans hext)
  obtain ⟨hfreed, hgiven, hcount', howners', hothers'⟩ := State.poolGive_spec hB hB'
  have hfreeB := State.freeList_eq hB
  have hcountB := State.inUse_eq hB
  simp only [State.owner?_congr hpool', State.freeList_congr hpool', State.inUse_congr hpool']
  refine ⟨?_, hfreed, fun b sl h2 hd => ?_, ?_, fun hbin => ⟨?_, ?_, ?_⟩, fun hbin => ?_, fun b h2 hd => ?_⟩
  · rw [howners' _ _ hne.symm, hown]
  · rw [howners' _ _ hd, howners _ _ h2]
  · rw [hgiven, ← hfreeB]
    split
    · next hbin => rw [hbin, hrest]
    · next hbin => rw [(hothers _ hbin).1]
  · rw [(hothers' _ (Ne.symm hbin)).1, hrest]
  · rw [(hothers' _ (Ne.symm hbin)).2, hcount]
  · rw [hcount', ← hcountB, (hothers _ hbin).2]
  · rw [hbin] at hcount' hcountB ⊢
    rw [hcount', ← hcountB, hcount, Nat.add_sub_cancel]
  · exact ⟨(hothers' b hd).1.trans (hothers b h2).1, (hothers' b hd).2.trans (hothers b h2).2⟩

end

/-! ## `SUBMIT` while ready -/

/-- `SUBMIT` of a valid descriptor while ready offers its bytes; the verdict decides the status and `F_DRVFAIL` (R204, R206). -/
theorem exec_submit_of_ready {s : State} {d : Desc} (hrun : s.fatal = false) (hready : s.ready = true) (hvalid : s.validExt d = true) :
    exec (.submit d) s =
      .next (State.complete { s.offer d with flags := if s.env.verdict then s.flags else { s.flags with drvFail := true } }
        (if s.env.verdict then .ok else .driverFailure) 0 0) := by
  have hexec : exec (.submit d) s = execSubmit d s := rfl
  rw [hexec, execSubmit, State.unlessHalted_of_running hrun, if_pos hvalid, if_pos hready]
  cases s.env.verdict <;> rfl

/-- The ports after a verdict that was given. -/
theorem Env.retire_afterVerdict_of_cons {e : Env} {v : Bool} {r : List Bool} (h : e.verdicts = v :: r) :
    e.afterVerdict.retire = { e.retire with verdicts := r } := by
  simp only [Env.afterVerdict, h, Env.retire_with_verdicts]

/-- The ports after a verdict that was drawn (log 5). -/
theorem Env.retire_afterVerdict_of_nil {e : Env} (h : e.verdicts = []) :
    e.afterVerdict.retire = { e.retire with draws := e.afterVerdict.retire.draws } := by
  have hdrawn : e.afterVerdict = { e with draws := e.draws + 1 } := by
    unfold Env.afterVerdict
    split
    · next hcons => simp [h] at hcons
    · rfl
  rw [hdrawn, Env.retire_with_draws]

end Sys2Proof.Machine

open Sys2Proof Sys2Proof.Machine

/-- Settles O19: `pool_take` answers the head of the best-fit bin's free list; what taking it and setting its owner change is said once. -/
theorem allocTakesBestFitSlot : Obligations.AllocTakesBestFitSlot := by
  intro s size b sl rest k hrun hpool hk hfits hfirst hfree
  have htake := State.poolTake_of_bestFit hk hfits hfirst hfree
  obtain ⟨hext, hrest, hcount, howners, hothers, hundefined, hbytes⟩ := State.takeSlot_setOwner_spec hpool hfree .ext
  have hsize : s.conf.binSize b = k.size := Cfg.binSize_eq hk
  exact ⟨_, exec_alloc_of_slot hrun htake, rfl, hext, hrest, hcount, howners, hothers, fun o ho => hundefined o (hsize.symm ▸ ho), hbytes,
    rfl, s.env.retire_drawFill_eq b sl⟩

/-- Settles O20: `pool_take` finds no slot. -/
theorem allocNeverBorrows : Obligations.AllocNeverBorrows :=
  fun _ _ hrun hnoFit => exec_alloc_of_noSlot hrun (State.poolTake_of_noFit hnoFit)

/-- Settles O21: the next state is the one after `pool_give` and the response. -/
theorem releaseReturnsSlot : Obligations.ReleaseReturnsSlot := by
  intro s d B hrun hbin hslot hB hB'
  have hext : s.owner? d.bin.toNat d.slot.toNat = some .ext := (State.owner?_eq hB).trans hB'
  obtain ⟨hfreed, hfree, hcount, howners, hothers⟩ := State.poolGive_spec hB hB'
  exact ⟨_, exec_release_of_releasable hrun hbin hslot hext, rfl, hfreed, hfree, hcount, howners, hothers, rfl, rfl⟩

/-- Settles O24: the byte answered is the one read, which is the stored one where there is one. -/
theorem bufrdReadsOneByte : Obligations.BufrdReadsOneByte := by
  intro s off d hrun hvalid hoff
  have hacc : s.validAccess off d = true := State.validAccess_iff.2 ⟨hvalid, hoff⟩
  exact ⟨_, exec_bufrd_of_validAccess hrun hacc, fun x hx => State.readByte_of_defined hx⟩

/-- Settles O30: the frame is that of the bytes read from the input slot, stored in a slot that is not the input's. -/
theorem frameBuildsFrame : Obligations.FrameBuildsFrame := by
  intro s d b2 s2 rest k hrun hpool hvalid hlen hk hfits hfirst hfree
  have htake : s.poolTake (s.conf.frameSize d.len.toNat) = _ := State.poolTake_of_bestFit hk hfits hfirst hfree
  have hsize : s.conf.binSize b2 = k.size := Cfg.binSize_eq hk
  let payload := (s.takeSlot b2 s2 rest).readBytes d.bin.toNat d.slot.toNat d.len.toNat
  have hpayload : payload.length = d.len.toNat := State.length_readBytes ..
  have hframe : (s.conf.frameOf payload).length = s.conf.frameSize d.len.toNat := by rw [Cfg.length_frameOf, hpayload]
  obtain ⟨hstored, hbytes⟩ := State.slotByte?_storeFrame hpool hfree (d := d) (frame := s.conf.frameOf payload) rfl
    (by rw [hframe, hsize]; exact hfits)
  obtain ⟨hext, hfreed, howners, hgiven, hother, hsame, hbins⟩ := State.pool_storeFrame hpool hvalid hfree rfl
  refine ⟨_, payload, s.conf.frameOf payload, exec_frame_of_slot hrun hvalid hlen htake, rfl, hpayload,
    fun i v hi hv => State.getElem?_payload_of_frame hpool hvalid hfree hi hv, ?_, hframe, fun o ho => hstored o (hsize.symm ▸ ho),
    hbytes, hext, hfreed, howners, hgiven, hother, hsame, hbins, ?_, s.env.retire_drawFill_eq b2 s2⟩
  · rw [Cfg.frameOf, hpayload]
  · rw [hframe]
    rfl

/-- Settles O40: the next state is the one after the offer, `pool_give` and the response; the verdict is the next one given or a drawn one. -/
theorem submitOffersBytes : Obligations.SubmitOffersBytes := by
  intro s d B hrun hready hvalid hB
  obtain ⟨-, -, hext, -⟩ := State.validExt_iff.1 hvalid
  rw [State.owner?_eq hB] at hext
  obtain ⟨hfreed, hfree, hcount, howners, hothers⟩ := State.poolGive_spec hB hext
  refine ⟨_, s.readBytes d.bin.toNat d.slot.toNat d.len.toNat, s.env.verdict, exec_submit_of_ready hrun hready hvalid, ?_,
    State.length_readBytes .., fun i v hi hv => State.getElem?_readBytes hi hv, hfreed, hfree, hcount, howners, hothers, rfl, ?_,
    fun v r hv => ⟨?_, Env.retire_afterVerdict_of_cons hv⟩, fun hv => Env.retire_afterVerdict_of_nil hv⟩
  · rfl
  · have hactive : s.env.afterVerdict.active = s.env.active := by
      unfold Env.afterVerdict
      split <;> rfl
    show _ ++ responseEvents s.env.afterVerdict.active _ 0 0 = _
    rw [hactive]
    rfl
  · simp only [Env.verdict, hv]

end

section
/-! PROOF. Ticks one after another (45_tick.md, testable property 7): how often each consumer is invoked. -/

namespace Sys2Proof.Machine

/-! ## How often one tick invokes a consumer -/

/-- The consumers a group invokes are its own, from the first one on (R223). -/
theorem act_mem_groupEvents {g i g' i' : Nat} {ctx : Quad} {l : List Quad} (h : .act g i ctx ∈ groupEvents g' i' l) : g = g' ∧ i' ≤ i := by
  induction l generalizing i' with
  | nil => simp [groupEvents] at h
  | cons c l ih =>
    rw [groupEvents, List.mem_cons] at h
    obtain h | h := h
    · cases h
      exact ⟨rfl, le_rfl⟩
    · obtain ⟨hg, hi⟩ := ih h
      exact ⟨hg, by omega⟩

/-- A group invokes each of its consumers once (R223). -/
theorem count_groupEvents {g i j : Nat} {ctx : Quad} {l : List Quad} (h : l[j]? = some ctx) :
    (groupEvents g i l).count (.act g (i + j) ctx) = 1 := by
  induction l generalizing i j with
  | nil => simp at h
  | cons c l ih =>
    cases j with
    | zero =>
      obtain rfl : c = ctx := by simpa using h
      have hrest : .act g i c ∉ groupEvents g (i + 1) l := fun hmem => by
        obtain ⟨-, hi⟩ := act_mem_groupEvents hmem
        omega
      rw [groupEvents, Nat.add_zero, List.count_cons_self, List.count_eq_zero_of_not_mem hrest]
    | succ j =>
      have hne : Event.act g i c ≠ .act g (i + (j + 1)) ctx := by simp
      have hnext : i + (j + 1) = i + 1 + j := by omega
      rw [groupEvents, List.count_cons_of_ne hne, hnext]
      exact ih (by simpa using h)

/-- The groups a tick activates are of the list, from the first one on (R223). -/
theorem act_mem_activationsFrom {n g i g' : Nat} {ctx : Quad} {l : List GroupCfg} (h : .act g i ctx ∈ activationsFrom n g' l) :
    g' ≤ g := by
  induction l generalizing g' with
  | nil => simp [activationsFrom] at h
  | cons k l ih =>
    rw [activationsFrom, List.mem_append] at h
    obtain h | h := h
    · split at h
      · obtain ⟨hg, -⟩ := act_mem_groupEvents h
        omega
      · simp at h
    · have := ih h
      omega

/-- A tick invokes each consumer of a group once if the group's divisor divides the count, else not at all (R219, R223). -/
theorem count_activationsFrom {n g i j : Nat} {k : GroupCfg} {ctx : Quad} {l : List GroupCfg} (hk : l[j]? = some k)
    (hctx : k.ctx[i]? = some ctx) : (activationsFrom n g l).count (.act (g + j) i ctx) = if n % k.div = 0 then 1 else 0 := by
  induction l generalizing g j with
  | nil => simp at hk
  | cons k' l ih =>
    rw [activationsFrom, List.count_append]
    cases j with
    | zero =>
      obtain rfl : k' = k := by simpa using hk
      have hrest : .act g i ctx ∉ activationsFrom n (g + 1) l := fun hmem => by
        have := act_mem_activationsFrom hmem
        omega
      have hone : (groupEvents g 0 k'.ctx).count (.act g i ctx) = 1 := by simpa using count_groupEvents (g := g) (i := 0) hctx
      rw [Nat.add_zero, List.count_eq_zero_of_not_mem hrest]
      split
      · rw [hone]
      · rfl
    | succ j =>
      have hhead : (if n % k'.div = 0 then groupEvents g 0 k'.ctx else []).count (.act (g + (j + 1)) i ctx) = 0 := by
        refine List.count_eq_zero_of_not_mem fun hmem => ?_
        split at hmem
        · obtain ⟨hg, -⟩ := act_mem_groupEvents hmem
          omega
        · simp at hmem
      have hnext : g + (j + 1) = g + 1 + j := by omega
      rw [hhead, Nat.zero_add, hnext]
      exact ih (by simpa using hk)

/-- An activation is no response (R50). -/
theorem count_act_responseEvents (g i : Nat) (ctx : Quad) (p : Port) (st : Status) (aux : Byte) (data : Quad) :
    (responseEvents p st aux data).count (.act g i ctx) = 0 := by
  cases p <;> simp [responseEvents]

/-! ## Ticks one after another -/

/-- One tick of a running scheduler below the wrap of the counter: it counts one, and invokes each consumer as often as the quotient of
the count by the group's divisor grows (R219 to R221). -/
theorem exec_tick_count {s : State} {g i : Nat} {k : GroupCfg} {ctx : Quad} (hrun : s.fatal = false) (hstarted : s.started = true)
    (hwrap : s.tickCnt.toNat + 1 < 2 ^ 32) (hk : s.conf.groups[g]? = some k) (hctx : k.ctx[i]? = some ctx) :
    ∃ t evs, exec .tick s = .next t ∧ t.fatal = false ∧ t.started = true ∧ t.cfg = s.cfg ∧
      t.tickCnt.toNat = s.tickCnt.toNat + 1 ∧ t.out = s.out ++ evs ∧
      s.tickCnt.toNat / k.div + evs.count (.act g i ctx) = (s.tickCnt.toNat + 1) / k.div := by
  have hcount : (s.tickCnt + 1).toNat = s.tickCnt.toNat + 1 := by
    rw [BitVec.toNat_add]
    exact Nat.mod_eq_of_lt hwrap
  have honce := count_activationsFrom (n := s.tickCnt.toNat + 1) (g := 0) hk hctx
  rw [Nat.zero_add] at honce
  refine ⟨_, _, exec_tick_of_started hrun hstarted, hrun, hstarted, rfl, hcount, List.append_assoc .., ?_⟩
  rw [List.count_append, count_act_responseEvents, hcount, activations, if_neg (Nat.succ_ne_zero _), honce, Nat.succ_div]
  simp [Nat.dvd_iff_mod_eq_zero]

/-- Ticks of a running scheduler below the wrap of the counter (R112, R220). -/
theorem exists_runOps_ticks {g i : Nat} {k : GroupCfg} {ctx : Quad} (hctx : k.ctx[i]? = some ctx) (n : Nat) : ∀ {s : State},
    s.fatal = false → s.started = true → s.tickCnt.toNat + n < 2 ^ 32 → s.conf.groups[g]? = some k →
    ∃ t evs, runOps (ticks n) s = .next t ∧ t.tickCnt.toNat = s.tickCnt.toNat + n ∧ t.out = s.out ++ evs ∧
      s.tickCnt.toNat / k.div + evs.count (.act g i ctx) = (s.tickCnt.toNat + n) / k.div := by
  induction n with
  | zero => exact fun {s} _ _ _ _ => ⟨s, [], rfl, rfl, (List.append_nil _).symm, rfl⟩
  | succ n ih =>
    intro s hrun hstarted hwrap hk
    have henabled : s.enabledOp (.ok .tick) = true := by rw [State.enabledOp_ok_iff]; simp [hrun]
    have hticks : ticks (n + 1) = .tick :: ticks n := rfl
    obtain ⟨u, evs, hexec, hrun', hstarted', hcfg, hcnt, hout, hcount⟩ := exec_tick_count hrun hstarted (by omega) hk hctx
    have hk' : u.conf.groups[g]? = some k := by rwa [State.conf, hcfg]
    obtain ⟨t, evs', hruns, hcnt', hout', hcount'⟩ := ih hrun' hstarted' (by omega) hk'
    refine ⟨t, evs ++ evs', ?_, by omega, ?_, ?_⟩
    · rw [hticks, runOps_cons henabled hexec, hruns]
    · rw [hout', hout, List.append_assoc]
    · rw [List.count_append, ← Nat.add_assoc, hcount, ← hcnt, hcount', hcnt, Nat.add_assoc, Nat.add_comm 1 n]

end Sys2Proof.Machine

open Sys2Proof Sys2Proof.Machine

/-- Settles O44: the quotient of the count by the divisor grows from 0 to `n / k.div`. -/
theorem ticksActivateFloorTimes : Obligations.TicksActivateFloorTimes := by
  intro s n g i k ctx hrun hstarted hzero hn hk hctx
  have hcnt : s.tickCnt.toNat = 0 := by rw [hzero]; rfl
  obtain ⟨t, evs, hruns, hcnt', hout, hcount⟩ := exists_runOps_ticks hctx n hrun hstarted (by omega) hk
  rw [hcnt, Nat.zero_add] at hcnt' hcount
  rw [Nat.zero_div, Nat.zero_add] at hcount
  exact ⟨t, hruns, hcnt', by rw [hout, List.drop_left, hcount]⟩

end

section
/-! PROOF. The registers of the position, the tick counter, the fault and the bin, queue and group tables (R53), and the bits of STATUS (R39,
R54), as `RDCSR` answers them. -/

namespace Sys2Proof.Machine

/-! ## The registers of the tables -/

section
variable {s : State} {csr : Half}

theorem State.csr?_binCfg {b : Nat} {k : BinCfg} (hcsr : csr.toNat = 0x0100 + b) (hb : b < 256) (hk : s.conf.bins[b]? = some k) :
    s.csr? csr = some (binCfgReg k) := by
  have hpage : csr.toNat / 256 = 1 := by omega
  have hindex : csr.toNat % 256 = b := by omega
  simp [State.csr?, hpage, hindex, hk]

theorem State.csr?_binUse {b : Nat} (hcsr : csr.toNat = 0x0200 + b) (hb : b < s.conf.bins.length) :
    s.csr? csr = some (s.binUseReg b) := by
  have hbins : s.conf.bins.length ≤ 256 := (Cfg.bins_length s.cfg.property).2
  have hpage : csr.toNat / 256 = 2 := by omega
  have hindex : csr.toNat % 256 = b := by omega
  simp [State.csr?, hpage, hindex, hb]

theorem State.csr?_queueCfg {q : Nat} {k : QueueCfg} (hcsr : csr.toNat = 0x0300 + q) (hq : q < 256)
    (hk : s.conf.queues[q]? = some k) : s.csr? csr = some (queueCfgReg k) := by
  have hpage : csr.toNat / 256 = 3 := by omega
  have hindex : csr.toNat % 256 = q := by omega
  simp [State.csr?, hpage, hindex, hk]

theorem State.csr?_queueCnt {q : Nat} (hcsr : csr.toNat = 0x0400 + q) (hq : q < s.conf.queues.length) :
    s.csr? csr = some ((0#16) ++ BitVec.ofNat 16 (s.qCnt q)) := by
  have hqueues : s.conf.queues.length ≤ 256 := (Cfg.queues_length s.cfg.property).2
  have hpage : csr.toNat / 256 = 4 := by omega
  have hindex : csr.toNat % 256 = q := by omega
  simp [State.csr?, hpage, hindex, hq]

theorem State.csr?_groupDiv {g : Nat} {k : GroupCfg} (hcsr : csr.toNat = 0x0500 + g) (hg : g < 256)
    (hk : s.conf.groups[g]? = some k) : s.csr? csr = some (BitVec.ofNat 32 k.div) := by
  have hpage : csr.toNat / 256 = 5 := by omega
  have hindex : csr.toNat % 256 = g := by omega
  simp [State.csr?, hpage, hindex, hk]

theorem State.csr?_groupN {g : Nat} {k : GroupCfg} (hcsr : csr.toNat = 0x0600 + g) (hg : g < 256)
    (hk : s.conf.groups[g]? = some k) : s.csr? csr = some ((0#23) ++ BitVec.ofNat 9 k.ctx.length) := by
  have hpage : csr.toNat / 256 = 6 := by omega
  have hindex : csr.toNat % 256 = g := by omega
  simp [State.csr?, hpage, hindex, hk]

end

/-! ## The registers as numbers: no value of a well-formed configuration is cut off (R8) -/

theorem toNat_binCfgReg {c : Cfg} (h : c.wf = true) {k : BinCfg} (hk : k ∈ c.bins) :
    (binCfgReg k).toNat = k.count * 2 ^ 16 + k.size := by
  have hranges := Cfg.bin_ranges h hk
  simp only [binCfgReg, toNat_append_eq_add, BitVec.toNat_ofNat]
  omega

theorem toNat_queueCfgReg {c : Cfg} (h : c.wf = true) {k : QueueCfg} (hk : k ∈ c.queues) :
    (queueCfgReg k).toNat = k.depth * 2 ^ 8 + k.prio := by
  have hranges := Cfg.queue_ranges h hk
  simp only [queueCfgReg, toNat_append_eq_add, BitVec.toNat_ofNat]
  omega

theorem toNat_groupDivReg {c : Cfg} (h : c.wf = true) {k : GroupCfg} (hk : k ∈ c.groups) : (BitVec.ofNat 32 k.div).toNat = k.div := by
  have hranges := Cfg.group_ranges h hk
  rw [BitVec.toNat_ofNat]
  omega

theorem toNat_groupNReg {c : Cfg} (h : c.wf = true) {k : GroupCfg} (hk : k ∈ c.groups) :
    ((0#23) ++ BitVec.ofNat 9 k.ctx.length).toNat = k.ctx.length := by
  have hranges := Cfg.group_ranges h hk
  simp only [toNat_append_eq_add, BitVec.toNat_ofNat]
  omega

/-! ## STATUS -/

/-- `STATUS` as a number, field by field (R54). -/
theorem State.toNat_statusReg (s : State) : s.statusReg.toNat =
    s.faultCode.toNat * 2 ^ 16 + s.flags.drvFail.toNat * 2 ^ 12 + s.flags.txDrop.toNat * 2 ^ 11 + s.flags.noBuf.toNat * 2 ^ 10 +
      s.flags.len.toNat * 2 ^ 9 + s.flags.chk.toNat * 2 ^ 8 + s.rx.st.code.toNat * 2 ^ 4 + s.fatal.toNat * 2 ^ 2 +
      s.started.toNat * 2 + s.ready.toNat := by
  simp only [State.statusReg, bit, toNat_append_eq_add, BitVec.toNat_ofNat, BitVec.toNat_ofBool]
  omega

/-- A bit is a digit of the number. -/
theorem getLsbD_eq_of_toNat {w i : Nat} {v : BitVec w} {b : Bool} (h : v.toNat / 2 ^ i % 2 = b.toNat) : v.getLsbD i = b := by
  rw [BitVec.getLsbD, Nat.testBit_eq_decide_div_mod_eq, h]
  cases b <;> rfl

/-- A field is a run of digits of the number. -/
theorem extractLsb'_eq_of_toNat {w start len : Nat} {v : BitVec w} {x : BitVec len} (h : v.toNat / 2 ^ start % 2 ^ len = x.toNat) :
    v.extractLsb' start len = x := by
  apply BitVec.eq_of_toNat_eq
  rw [BitVec.extractLsb'_toNat, Nat.shiftRight_eq_div_pow, h]

theorem State.csr?_status (s : State) : s.csr? 0x0000 = some s.statusReg := rfl

end Sys2Proof.Machine

open Sys2Proof Sys2Proof.Machine

/-- Settles O46: each number is in the table, and its register is the value the statement gives. -/
theorem rdcsrAnswersRegister : Obligations.RdcsrAnswersRegister := by
  intro s csr v h
  have hwf := s.cfg.property
  apply exec_rdcsr_of_csr?
  obtain ⟨rfl, rfl⟩ | ⟨rfl, rfl⟩ | ⟨rfl, rfl⟩ | ⟨b, k, hcsr, hb, hk, hv⟩ | ⟨b, hcsr, hb, rfl⟩ | ⟨q, k, hcsr, hq, hk, hv⟩ |
    ⟨q, hcsr, hq, hv⟩ | ⟨g, k, hcsr, hg, hk, hv⟩ | ⟨g, k, hcsr, hg, hk, hv⟩ := h
  · rfl -- `RXPOS`
  · rfl -- `TICKCNT`
  · rfl -- `FAULTINFO`
  · rw [State.csr?_binCfg hcsr hb hk, BitVec.eq_of_toNat_eq (hv.trans (toNat_binCfgReg hwf (List.mem_of_getElem? hk)).symm)]
  · exact State.csr?_binUse hcsr hb
  · rw [State.csr?_queueCfg hcsr hq hk, BitVec.eq_of_toNat_eq (hv.trans (toNat_queueCfgReg hwf (List.mem_of_getElem? hk)).symm)]
  · have hcnt : ((0#16) ++ BitVec.ofNat 16 (s.qCnt q)).toNat = s.qCnt q % 2 ^ 16 := by
      simp only [toNat_append_eq_add, BitVec.toNat_ofNat]
      omega
    rw [State.csr?_queueCnt hcsr hq, BitVec.eq_of_toNat_eq (hv.trans hcnt.symm)]
  · rw [State.csr?_groupDiv hcsr hg hk, BitVec.eq_of_toNat_eq (hv.trans (toNat_groupDivReg hwf (List.mem_of_getElem? hk)).symm)]
  · rw [State.csr?_groupN hcsr hg hk, BitVec.eq_of_toNat_eq (hv.trans (toNat_groupNReg hwf (List.mem_of_getElem? hk)).symm)]

/-- Settles O47: `STATUS` is in the table, and its bits are read off the number it is. -/
theorem statusRegisterBits : Obligations.StatusRegisterBits := by
  intro s
  have hv := s.toNat_statusReg
  have hcode := s.faultCode.isLt
  have hst := s.rx.st.code.isLt
  have hready := s.ready.toNat_le
  have hstarted := s.started.toNat_le
  have hfatal := s.fatal.toNat_le
  have hchk := s.flags.chk.toNat_le
  have hlen := s.flags.len.toNat_le
  have hnoBuf := s.flags.noBuf.toNat_le
  have htxDrop := s.flags.txDrop.toNat_le
  have hdrvFail := s.flags.drvFail.toNat_le
  have hrx : s.statusReg.extractLsb' 4 3 = s.rx.st.code := extractLsb'_eq_of_toNat (by omega)
  refine ⟨s.statusReg, exec_rdcsr_of_csr? s.csr?_status, ?_, ?_, ?_, ?_, ?_, ?_, ?_, ?_, ?_, ?_, ?_, ?_, ?_, ?_, ?_, ?_, ?_, ?_⟩
  case refine_5 | refine_6 | refine_7 | refine_8 | refine_9 => -- `RX_STATE`
    intro h
    rw [hrx, h]
    rfl
  case refine_4 | refine_10 => -- the reserved bits 3 and 7
    apply getLsbD_eq_of_toNat
    rw [Bool.toNat_false]
    omega
  case refine_16 | refine_18 => -- the reserved fields
    apply extractLsb'_eq_of_toNat
    show _ = 0
    omega
  case refine_17 => exact extractLsb'_eq_of_toNat (by omega) -- `FAULT_CODE`
  all_goals exact getLsbD_eq_of_toNat (by omega)

end

section
/-! PROOF. What no step changes or takes back: the configuration (R7) and the output history (R50, R240). -/

namespace Sys2Proof.Machine

/-! ## States and results with a history that only grows -/

/-- The configuration is the same, and nothing is taken back from the output history. -/
def State.Extends (s t : State) : Prop := t.cfg = s.cfg ∧ s.out <+: t.out

theorem State.Extends.of_eq {s t : State} (hcfg : t.cfg = s.cfg) (hout : t.out = s.out) : s.Extends t :=
  ⟨hcfg, hout ▸ List.prefix_refl _⟩

theorem State.Extends.of_append {s t : State} {evs : List Event} (hcfg : t.cfg = s.cfg) (hout : t.out = s.out ++ evs) : s.Extends t :=
  ⟨hcfg, hout ▸ List.prefix_append _ _⟩

theorem State.Extends.trans {s t u : State} (h : s.Extends t) (h' : t.Extends u) : s.Extends u :=
  ⟨h'.1.trans h.1, h.2.trans h'.2⟩

/-- Where the result is a next state, it extends `s`. -/
def State.ExtendedBy (s : State) (r : Result) : Prop := ∀ t, r = .next t → s.Extends t

/-- A response is appended to the history of the effect before it (R92). -/
theorem State.Extends.respond {s u : State} (h : s.Extends u) {st : Status} {aux : Byte} {data : Quad} :
    s.ExtendedBy (u.respond st aux data) := by
  intro t ht
  rw [State.respond_eq_next.1 ht]
  exact h.trans (.of_append rfl (u.complete_out st aux data))

/-- `HALT`, then the response (R262). -/
theorem State.extendedBy_raiseFatal (s : State) {st : Status} {d : Desc} : s.ExtendedBy (s.raiseFatal st d) :=
  State.Extends.respond (s := s) (u := s.halt st d) (.of_append rfl (s.halt_out st d))

/-- A held operation changes nothing (R149, R263). -/
theorem State.extendedBy_hold (s : State) : s.ExtendedBy s.hold := by
  intro t ht
  cases ht
  exact .of_eq rfl rfl

/-- A stop of the model has no next state. -/
theorem State.extendedBy_fault (s : State) (e : Fault) : s.ExtendedBy (.fault e) := by
  intro t ht
  cases ht

theorem State.extendedBy_unlessHalted {s : State} {r : Result} (h : s.ExtendedBy r) : s.ExtendedBy (s.unlessHalted r) := by
  intro t ht
  obtain ⟨-, rfl⟩ | ⟨-, hr⟩ := State.unlessHalted_eq_next ht
  · exact .of_eq rfl rfl
  · exact h t hr

/-- An operation that only answers. -/
theorem State.extendedBy_respond (s : State) {st : Status} {aux : Byte} {data : Quad} : s.ExtendedBy (s.respond st aux data) :=
  State.Extends.respond (.of_eq rfl rfl)

/-! ## The operations -/

/-- Any state is alike to itself, so what `SameReception` says of two receptions holds of one. -/
theorem State.AlikeFor.refl (d : Byte) (s : State) : s.AlikeFor d s :=
  ⟨rfl, rfl, fun _ _ _ _ _ => rfl, fun _ _ _ _ _ => rfl⟩

/-- The Deframer only emits (R50). -/
theorem RxbEffect.extends {d : Byte} {s u : State} (h : RxbEffect d s u) : s.Extends u := by
  obtain ⟨-, -, -, evs, hout, -⟩ := (State.AlikeFor.refl d s).rxbEffect h
  exact .of_append (congrArg (·.cfg) h.frame) hout

theorem extendedBy_execAlloc (size : Half) (s : State) : s.ExtendedBy (execAlloc size s) := by
  apply State.extendedBy_unlessHalted
  split
  · exact s.extendedBy_respond
  · next htake =>
    obtain ⟨-, rest, -, rfl⟩ := State.poolTake_eq_some.1 htake
    exact State.Extends.respond (.of_eq rfl rfl)

theorem extendedBy_execEnq (prio : Byte) (d : Desc) (s : State) : s.ExtendedBy (execEnq prio d s) := by
  apply State.extendedBy_unlessHalted
  split
  · split
    · exact s.extendedBy_respond
    · split
      · exact s.extendedBy_respond
      · exact State.Extends.respond (.of_eq rfl rfl)
  · exact s.extendedBy_raiseFatal

theorem extendedBy_execDeq (s : State) : s.ExtendedBy (execDeq s) := by
  apply State.extendedBy_unlessHalted
  split
  · exact s.extendedBy_hold
  · split
    · exact s.extendedBy_fault _
    · exact State.Extends.respond (.of_eq rfl rfl)

theorem extendedBy_execFrame (d : Desc) (s : State) : s.ExtendedBy (execFrame d s) := by
  apply State.extendedBy_unlessHalted
  split
  · split
    · exact s.extendedBy_respond
    · split
      · exact s.extendedBy_respond
      · next htake =>
        obtain ⟨-, rest, -, rfl⟩ := State.poolTake_eq_some.1 htake
        exact State.Extends.respond (.of_eq rfl rfl)
  · exact s.extendedBy_raiseFatal

theorem extendedBy_exec_rxb (d : Byte) (s : State) : s.ExtendedBy (exec (.rxb d) s) := by
  intro t h
  obtain ⟨-, rfl⟩ | ⟨-, u, hu, rfl⟩ := exec_rxb_eq_next h
  · exact .of_eq rfl rfl
  · exact hu.extends.respond _ rfl

theorem extendedBy_execSubmit (d : Desc) (s : State) : s.ExtendedBy (execSubmit d s) := by
  have hoffer : s.Extends (s.offer d) := .of_append rfl rfl
  apply State.extendedBy_unlessHalted
  split
  · split
    · split
      · exact hoffer.respond
      · exact (hoffer.trans (.of_eq rfl rfl) : s.Extends (s.offer d).raiseDrvFail).respond
    · exact State.Extends.respond (.of_eq rfl rfl)
  · exact s.extendedBy_raiseFatal

/-- An operation whose test guards an effect that extends, and a fatal fault. -/
theorem State.extendedBy_guarded {s : State} {c : Bool} {r : Result} (h : s.ExtendedBy r) {st : Status} {d : Desc} :
    s.ExtendedBy (s.unlessHalted (if c then r else s.raiseFatal st d)) := by
  apply State.extendedBy_unlessHalted
  split
  · exact h
  · exact s.extendedBy_raiseFatal

/-- No operation writes the configuration or takes back an event (R7, R50). -/
theorem extendedBy_exec (i : Instr) (s : State) : s.ExtendedBy (exec i s) := by
  cases i with
  | nop => exact State.extendedBy_unlessHalted (s.extendedBy_respond)
  | alloc size => exact extendedBy_execAlloc size s
  | release | bufwr =>
    refine State.extendedBy_guarded ?_
    exact State.Extends.respond (.of_eq rfl rfl)
  | bufrd off d => exact State.extendedBy_guarded s.extendedBy_respond
  | enq prio d => exact extendedBy_execEnq prio d s
  | deq => exact extendedBy_execDeq s
  | frame d => exact extendedBy_execFrame d s
  | rxb d => exact extendedBy_exec_rxb d s
  | submit d => exact extendedBy_execSubmit d s
  | trdy | start | clrsts => exact State.extendedBy_unlessHalted (State.Extends.respond (.of_eq rfl rfl))
  | tick =>
    apply State.extendedBy_unlessHalted
    split
    · exact State.Extends.respond
        (u := State.emit { s with tickCnt := s.tickCnt + 1 } (activations s.conf (s.tickCnt + 1).toNat))
        (State.Extends.of_append (s := s) rfl rfl)
    · exact s.extendedBy_respond
  | rdcsr csr =>
    obtain ⟨st, v, hexec⟩ := exists_exec_rdcsr_eq csr s
    rw [hexec]
    exact s.extendedBy_respond
  | rst => exact State.Extends.respond (.of_eq rfl rfl)

end Sys2Proof.Machine

open Sys2Proof Sys2Proof.Machine

/-- Settles O53: a grant leaves both as they are, and so does, up to what it emits, the operation or the answer that follows. -/
theorem stepKeepsConfigurationAndHistory : Obligations.StepKeepsConfigurationAndHistory := by
  intro s t hstep
  obtain rfl | ⟨p, s', hgrant, hdone⟩ := step_eq_next hstep
  · exact State.Extends.of_eq rfl rfl
  · obtain ⟨-, -, n, rfl⟩ := State.grant_eq_some hgrant
    refine State.Extends.trans (t := { s with env := s.env.afterChoice n p }) (.of_eq rfl rfl) ?_
    obtain ⟨i, -, hexec⟩ | ⟨e, -, hillegal⟩ := hdone
    · exact extendedBy_exec i _ t hexec
    · exact State.extendedBy_unlessHalted (State.extendedBy_respond _) t hillegal

end

section
/-! PROOF. No operation but `RDCSR` depends on a sticky flag (R52, R57): with other flags each does the same up to the flags. -/

namespace Sys2Proof.Machine

/-! ## Other flags -/

/-- The state with the sticky flags replaced. -/
def State.withFlags (s : State) (f : Sticky) : State := { s with flags := f }

/-- Where one result is a next state, the other is that state up to the flags. -/
def SameUpToFlags (r r' : Result) : Prop := ∀ t, r = .next t → ∃ f, r' = .next (t.withFlags f)

theorem sameUpToFlags_respond (s : State) (f : Sticky) {st : Status} {aux : Byte} {data : Quad} :
    SameUpToFlags (s.respond st aux data) ((s.withFlags f).respond st aux data) := by
  intro t ht
  rw [State.respond_eq_next.1 ht]
  exact ⟨f, rfl⟩

theorem sameUpToFlags_raiseFatal (s : State) (f : Sticky) {st : Status} {d : Desc} :
    SameUpToFlags (s.raiseFatal st d) ((s.withFlags f).raiseFatal st d) := by
  intro t ht
  rw [State.raiseFatal_eq_next.1 ht]
  exact ⟨f, rfl⟩

/-- A held operation changes nothing (R149, R263). -/
theorem sameUpToFlags_hold (s : State) (f : Sticky) : SameUpToFlags s.hold (s.withFlags f).hold := by
  intro t ht
  cases ht
  exact ⟨f, rfl⟩

theorem sameUpToFlags_fault (e : Fault) (r : Result) : SameUpToFlags (.fault e) r := by
  intro t ht
  cases ht

/-- The same test before both. -/
theorem SameUpToFlags.ite {c : Prop} [Decidable c] {a a' b b' : Result} (h : SameUpToFlags a a') (h' : SameUpToFlags b b') :
    SameUpToFlags (if c then a else b) (if c then a' else b') := by
  split
  · exact h
  · exact h'

theorem SameUpToFlags.unlessHalted {s : State} {f : Sticky} {r r' : Result} (h : SameUpToFlags r r') :
    SameUpToFlags (s.unlessHalted r) ((s.withFlags f).unlessHalted r') :=
  SameUpToFlags.ite (sameUpToFlags_hold s f) h

/-- `pool_take` answers the same slot, or none (R123). -/
theorem State.poolTake_withFlags (s : State) (f : Sticky) (n : Nat) :
    (s.withFlags f).poolTake n = (s.poolTake n).map fun a => (a.1, a.2.1, a.2.2.withFlags f) := by
  cases h : s.poolTake n with
  | none =>
    have hempty := State.poolTake_eq_none.1 h
    exact State.poolTake_eq_none.2 hempty
  | some a =>
    obtain ⟨hbest, rest, hfree, hs'⟩ := State.poolTake_eq_some.1 h
    exact State.poolTake_eq_some.2 ⟨hbest, rest, hfree, by rw [hs']; rfl⟩

/-! ## The Deframer -/

theorem State.rxSeek_withFlags (s : State) (f : Sticky) (d : Byte) : (s.withFlags f).rxSeek d = (s.rxSeek d).withFlags f := by
  by_cases h : s.conf.sync[s.rx.cnt]? = some d
  · rw [State.rxSeek_of_match h, State.rxSeek_of_match (s := s.withFlags f) h]; rfl
  · rw [State.rxSeek_of_mismatch h, State.rxSeek_of_mismatch (s := s.withFlags f) h]; rfl

theorem State.rxLengthDone_withFlags (s : State) (f : Sticky) : ∃ f', (s.withFlags f).rxLengthDone = s.rxLengthDone.withFlags f' := by
  by_cases hlen : s.conf.maxPayload < s.conf.dec s.lengthBytes
  · rw [State.rxLengthDone_of_tooLong hlen, State.rxLengthDone_of_tooLong (s := s.withFlags f) hlen]
    exact ⟨{ f with len := true }, rfl⟩
  · have hvalid := Nat.le_of_not_gt hlen
    have htake := s.poolTake_withFlags f (s.conf.dec s.lengthBytes)
    cases hpool : s.poolTake (s.conf.dec s.lengthBytes) with
    | none =>
      rw [hpool] at htake
      rw [State.rxLengthDone_of_noBuffer hvalid hpool, State.rxLengthDone_of_noBuffer (s := s.withFlags f) hvalid htake]
      exact ⟨{ f with noBuf := true }, rfl⟩
    | some a =>
      rw [hpool] at htake
      rw [State.rxLengthDone_of_buffer hvalid hpool, State.rxLengthDone_of_buffer (s := s.withFlags f) hvalid htake]
      exact ⟨f, rfl⟩

theorem State.rxLength_withFlags (s : State) (f : Sticky) (d : Byte) : ∃ f', (s.withFlags f).rxLength d = (s.rxLength d).withFlags f' := by
  by_cases hlast : s.rx.cnt + 1 = s.conf.lenW
  · rw [State.rxLength_of_last d hlast, State.rxLength_of_last (s := s.withFlags f) d hlast]
    exact (s.withLengthByte d).rxLengthDone_withFlags f
  · rw [State.rxLength_of_more d hlast, State.rxLength_of_more (s := s.withFlags f) d hlast]
    exact ⟨f, rfl⟩

theorem State.rxPayload_withFlags (s : State) (f : Sticky) (b sl : Nat) (d : Byte) :
    (s.withFlags f).rxPayload b sl d = (s.rxPayload b sl d).withFlags f := by
  rw [State.rxPayload_eq, State.rxPayload_eq]
  rfl

theorem State.rxChecksumDone_withFlags (s : State) (f : Sticky) (b sl : Nat) :
    ∃ f', (s.withFlags f).rxChecksumDone b sl = (s.rxChecksumDone b sl).withFlags f' := by
  by_cases h : s.conf.chk (s.lengthBytes ++ s.readBytes b sl s.rx.len) = s.rx.chk
  · rw [State.rxChecksumDone_of_match rfl h, State.rxChecksumDone_of_match (s := s.withFlags f) rfl h]
    exact ⟨f, rfl⟩
  · rw [State.rxChecksumDone_of_mismatch rfl h, State.rxChecksumDone_of_mismatch (s := s.withFlags f) rfl h]
    exact ⟨{ f with chk := true }, rfl⟩

theorem State.rxChecksum_withFlags (s : State) (f : Sticky) (b sl : Nat) (d : Byte) :
    ∃ f', (s.withFlags f).rxChecksum b sl d = (s.rxChecksum b sl d).withFlags f' := by
  by_cases hlast : s.rx.cnt + 1 = s.conf.chkW
  · rw [State.rxChecksum_of_last b sl d hlast, State.rxChecksum_of_last (s := s.withFlags f) b sl d hlast]
    exact (s.withChecksumByte d).rxChecksumDone_withFlags f b sl
  · rw [State.rxChecksum_of_more b sl d hlast, State.rxChecksum_of_more (s := s.withFlags f) b sl d hlast]
    exact ⟨f, rfl⟩

/-- An effect of `RXB` is one with any other flags too, up to the flags. -/
theorem RxbEffect.withFlags {d : Byte} {s u : State} (h : RxbEffect d s u) (f : Sticky) :
    ∃ f', RxbEffect d (s.withFlags f) (u.withFlags f') := by
  cases h with
  | seek hst => exact ⟨f, s.rxSeek_withFlags f d ▸ .seek hst⟩
  | length hst =>
    obtain ⟨f', heq⟩ := s.rxLength_withFlags f d
    exact ⟨f', heq ▸ .length hst⟩
  | payload hst hbuf hcnt => exact ⟨f, s.rxPayload_withFlags f _ _ d ▸ .payload hst hbuf hcnt⟩
  | checksum hst hbuf =>
    obtain ⟨f', heq⟩ := s.rxChecksum_withFlags f _ _ d
    exact ⟨f', heq ▸ .checksum hst hbuf⟩

/-! ## The operations -/

section
variable (s : State) (f : Sticky)

theorem sameUpToFlags_execAlloc (size : Half) : SameUpToFlags (execAlloc size s) (execAlloc size (s.withFlags f)) := by
  have htake := s.poolTake_withFlags f size.toNat
  refine SameUpToFlags.unlessHalted ?_
  rw [htake]
  cases s.poolTake size.toNat with
  | none => exact sameUpToFlags_respond s f
  | some a => exact sameUpToFlags_respond (a.2.2.setOwner a.1 a.2.1 .ext) f

theorem sameUpToFlags_execEnq (prio : Byte) (d : Desc) : SameUpToFlags (execEnq prio d s) (execEnq prio d (s.withFlags f)) := by
  have hconf : (s.withFlags f).conf = s.conf := rfl
  refine SameUpToFlags.unlessHalted (SameUpToFlags.ite ?_ (sameUpToFlags_raiseFatal s f))
  rw [hconf]
  cases s.conf.qidx prio.toNat with
  | none => exact sameUpToFlags_respond s f
  | some q =>
    exact SameUpToFlags.ite (sameUpToFlags_respond s f)
      (sameUpToFlags_respond ((s.pushQueue q d).setOwner d.bin.toNat d.slot.toNat .queue) f)

theorem sameUpToFlags_execDeq : SameUpToFlags (execDeq s) (execDeq (s.withFlags f)) := by
  have hnext : (s.withFlags f).nextQueue = s.nextQueue := rfl
  have hfifo : (s.withFlags f).qFifo = s.qFifo := rfl
  refine SameUpToFlags.unlessHalted ?_
  rw [hnext, hfifo]
  cases s.nextQueue with
  | none => exact sameUpToFlags_hold s f
  | some q =>
    cases hq : s.qFifo q with
    | nil => simp only [hq]; exact sameUpToFlags_fault _ _
    | cons d rest =>
      simp only [hq]
      exact sameUpToFlags_respond ((s.popQueue q).setOwner d.bin.toNat d.slot.toNat .ext) f

theorem sameUpToFlags_execFrame (d : Desc) : SameUpToFlags (execFrame d s) (execFrame d (s.withFlags f)) := by
  have htake := s.poolTake_withFlags f (s.conf.frameSize d.len.toNat)
  have hconf : (s.withFlags f).conf = s.conf := rfl
  refine SameUpToFlags.unlessHalted (SameUpToFlags.ite (SameUpToFlags.ite (sameUpToFlags_respond s f) ?_)
    (sameUpToFlags_raiseFatal s f))
  rw [hconf, htake]
  cases s.poolTake (s.conf.frameSize d.len.toNat) with
  | none => exact sameUpToFlags_respond s f
  | some a => exact sameUpToFlags_respond (a.2.2.storeFrame d a.1 a.2.1) f

theorem sameUpToFlags_exec_rxb (d : Byte) : SameUpToFlags (exec (.rxb d) s) (exec (.rxb d) (s.withFlags f)) := by
  intro t h
  obtain ⟨hhalted, rfl⟩ | ⟨hrun, u, hu, rfl⟩ := exec_rxb_eq_next h
  · exact ⟨f, State.unlessHalted_of_halted (s := t.withFlags f) hhalted _⟩
  · obtain ⟨f', hu'⟩ := hu.withFlags f
    exact ⟨f', hu'.exec_eq hrun⟩

theorem sameUpToFlags_execSubmit (d : Desc) : SameUpToFlags (execSubmit d s) (execSubmit d (s.withFlags f)) := by
  refine SameUpToFlags.unlessHalted (SameUpToFlags.ite (SameUpToFlags.ite (SameUpToFlags.ite ?_ ?_) ?_) (sameUpToFlags_raiseFatal s f))
  · exact sameUpToFlags_respond (s.offer d) f
  · exact sameUpToFlags_respond (s.offer d).raiseDrvFail { f with drvFail := true }
  · exact sameUpToFlags_respond (s.dropSubmit d) { f with txDrop := true }

/-- Which operations are held is the same. -/
theorem State.dropHeld_withFlags (l : List Port) : ∀ e, (s.withFlags f).dropHeld e l = s.dropHeld e l := by
  induction l with
  | nil => exact fun _ => rfl
  | cons p l ih =>
    intro e
    rw [State.dropHeld, State.dropHeld, ih]
    rfl

/-- Reset clears the flags, whatever they were (R238). -/
theorem State.resetBlock_withFlags : (s.withFlags f).resetBlock = s.resetBlock :=
  congrArg (fun e => ({ State.powerOn s.cfg with out := s.out, env := e } : State)) (s.dropHeld_withFlags f s.ports s.env)

/-- No operation but `RDCSR` depends on a sticky flag (R57). -/
theorem sameUpToFlags_exec {i : Instr} (hi : ∀ csr, i ≠ .rdcsr csr) : SameUpToFlags (exec i s) (exec i (s.withFlags f)) := by
  cases i with
  | nop => exact .unlessHalted (sameUpToFlags_respond s f)
  | alloc size => exact sameUpToFlags_execAlloc s f size
  | release d =>
    exact .unlessHalted (.ite (sameUpToFlags_respond (s.poolGive d.bin.toNat d.slot.toNat) f) (sameUpToFlags_raiseFatal s f))
  | bufwr data off d =>
    exact .unlessHalted (.ite (sameUpToFlags_respond (s.writeByte d.bin.toNat d.slot.toNat off.toNat data) f)
      (sameUpToFlags_raiseFatal s f))
  | bufrd off d => exact .unlessHalted (.ite (sameUpToFlags_respond s f) (sameUpToFlags_raiseFatal s f))
  | enq prio d => exact sameUpToFlags_execEnq s f prio d
  | deq => exact sameUpToFlags_execDeq s f
  | frame d => exact sameUpToFlags_execFrame s f d
  | rxb d => exact sameUpToFlags_exec_rxb s f d
  | submit d => exact sameUpToFlags_execSubmit s f d
  | trdy => exact .unlessHalted (sameUpToFlags_respond { s with ready := true } f)
  | start => exact .unlessHalted (sameUpToFlags_respond { s with started := true } f)
  | tick =>
    exact .unlessHalted (.ite (sameUpToFlags_respond
      (State.emit { s with tickCnt := s.tickCnt + 1 } (activations s.conf (s.tickCnt + 1).toNat)) f) (sameUpToFlags_respond s f))
  | rdcsr csr => exact absurd rfl (hi csr)
  | clrsts => exact .unlessHalted (sameUpToFlags_respond s.clearSticky Sticky.none)
  | rst =>
    rw [exec_rst, exec_rst, State.resetBlock_withFlags]
    exact sameUpToFlags_respond s.resetBlock Sticky.none

end

end Sys2Proof.Machine

open Sys2Proof Sys2Proof.Machine

/-- Settles O54, operation by operation. -/
theorem stickyFlagsInfluenceNothing : Obligations.StickyFlagsInfluenceNothing :=
  fun _ s t f hi hexec => sameUpToFlags_exec s f hi t hexec

end
